-- ==== Sys2Proof/Word.lean ====
section
/-! DEFINITION. The data widths of the block and the three-fold tables indexed by channel
(00_scope.md R13, R17). -/
namespace Sys2Proof

/-- A byte: a shift register (10_state.md R27), an output register (R40), a buffer byte
(20_memory.md R55). -/
abbrev Byte := BitVec 8

/-- A schedule word (30_encoding.md R83). -/
abbrev Word := BitVec 16

/-- A buffer byte address, ADDR_W = 16 bits (00_scope.md R10). -/
abbrev Addr := BitVec 16

/-- A channel number 0, 1 or 2 (00_scope.md R17); the field value 3 is reserved and never decoded. -/
abbrev Chan := Fin 3

/-- One item for each of three indices: channels 0..2, slots 0..2, or channel counts 1..3. -/
structure PerChan (α : Type) where
  c0 : α
  c1 : α
  c2 : α
  deriving DecidableEq, Repr

/-- The item at index `c`. -/
def PerChan.get {α : Type} (v : PerChan α) (c : Chan) : α :=
  match c with
  | 0 => v.c0
  | 1 => v.c1
  | 2 => v.c2

/-- The table with the item at index `c` replaced. -/
def PerChan.set {α : Type} (v : PerChan α) (c : Chan) (x : α) : PerChan α :=
  match c with
  | 0 => { v with c0 := x }
  | 1 => { v with c1 := x }
  | 2 => { v with c2 := x }

/-- The same item at every index. -/
def PerChan.all {α : Type} (x : α) : PerChan α := ⟨x, x, x⟩

/-- A channel count N of one command: 1, 2 or 3 (10_state.md R33, 00_scope.md R10). -/
inductive ChanCount where
  | one
  | two
  | three
  deriving DecidableEq, Repr

/-- The number N. -/
def ChanCount.toNat : ChanCount → Nat
  | .one => 1
  | .two => 2
  | .three => 3

/-- The channel count with number `n`, if `n` is 1, 2 or 3. -/
def ChanCount.ofNat? : Nat → Option ChanCount
  | 1 => some .one
  | 2 => some .two
  | 3 => some .three
  | _ => none

/-- The place of N in a table indexed by channel count. -/
def ChanCount.index : ChanCount → Chan
  | .one => 0
  | .two => 1
  | .three => 2

/-- The channels of a command with count N, in order: 0 .. N-1 (00_scope.md R17). -/
def ChanCount.chans : ChanCount → List Chan
  | .one => [0]
  | .two => [0, 1]
  | .three => [0, 1, 2]

end Sys2Proof
end

