-- ==== Sys2Proof/Config.lean ====
section
/-! DEFINITION. The build configuration of an instance (00_scope.md R10, 10_state.md R41). It is
plain data held in State, so that a claim about every state is a claim about every configuration;
no step changes it (00_scope.md R11). -/
namespace Sys2Proof

/-- ADDR_W, the width of a buffer byte address in bits (00_scope.md R10). -/
def addrWidth : Nat := 16

/-- COUNT_W, the width of the color count in bits (00_scope.md R10). -/
def countWidth : Nat := 16

/-- W_OUT, the width of an output register in bits (00_scope.md R10). -/
def outWidth : Nat := 8

/-- S_MAX, the schedule store size in words (00_scope.md R10). -/
def scheduleMax : Nat := 1024

/-- One timing-table entry in cycles (40_timing_model.md R105). -/
structure Timing where
  t0h : Nat
  t1h : Nat
  tbit : Nat
  treset : Nat
  deriving DecidableEq, Repr

/-- The supported frequency of a table row and its entry: FREQS and TT(f) (40_timing_model.md R105). -/
structure TimingRow where
  freq : Nat
  entry : Timing
  deriving DecidableEq, Repr

/-- The output register and bit position a channel drives (10_state.md R41, CFG_PIN). -/
structure Pin where
  reg : Nat
  bit : Nat
  deriving DecidableEq, Repr

/-- What the interrupt flag becomes at the end of the critical section (00_scope.md R10, IE_EXIT). -/
inductive IeExit where
  | restore
  | enable
  deriving DecidableEq, Repr

/-- The configuration of one instance. -/
structure Config where
  /-- F_CPU in Hz. -/
  fCpu : Nat
  /-- FREQS and TT: the supported frequencies with their entries. -/
  table : List TimingRow
  /-- NREG, the number of output registers. -/
  nReg : Nat
  /-- PIN[c] for channel c. -/
  pin : PerChan Pin
  /-- ORDER[j], the component sent at slot j, 2 bits each. -/
  order : PerChan (BitVec 2)
  /-- HOLD[N], the reset hold in cycles, at the place of N. -/
  hold : PerChan Nat
  /-- SCHED[N], the schedule, at the place of N. -/
  sched : PerChan (List Word)
  /-- T_START, cycles from acceptance to the first bit path. -/
  tStart : Nat
  /-- T_EXIT, cycles from the last bit path to the interrupt restore. -/
  tExit : Nat
  /-- IE_EXIT. -/
  ieExit : IeExit
  deriving DecidableEq, Repr

/-- HOLD[N]. -/
def Config.holdOf (cfg : Config) (n : ChanCount) : Nat := cfg.hold.get n.index

/-- SCHED[N]. -/
def Config.schedOf (cfg : Config) (n : ChanCount) : List Word := cfg.sched.get n.index

end Sys2Proof
end

