-- ==== Sys2Proof/Machine/Instance.lean ====
section
/-! DEFINITION. The spec's one numeric instance, EX20 (40_timing_model.md R114), with its three
schedules as the spec lists them. State.reset carries it (DESIGN CHOICE, log 1). -/
namespace Sys2Proof

/-- REF_1 at EX20 (42_bit_encoder.md R140). -/
def ref1Ex20 : List Word :=
  [0x1000, 0x3000, 0x4010, 0x0005, 0x2000, 0x000E, 0x5000,
   0x000D, 0x2000, 0x0006, 0x5000]

/-- REF_2 at EX20 (43_interleaver.md R159). -/
def ref2Ex20 : List Word :=
  [0x1000, 0x1001, 0x3000, 0x3001, 0x4030, 0x4015] ++
  [0x0002, 0x2000, 0x2001, 0x000D, 0x5000] ++
  [0x0002, 0x2000, 0x0007, 0x2001, 0x0005, 0x5000] ++
  [0x4019, 0x0003, 0x2001, 0x0005, 0x2000, 0x0006, 0x5000] ++
  [0x000A, 0x2000, 0x2001, 0x0005, 0x5000]

/-- REF_3 at EX20 (43_interleaver.md R161). -/
def ref3Ex20 : List Word :=
  [0x1000, 0x1001, 0x1002, 0x3000, 0x3001, 0x3002, 0x406C, 0x4031, 0x4016] ++
  [0x2000, 0x2001, 0x2002, 0x000C, 0x5000] ++
  [0x2000, 0x2001, 0x0007, 0x2002, 0x0004, 0x5000] ++
  [0x401E, 0x2000, 0x0000, 0x2002, 0x0005, 0x2001, 0x0005, 0x5000] ++
  [0x2000, 0x0007, 0x2001, 0x2002, 0x0004, 0x5000] ++
  [0x4041, 0x401E, 0x0000, 0x2001, 0x2002, 0x0004, 0x2000, 0x0006, 0x5000] ++
  [0x0000, 0x2001, 0x0005, 0x2000, 0x0000, 0x2002, 0x0004, 0x5000] ++
  [0x401E, 0x0001, 0x2002, 0x0004, 0x2000, 0x2001, 0x0005, 0x5000] ++
  [0x0007, 0x2000, 0x2001, 0x2002, 0x0004, 0x5000]

/-- The timing entry of EX20 (40_timing_model.md R114). -/
def timingEx20 : Timing := { t0h := 9, t1h := 17, tbit := 25, treset := 1000 }

/-- EX20 with the pins of 95_test_vectors.md section 1 and one output register. -/
def Config.ex20 : Config where
  fCpu := 20000000
  table := [{ freq := 20000000, entry := timingEx20 }]
  nReg := 1
  pin := ⟨⟨0, 0⟩, ⟨0, 1⟩, ⟨0, 2⟩⟩
  order := ⟨0, 1, 2⟩
  hold := ⟨1000, 1000, 1000⟩
  sched := ⟨ref1Ex20, ref2Ex20, ref3Ex20⟩
  tStart := 0
  tExit := 0
  ieExit := .restore

end Sys2Proof
end

