-- ==== Sys2Proof/Machine/State.lean ====
section
/-! DEFINITION. The state of the block as plain data (10_state.md R25 to R44), the reasons a step
can stop, and the state after block reset (R49). -/
namespace Sys2Proof.Machine

/-- The phase of the block (10_state.md R35). -/
inductive Phase where
  /-- No command in progress; TRANSMIT is accepted. -/
  | idle
  /-- Executing bit paths inside the critical section. -/
  | run
  /-- Holding every line low until HOLD_END. -/
  | hold
  /-- A fault was raised; no further step until block reset. -/
  | fault
  deriving DecidableEq, Repr

/-- A fault record (code, info) (10_state.md R42; 60_exceptions.md R198 to R202); its code number is
`FaultRec.code`. The info is recorded whole, an address of OOB_READ at or above 2^16 and a pc above
1023 too, where the table of R202 gives them 16 and 10 bits (DESIGN CHOICE, log 27). -/
inductive FaultRec where
  /-- OOB_READ, code 1: a byte read at an address that is not admitted (R198). -/
  | oobRead (addr : Nat)
  /-- NO_VALUE, code 2: a register that holds no value was read (R199). -/
  | noValue (pc : Nat) (c : Chan)
  /-- PC_RANGE, code 3: a fetch at or past the end of the schedule (R200). -/
  | pcRange (pc : Nat)
  /-- ILLEGAL_OP, code 4: an illegal word, or a channel at or above NCMD (R201). -/
  | illegalOp (pc : Nat) (w : Word)
  deriving DecidableEq, Repr

/-- A refusal code of the spec (60_exceptions.md R197): of a build, or of a command. -/
inductive RefusalCode where
  | buildFreq
  | buildTable
  | buildPin
  | buildOrder
  | buildHold
  | buildSched
  | cmdBusy
  | cmdN
  | cmdOperand
  deriving DecidableEq, Repr

/-- An event of the trace (10_state.md R44). -/
inductive Event where
  /-- Line(t, c, v): channel c's line takes level v from cycle t. -/
  | line (t : Nat) (c : Chan) (v : Bool)
  /-- Ie(t, v): the interrupt flag takes value v at cycle t. -/
  | ie (t : Nat) (v : Bool)
  /-- Read(t, addr, byte): a buffer byte read at cycle t. -/
  | read (t : Nat) (addr : Nat) (b : Byte)
  /-- Done(t): the command completes at cycle t. -/
  | done (t : Nat)
  /-- Fault(t, code, info). -/
  | fault (t : Nat) (f : FaultRec)
  deriving DecidableEq, Repr

/-- Something the host does to the block (44_frame_transmitter.md R184; 70_reset_and_hazards.md
R220). Which of them the host can do in which phase is `HostAction.mayStep`. -/
inductive HostAction where
  /-- The host's program issues TRANSMIT; it waits until the block is IDLE (44 R181). -/
  | transmit (n count : Nat) (bufs : PerChan Nat)
  /-- TRANSMIT issued at once, whatever the phase, by a host that breaks R181 (44 R168). -/
  | transmitAtOnce (n count : Nat) (bufs : PerChan Nat)
  /-- Block reset (70 R220, R221). -/
  | blockReset
  /-- Nothing for up to `n` of the block's own steps, so that what follows, such as a block reset,
  comes part-way through a command (70 R221); over at once in IDLE and FAULT, where the block takes
  no step of its own (log 10). -/
  | letRun (n : Nat)
  /-- Between commands the host sets its interrupt flag (10 R36). -/
  | setIe (v : Bool)
  /-- Between commands the host writes output register r (44 R184). -/
  | writeOut (r : Nat) (v : Byte)
  /-- Between commands the host writes a byte of memory, which admits the address (44 R184). -/
  | writeMem (a : Addr) (b : Byte)
  deriving DecidableEq, Repr

/-- The buffer memory: the admitted addresses with their bytes (20_memory.md R57), strictly rising
in address. An address that is not listed is not admitted. -/
abbrev Memory := List Host.Cell

/-- The state of the block and of the platform state it touches (10_state.md R25). -/
structure State where
  /-- The build configuration, constant (10 R41). -/
  cfg : Config
  /-- `phase` (10 R35). -/
  phase : Phase
  /-- `pc`, the index of the next micro-op (10 R34). -/
  pc : Nat
  /-- `cyc`, the current time in cycles (10 R38). -/
  cyc : Nat
  /-- `sh[c]`, the shift registers; `none` is the spec's "no value" (10 R27, R29). -/
  sh : PerChan (Option Byte)
  /-- `T[c]`, the test bits; `none` is the spec's "no value" (10 R28, R29). -/
  t : PerChan (Option Bool)
  /-- `BITI`, bits of the current byte already sent (10 R30). -/
  biti : BitVec 3
  /-- `SLOT`, the transmission slot of the current color (10 R31). -/
  slot : Fin 3
  /-- `K`, the index of the color being sent (10 R32). -/
  k : BitVec 16
  /-- `NCMD`, the channel count of the command (10 R33). -/
  ncmd : ChanCount
  /-- `COUNT`, the color count of the command (10 R33). -/
  count : BitVec 16
  /-- `BUF[c]`, the byte address of channel c's first color (10 R33). -/
  buf : PerChan Addr
  /-- `IE_SAVED` (10 R37). -/
  ieSaved : Bool
  /-- `HOLD_END` (10 R39). -/
  holdEnd : Nat
  /-- `FLT` (10 R42). -/
  flt : Option FaultRec
  /-- `REFUSED` (10 R43). -/
  refused : Option RefusalCode
  /-- `trace`, oldest event first (10 R44). -/
  trace : List Event
  /-- `OUT[r]`, the output registers (10 R40). -/
  out : List Byte
  /-- `IE`, the host's interrupt flag (10 R36). -/
  ie : Bool
  /-- The buffer memory (20_memory.md R57). -/
  mem : Memory
  /-- What the host does next, first action first: the model's own field (log 10). -/
  host : List HostAction
  deriving DecidableEq, Repr

/-- Why a step stops with a fault of the MODEL. The spec's own faults (60_exceptions.md R196) are
next states, with FLT written and phase FAULT. -/
inductive Fault where
  /-- Raised by `step` in phase FAULT: the block takes no further step until block reset
  (60 R196, R208). Safe: the machine stops as the spec says. -/
  | halted
  /-- Raised by SETH and SETL when `PIN[c]` names no existing output bit; a build with such a pin
  is refused (60 R197 BUILD_PIN). Safe: the model stops where no instance exists. -/
  | noOutputPin (c : Chan)
  /-- Raised by a host write to an output register that does not exist (10 R40). Safe: the model
  stops where the spec gives no register. -/
  | noOutputRegister (r : Nat)
  deriving DecidableEq, Repr

/-- Why a step is refused. The spec's own command refusals (60_exceptions.md R197) are next states
with REFUSED written. -/
inductive Refusal where
  /-- Raised by an arm of `exec` whose instruction has no meaning yet. Safe: nothing is claimed. -/
  | notModelled (mnemonic : String)
  deriving DecidableEq, Repr

/-- The state after block reset over a given configuration and given platform state, which block
reset leaves alone (10_state.md R49; 70_reset_and_hazards.md R220). `NCMD`, `COUNT`, `BUF` and
`IE_SAVED`, which "hold no value" and are written by TRANSMIT before any read, hold the least
legal value (DESIGN CHOICE, log 3). -/
def State.powerOn (cfg : Config) (out : List Byte) (ie : Bool) (mem : Memory)
    (host : List HostAction) : State where
  cfg := cfg
  phase := .idle
  pc := 0
  cyc := 0
  sh := PerChan.all none
  t := PerChan.all none
  biti := 0
  slot := 0
  k := 0
  ncmd := .one
  count := 0
  buf := PerChan.all 0
  ieSaved := false
  holdEnd := 0
  flt := none
  refused := none
  trace := []
  out := out
  ie := ie
  mem := mem
  host := host

/-- The machine right after reset: the instance EX20 (log 1), OUT = [0x00] (log 4), IE = 0
(log 5), no admitted memory (log 14) and no host action (log 10). -/
def State.reset : State := State.powerOn Config.ex20 [0x00] false [] []

end Sys2Proof.Machine
end

