-- ==== Sys2Proof/Machine/Ops.lean ====
section
/-! DEFINITION. The shared operations over state, memory and output registers, and raising a fault
(00_scope.md R15; 20_memory.md R57, R58; 41_line_driver.md R115; 60_exceptions.md R196). -/
namespace Sys2Proof.Machine

/-- The result of executing an instruction. -/
abbrev Result := Host.Outcome State Fault Refusal

/-! Memory -/

/-- The byte at an admitted address; `none` if the address is not in the domain (20_memory.md R57). -/
def Memory.read : Memory → Nat → Option Byte
  | [], _ => none
  | (a, b) :: rest, x => if x = a then some b else Memory.read rest x

/-- The memory with the byte at `x` set and `x` admitted; the cells stay strictly rising. -/
def Memory.write : Memory → Nat → Byte → Memory
  | [], x, v => [(x, v)]
  | (a, b) :: rest, x, v =>
    if x < a then (x, v) :: (a, b) :: rest
    else if x = a then (a, v) :: rest
    else (a, b) :: Memory.write rest x v

/-- The cells are strictly rising from `lo` on, and below 2^ADDR_W. -/
def Memory.risingFrom : Nat → Memory → Bool
  | _, [] => true
  | lo, (a, _) :: rest =>
    decide (lo ≤ a) && decide (a < 2 ^ addrWidth) && Memory.risingFrom (a + 1) rest

/-- The canonical form: addresses strictly rising and below 2^ADDR_W. No entry can equal what an
unlisted address reads as, since that is no byte. -/
def Memory.wf (m : Memory) : Bool := Memory.risingFrom 0 m

/-! State -/

/-- Append an event to the trace: `emit(e)` (00_scope.md R15). -/
def State.emit (s : State) (e : Event) : State := { s with trace := s.trace ++ [e] }

/-- What a micro-op does to `cyc` and `pc`: `cyc <- cyc + k`, `pc <- target` (00_scope.md R14). -/
def State.advance (s : State) (k target : Nat) : State :=
  { s with cyc := s.cyc + k, pc := target }

/-- The schedule being run: `SCHED[NCMD]` (42_bit_encoder.md R126). -/
def State.schedule (s : State) : List Word := s.cfg.schedOf s.ncmd

/-- The level of channel c's line: `OUT[REG[c]][BIT[c]]` (10_state.md R40). -/
def State.line? (s : State) (c : Chan) : Option Bool :=
  (s.out[(s.cfg.pin.get c).reg]?).map fun r => r.getLsbD (s.cfg.pin.get c).bit

/-! Fault codes -/

/-- The number of a fault's code (60_exceptions.md R202). -/
def FaultRec.code : FaultRec → Nat
  | .oobRead _ => 1
  | .noValue _ _ => 2
  | .pcRange _ => 3
  | .illegalOp _ _ => 4

/-! The interrupt flag at the end of the critical section -/

/-- The value `IE` takes at the end of the critical section (44_frame_transmitter.md R177, R190). -/
def State.exitFlag (s : State) : Bool :=
  match s.cfg.ieExit with
  | .restore => s.ieSaved
  | .enable => true

/-- Release the critical section: set `IE` by `IE_EXIT` and emit `Ie(cyc, IE)`
(44_frame_transmitter.md R177; 60_exceptions.md R196). -/
def State.releaseInterrupts (s : State) : State :=
  { s with ie := s.exitFlag }.emit (.ie s.cyc s.exitFlag)

/-! Faults and refusals -/

/-- `raise Fault(code, info)` (60_exceptions.md R196). -/
def State.raise (s : State) (f : FaultRec) : State :=
  { ({ s with flt := some f }.emit (.fault s.cyc f)).releaseInterrupts with phase := .fault }

/-- `refuse(code)` of a command: only REFUSED is written (60_exceptions.md R197). -/
def State.refuse (s : State) (r : RefusalCode) : State := { s with refused := some r }

/-! Buffer reads -/

/-- `MemRead(addr, 1)` (20_memory.md R58): the state with the `Read` event and the byte, or the
state in which OOB_READ was raised. -/
def memRead (s : State) (addr : Nat) : Except State (State × Byte) :=
  if addr < 2 ^ addrWidth then
    match s.mem.read addr with
    | some b => .ok (s.emit (.read s.cyc addr b), b)
    | none => .error (s.raise (.oobRead addr))
  else .error (s.raise (.oobRead addr))

/-- The address of the byte that channel c sends next: `BUF[c] + 3*K + ORDER[SLOT]`
(20_memory.md R56; 42_bit_encoder.md R131). -/
def State.byteAddr (s : State) (c : Chan) : Nat :=
  (s.buf.get c).toNat + 3 * s.k.toNat + (s.cfg.order.get s.slot).toNat

/-- Load the next byte of each listed channel in order, all at the current cycle
(42_bit_encoder.md R131; 44_frame_transmitter.md R167). A fault stops the loads; the loads made
before it stay (60_exceptions.md R196, R203). -/
def loadBytes : List Chan → State → Except State State
  | [], s => .ok s
  | c :: rest, s =>
    match memRead s (s.byteAddr c) with
    | .error s' => .error s'
    | .ok (s', b) => loadBytes rest { s' with sh := s'.sh.set c (some b) }

/-! Output registers -/

/-- A register with bit `b` set to `v` and every other bit unchanged. -/
def setBit (r : Byte) (b : Nat) (v : Bool) : Byte :=
  if v then r ||| (1#8 <<< b) else r &&& ~~~(1#8 <<< b)

/-- `OutWrite(r, b, v, t)` on the registers (41_line_driver.md R115); `none` if there is no such
output bit. -/
def outWrite (out : List Byte) (r b : Nat) (v : Bool) : Option (List Byte) :=
  match out[r]? with
  | none => none
  | some x => if b < outWidth then some (out.set r (setBit x b v)) else none

/-- `OutWrite(REG[c], BIT[c], v, t)` for a channel, with its `Line(t, c, v)` event
(41_line_driver.md R115). -/
def lineWrite (s : State) (c : Chan) (v : Bool) (t : Nat) : Option State :=
  match outWrite s.out (s.cfg.pin.get c).reg (s.cfg.pin.get c).bit v with
  | none => none
  | some out => some ({ s with out := out }.emit (.line t c v))

/-! Block reset and the host's writes -/

/-- Block reset: every component of the block's state to its reset value; the output registers,
`IE`, the memory, the configuration and the host are left alone (70_reset_and_hazards.md R220, R221). -/
def blockReset (s : State) : State := State.powerOn s.cfg s.out s.ie s.mem s.host

/-- The host writes a whole output register between commands (44_frame_transmitter.md R184). -/
def hostWriteOut (s : State) (r : Nat) (v : Byte) : Result :=
  if r < s.out.length then .next { s with out := s.out.set r v } else .fault (.noOutputRegister r)

/-- The host writes a byte of memory between commands (44_frame_transmitter.md R184). -/
def hostWriteMem (s : State) (a : Addr) (b : Byte) : Result :=
  .next { s with mem := s.mem.write a.toNat b }

end Sys2Proof.Machine
end

