-- ==== Sys2Proof/Machine/Flags.lean ====
section
/-! DEFINITION. The flags: the test bits `T[c]`, written only by ROT (10_state.md R28, R47), the
counters BITI, SLOT and K that END advances (42_bit_encoder.md R131), and the interrupt flag. -/
namespace Sys2Proof.Machine

/-- The bit ROT moves into `T[c]`: bit 7 of the shift register (42_bit_encoder.md R128). -/
def testBit (x : Byte) : Bool := x.getLsbD 7

/-- The shift register after ROT: `x[6:0] ++ 0` (42_bit_encoder.md R128). -/
def shiftOut (x : Byte) : Byte := x <<< 1

/-- `BITI = 8` after the increment: the byte is complete (42_bit_encoder.md R131). -/
def lastBit (biti : BitVec 3) : Bool := decide (biti.toNat + 1 = 8)

/-- SLOT and K after a completed byte: SLOT + 1, or slot 0 of color K + 1 (42_bit_encoder.md R131). -/
def nextSlot (slot : Fin 3) (k : BitVec 16) : Fin 3 × BitVec 16 :=
  match slot with
  | 0 => (1, k)
  | 1 => (2, k)
  | 2 => (0, k + 1)

/-- The state after the counters of a completed byte have moved: `BITI <- 0`, then SLOT and K. -/
def State.closeByte (s : State) : State :=
  { s with biti := 0, slot := (nextSlot s.slot s.k).1, k := (nextSlot s.slot s.k).2 }

/-- Enter the critical section: `IE_SAVED <- IE`, `IE <- 0`, `Ie(cyc, 0)`
(44_frame_transmitter.md R167, R169). -/
def State.maskInterrupts (s : State) : State :=
  { s with ieSaved := s.ie, ie := false }.emit (.ie s.cyc false)

end Sys2Proof.Machine
end

