-- ==== Sys2Proof/Syntax.lean ====
section
/-! DEFINITION. The instruction set: the six micro-ops of the sequencer and the host command
TRANSMIT, one constructor for each row of spec/opcode_table.json (30_encoding.md R87, R94). -/
namespace Sys2Proof

/-- An instruction of the block. -/
inductive Instr where
  /-- NOP n: pad n cycles (42_bit_encoder.md R127). -/
  | nop (n : Nat)
  /-- SETH c: drive channel c's line high (41_line_driver.md R116). -/
  | seth (c : Chan)
  /-- SETL c: drive channel c's line low (41_line_driver.md R117). -/
  | setl (c : Chan)
  /-- ROT c: move channel c's next bit into its test bit (42_bit_encoder.md R128). -/
  | rot (c : Chan)
  /-- BT c, off: branch forward if channel c's test bit is 1 (42_bit_encoder.md R129). -/
  | bt (c : Chan) (off : Nat)
  /-- END: close the bit path (42_bit_encoder.md R131). -/
  | endPath
  /-- TRANSMIT(n, count, bufs): the host command (44_frame_transmitter.md R167). Only the first
  `n` entries of `bufs` are operands. -/
  | transmit (n count : Nat) (bufs : PerChan Nat)
  deriving DecidableEq, Repr

/-- The channel a micro-op names, if it names one (`channel(op)` of 42_bit_encoder.md R126). -/
def Instr.channel? : Instr → Option Chan
  | .nop _ => none
  | .seth c => some c
  | .setl c => some c
  | .rot c => some c
  | .bt c _ => some c
  | .endPath => none
  | .transmit _ _ _ => none

/-- Whether the instruction is a micro-op, that is, has a word encoding (30_encoding.md R94). -/
def Instr.isMicroOp : Instr → Bool
  | .nop _ => true
  | .seth _ => true
  | .setl _ => true
  | .rot _ => true
  | .bt _ _ => true
  | .endPath => true
  | .transmit _ _ _ => false

end Sys2Proof
end

