-- ==== Sys2Proof/WellFormed.lean ====
section
/-! DEFINITION. Which instructions are well formed: every operand in the range the spec gives it.
The smoke tests with an ill-formed term for each check stand in Sys2Proof/Tests/Slice0.lean. -/
namespace Sys2Proof

/-- A NOP count is in 1..4096 (30_encoding.md R84). -/
def nopCountOk (n : Nat) : Bool := decide (1 ≤ n) && decide (n ≤ 4096)

/-- A BT offset is in 0..1023 (30_encoding.md R86). -/
def branchOffsetOk (off : Nat) : Bool := decide (off ≤ 1023)

/-- A channel count is 1, 2 or 3 (44_frame_transmitter.md R167, refusal CMD_N). -/
def channelCountOk (n : Nat) : Bool := (ChanCount.ofNat? n).isSome

/-- A color count fits COUNT_W = 16 bits (44_frame_transmitter.md R167, refusal CMD_OPERAND). -/
def colorCountOk (count : Nat) : Bool := decide (count < 2 ^ 16)

/-- The first `n` buffer addresses fit ADDR_W = 16 bits (44_frame_transmitter.md R167, refusal
CMD_OPERAND). -/
def buffersOk (n : Nat) (bufs : PerChan Nat) : Bool :=
  (decide (n ≤ 0) || decide (bufs.c0 < 2 ^ 16)) &&
  (decide (n ≤ 1) || decide (bufs.c1 < 2 ^ 16)) &&
  (decide (n ≤ 2) || decide (bufs.c2 < 2 ^ 16))

/-- Every operand is in its range. A channel operand is 0, 1 or 2 by its type. -/
def Instr.wellFormed : Instr → Bool
  | .nop n => nopCountOk n
  | .seth _ => true
  | .setl _ => true
  | .rot _ => true
  | .bt _ off => branchOffsetOk off
  | .endPath => true
  | .transmit n count bufs => channelCountOk n && colorCountOk count && buffersOk n bufs

end Sys2Proof
end

