-- ==== Sys2Proof/Decode.lean ====
section
/-! DEFINITION. The decoder of 16-bit schedule words, total and refusing by `none`
(30_encoding.md R83 to R91), and after it the encoder, its inverse on legal words. -/
namespace Sys2Proof

/-- `w[hi:lo]` as an unsigned number (00_scope.md R13). -/
def field (w : Word) (hi lo : Nat) : Nat := w.toNat / 2 ^ lo % 2 ^ (hi - lo + 1)

/-- The channel field CH = w[1:0]; the value 3 is reserved (30_encoding.md R85). -/
def decodeChan (w : Word) : Option Chan :=
  if h : field w 1 0 < 3 then some ⟨field w 1 0, h⟩ else none

/-- Format C: the bits 11..2 must be zero (30_encoding.md R83, R88). -/
def decodeFormatC (mk : Chan → Instr) (w : Word) : Option Instr :=
  if field w 11 2 = 0 then (decodeChan w).map mk else none

/-- The decoder (30_encoding.md R91); `none` is Illegal. -/
def decode (w : Word) : Option Instr :=
  match field w 15 12 with
  | 0 => some (.nop (field w 11 0 + 1))
  | 1 => decodeFormatC .seth w
  | 2 => decodeFormatC .setl w
  | 3 => decodeFormatC .rot w
  | 4 => (decodeChan w).map fun c => .bt c (field w 11 2)
  | 5 => if field w 11 0 = 0 then some .endPath else none
  | _ => none

/-- A word of the given opcode and low twelve bits (30_encoding.md R83). -/
def formatWord (opc low : Nat) : Word := BitVec.ofNat 16 (opc * 2 ^ 12 + low)

/-- The word of `NOP n`: 0x0000 | (n - 1) (30_encoding.md R91). -/
def wordNop (n : Nat) : Word := formatWord 0 (n - 1)

/-- The word of `SETH c`: 0x1000 | c. -/
def wordSeth (c : Chan) : Word := formatWord 1 c.val

/-- The word of `SETL c`: 0x2000 | c. -/
def wordSetl (c : Chan) : Word := formatWord 2 c.val

/-- The word of `ROT c`: 0x3000 | c. -/
def wordRot (c : Chan) : Word := formatWord 3 c.val

/-- The word of `BT c, off`: 0x4000 | (off << 2) | c. -/
def wordBt (c : Chan) (off : Nat) : Word := formatWord 4 (off * 2 ^ 2 + c.val)

/-- The word of `END`: 0x5000. -/
def wordEnd : Word := formatWord 5 0

/-- The words of an instruction: one for a micro-op, none for TRANSMIT, which is not encoded
(30_encoding.md R90, R91, R94). -/
def encode : Instr → List Word
  | .nop n => [wordNop n]
  | .seth c => [wordSeth c]
  | .setl c => [wordSetl c]
  | .rot c => [wordRot c]
  | .bt c off => [wordBt c off]
  | .endPath => [wordEnd]
  | .transmit _ _ _ => []

/-- The instruction the decoder reads from an instruction word whose bits are `w`, numbered as
spec/opcode_table.json numbers them. Every instruction that has an encoding is one 16-bit word
(30_encoding.md R90); bits at or above `nbits` are 0. -/
def decodeTableWord (nbits w : Nat) : Option Instr :=
  if 0 < nbits ∧ nbits ≤ 16 then decode (BitVec.ofNat 16 (w % 2 ^ nbits)) else none

end Sys2Proof
end

