-- ==== Sys2Proof/Machine/Operands.lean ====
section
/-! DEFINITION. The operand forms of the micro-ops: the channel operand with its legality check and
the registers that may hold no value, and the operands of TRANSMIT. -/
namespace Sys2Proof.Machine

/-- Run a micro-op that names channel `c` and whose word is `w`: a channel at or above NCMD raises
ILLEGAL_OP (42_bit_encoder.md R126; 60_exceptions.md R201). -/
def withChannel (c : Chan) (w : Word) (s : State) (k : State → Result) : Result :=
  if c.val < s.ncmd.toNat then k s else .next (s.raise (.illegalOp s.pc w))

/-- Read a register of channel `c` that may hold no value: NO_VALUE is raised if it holds none
(10_state.md R29; 60_exceptions.md R199). -/
def withValue {α : Type} (c : Chan) (r : Option α) (s : State) (k : α → Result) : Result :=
  match r with
  | none => .next (s.raise (.noValue s.pc c))
  | some x => k x

/-- The target of a taken BT at index `p`: `p + 1 + off` (30_encoding.md R86). -/
def branchTarget (p off : Nat) : Nat := p + 1 + off

/-- Whether the count and the first `n` addresses of a TRANSMIT fit their widths
(44_frame_transmitter.md R167, CMD_OPERAND). -/
def operandsFit (n : ChanCount) (count : Nat) (bufs : PerChan Nat) : Bool :=
  decide (count < 2 ^ countWidth) && n.chans.all fun c => decide (bufs.get c < 2 ^ addrWidth)

/-- The buffer latches after `BUF[c] <- bufs[c]` for the listed channels
(44_frame_transmitter.md R167). -/
def latchBuffers (buf : PerChan Addr) (bufs : PerChan Nat) : List Chan → PerChan Addr
  | [] => buf
  | c :: rest => latchBuffers (buf.set c (BitVec.ofNat addrWidth (bufs.get c))) bufs rest

end Sys2Proof.Machine
end

