-- ==== Sys2Proof/Machine/BitEncoder.lean ====
section
/-! DEFINITION. The micro-ops of the bit encoder: NOP, ROT and BT (42_bit_encoder.md R127 to R129). -/
namespace Sys2Proof.Machine

/-- NOP n (42_bit_encoder.md R127). -/
def execNop (n : Nat) (s : State) : Result := .next (s.advance n (s.pc + 1))

/-- ROT c on a shift register that holds `x` (42_bit_encoder.md R128). -/
def rotate (c : Chan) (x : Byte) (s : State) : State :=
  { s with t := s.t.set c (some (testBit x)), sh := s.sh.set c (some (shiftOut x)) }.advance 1
    (s.pc + 1)

/-- ROT c (42_bit_encoder.md R128). -/
def execRot (c : Chan) (s : State) : Result :=
  withChannel c (wordRot c) s fun s =>
    withValue c (s.sh.get c) s fun x => .next (rotate c x s)

/-- BT c, off (42_bit_encoder.md R129). -/
def execBt (c : Chan) (off : Nat) (s : State) : Result :=
  withChannel c (wordBt c off) s fun s =>
    withValue c (s.t.get c) s fun t =>
      .next (s.advance 1 (if t then branchTarget s.pc off else s.pc + 1))

end Sys2Proof.Machine
end

