-- ==== Sys2Proof/Machine/FrameTransmitter.lean ====
section
/-! DEFINITION. The frame transmitter: END, the frame exit, the reset hold and the host command
TRANSMIT (42_bit_encoder.md R131; 44_frame_transmitter.md R167 to R180). -/
namespace Sys2Proof.Machine

/-- `FrameExit()` (44_frame_transmitter.md R177). -/
def frameExit (s : State) : State :=
  let s := { s with cyc := s.cyc + s.cfg.tExit }.releaseInterrupts
  { s with holdEnd := s.cyc + s.cfg.holdOf s.ncmd, phase := .hold }

/-- The one step of phase HOLD (44_frame_transmitter.md R179). -/
def holdDone (s : State) : State :=
  { { s with cyc := s.holdEnd }.emit (.done s.holdEnd) with phase := .idle }

/-- END at a byte boundary, the counters already moved: the frame ends when K = COUNT, else the next
byte of every channel is loaded and the next path starts (42_bit_encoder.md R131). -/
def nextByte (s : State) : State :=
  if s.k = s.count then frameExit s
  else match loadBytes s.ncmd.chans s with
    | .error s' => s'
    | .ok s' => { s' with pc := 0 }

/-- END (42_bit_encoder.md R131). -/
def execEndPath (s : State) : Result :=
  if lastBit s.biti then .next (nextByte s.closeByte)
  else .next { s with biti := s.biti + 1, pc := 0 }

/-- The latches and counters of an accepted command, inside the critical section, at `P0`
(44_frame_transmitter.md R167). -/
def acceptCommand (n : ChanCount) (count : Nat) (bufs : PerChan Nat) (s : State) : State :=
  let s := { s with
    ncmd := n, count := BitVec.ofNat countWidth count, buf := latchBuffers s.buf bufs n.chans }
  let s := s.maskInterrupts
  { s with k := 0, slot := 0, biti := 0, pc := 0, cyc := s.cyc + s.cfg.tStart }

/-- The start of an accepted frame: the empty frame leaves at once (44_frame_transmitter.md R180);
else the first bytes are loaded and phase RUN begins (R167, R171). -/
def startFrame (s : State) : State :=
  if s.count = 0 then frameExit s
  else match loadBytes s.ncmd.chans s with
    | .error s' => s'
    | .ok s' => { s' with phase := .run }

/-- TRANSMIT(n, count, bufs) (44_frame_transmitter.md R167), its refusals in the order CMD_BUSY,
CMD_N, CMD_OPERAND (R168; 60_exceptions.md R197). -/
def execTransmit (n count : Nat) (bufs : PerChan Nat) (s : State) : Result :=
  if s.phase = .idle then
    match ChanCount.ofNat? n with
    | none => .next (s.refuse .cmdN)
    | some m =>
      if operandsFit m count bufs then .next (startFrame (acceptCommand m count bufs s))
      else .next (s.refuse .cmdOperand)
  else .next (s.refuse .cmdBusy)

end Sys2Proof.Machine
end

