-- ==== Sys2Proof/Machine/LineDriver.lean ====
section
/-! DEFINITION. The line driver's two micro-ops, SETH and SETL (41_line_driver.md R116, R117). -/
namespace Sys2Proof.Machine

/-- Drive channel c's line to `v` from `cyc + 1`, at the cost of one cycle (41_line_driver.md R116,
R117, R118). A pin that does not exist stops the model (log 12). -/
def driveLine (c : Chan) (v : Bool) (s : State) : Result :=
  match lineWrite s c v (s.cyc + 1) with
  | none => .fault (.noOutputPin c)
  | some s' => .next (s'.advance 1 (s.pc + 1))

/-- SETH c (41_line_driver.md R116). -/
def execSeth (c : Chan) (s : State) : Result := withChannel c (wordSeth c) s (driveLine c true)

/-- SETL c (41_line_driver.md R117). -/
def execSetl (c : Chan) (s : State) : Result := withChannel c (wordSetl c) s (driveLine c false)

end Sys2Proof.Machine
end

