-- ==== Sys2Proof/Machine/Dispatch.lean ====
section
/-! DEFINITION. One arm per constructor of Instr. -/
namespace Sys2Proof.Machine

def exec (i : Instr) (s : State) : Host.Outcome State Fault Refusal :=
  match i with
  | .nop n => Sys2Proof.Machine.execNop n s
  | .seth c => Sys2Proof.Machine.execSeth c s
  | .setl c => Sys2Proof.Machine.execSetl c s
  | .rot c => Sys2Proof.Machine.execRot c s
  | .bt c off => Sys2Proof.Machine.execBt c off s
  | .endPath => Sys2Proof.Machine.execEndPath s
  | .transmit n count bufs => Sys2Proof.Machine.execTransmit n count bufs s

end Sys2Proof.Machine
end

