-- ==== Sys2Proof/Machine/Sequencer.lean ====
section
/-! DEFINITION. Fetch and decode, the step of each phase, and the host's actions
(42_bit_encoder.md R126; 44_frame_transmitter.md R179, R181; 70_reset_and_hazards.md R220). -/
namespace Sys2Proof.Machine

/-- What a fetch finds at `pc` (42_bit_encoder.md R126). -/
inductive Fetched where
  /-- `pc >= length(s)`. -/
  | outOfRange
  /-- A word that does not decode. -/
  | illegal (w : Word)
  /-- A micro-op. -/
  | op (i : Instr)
  deriving DecidableEq, Repr

/-- Fetch and decode the word at `pc` (42_bit_encoder.md R126; 30_encoding.md R91). -/
def fetch (s : State) : Fetched :=
  match s.schedule[s.pc]? with
  | none => .outOfRange
  | some w =>
    match decode w with
    | none => .illegal w
    | some i => .op i

/-- `step_RUN` (42_bit_encoder.md R126): PC_RANGE, then ILLEGAL_OP of the word, then the micro-op,
which checks its channel first (60_exceptions.md R203). -/
def runStep (s : State) : Result :=
  match fetch s with
  | .outOfRange => .next (s.raise (.pcRange s.pc))
  | .illegal w => .next (s.raise (.illegalOp s.pc w))
  | .op i => exec i s

/-- The block's own step in each phase. In IDLE it waits and nothing changes (log 9); in FAULT it
takes no further step (60_exceptions.md R196). -/
def blockStep (s : State) : Result :=
  match s.phase with
  | .idle => .next s
  | .run => runStep s
  | .hold => .next (holdDone s)
  | .fault => .fault .halted

/-- Whether the host can do this in the given phase: block reset and a TRANSMIT that breaks the
blocking rule come at any time, `letRun` is over when its steps are or the block takes none, and
everything else waits for IDLE (44_frame_transmitter.md R181, R184; 70_reset_and_hazards.md R221;
log 10). -/
def HostAction.mayStep : HostAction → Phase → Bool
  | .transmit _ _ _, p => decide (p = .idle)
  | .transmitAtOnce _ _ _, _ => true
  | .blockReset, _ => true
  | .letRun n, p => decide (n = 0) || decide (p = .idle) || decide (p = .fault)
  | .setIe _, p => decide (p = .idle)
  | .writeOut _ _, p => decide (p = .idle)
  | .writeMem _ _, p => decide (p = .idle)

/-- What is left of a waiting host action after one step of the block: `letRun` counts down. -/
def HostAction.tick : HostAction → HostAction
  | .letRun n => .letRun (n - 1)
  | .transmit n count bufs => .transmit n count bufs
  | .transmitAtOnce n count bufs => .transmitAtOnce n count bufs
  | .blockReset => .blockReset
  | .setIe v => .setIe v
  | .writeOut r v => .writeOut r v
  | .writeMem a b => .writeMem a b

/-- The state the block steps from while the host waits: the host's first action has counted down. -/
def State.tick (s : State) : State :=
  match s.host with
  | [] => s
  | a :: rest => { s with host := a.tick :: rest }

/-- The effect of a host action. -/
def hostStep (a : HostAction) (s : State) : Result :=
  match a with
  | .transmit n count bufs => exec (.transmit n count bufs) s
  | .transmitAtOnce n count bufs => exec (.transmit n count bufs) s
  | .blockReset => .next (blockReset s)
  | .letRun _ => .next s
  | .setIe v => .next { s with ie := v }
  | .writeOut r v => hostWriteOut s r v
  | .writeMem a b => hostWriteMem s a b

/-- The whole step: the host's first action if it can be done now, which takes it off the list;
else the block's own step, while the action waits. -/
def systemStep (s : State) : Result :=
  match s.host with
  | [] => blockStep s
  | a :: rest =>
    if a.mayStep s.phase then hostStep a { s with host := rest } else blockStep s.tick

end Sys2Proof.Machine
end

