-- ==== Sys2Proof/Machine/Step.lean ====
section
/-! DEFINITION. The machine's step, and placing an instruction word where it fetches next. -/
namespace Sys2Proof.Machine

/-- One step of the block and its host: a micro-op, the end of the hold, or a host action. -/
def step (s : State) : Host.Outcome State Fault Refusal := systemStep s

/-- `s` as it stands when a three-channel command is in progress, no host action is pending, and
the schedule is the one word `w` with `pc` at it, so that the next step fetches and runs it. This
stands for a build with that schedule and an accepted TRANSMIT (log 15). -/
def State.withFetchWord (s : State) (nbits w : Nat) : State :=
  { s with
    cfg := { s.cfg with sched := { s.cfg.sched with c2 := [BitVec.ofNat 16 (w % 2 ^ nbits)] } }
    ncmd := .three
    phase := .run
    pc := 0
    host := [] }

end Sys2Proof.Machine
end

