-- ==== Sys2Proof/Machine/Schedule.lean ====
section
/-! DEFINITION. Paths of a schedule and its well-formedness WF, the static cycle accounting
(30_encoding.md R89, R95 to R99). -/
namespace Sys2Proof.Machine

/-- The cycle cost of a micro-op (30_encoding.md R89). TRANSMIT stands in no schedule. -/
def cost : Instr → Nat
  | .nop n => n
  | .seth _ => 1
  | .setl _ => 1
  | .rot _ => 1
  | .bt _ _ => 1
  | .endPath => 0
  | .transmit _ _ _ => 0

/-- A micro-op of a path, with its index in the schedule and its start time (30_encoding.md R95). -/
structure PathOp where
  start : Nat
  index : Nat
  op : Instr
  deriving DecidableEq, Repr

/-- The index after a micro-op at index `p` when the test bits are `tb` (30_encoding.md R95). -/
def pathNext (i : Instr) (p : Nat) (tb : PerChan Bool) : Nat :=
  match i with
  | .bt c off => if tb.get c then p + 1 + off else p + 1
  | _ => p + 1

/-- The test bits after a micro-op: ROT c sets `T[c] <- v[c]` (30_encoding.md R95). -/
def pathTest (i : Instr) (v tb : PerChan Bool) : PerChan Bool :=
  match i with
  | .rot c => tb.set c (v.get c)
  | _ => tb

/-- The rest of a path from index `p` at time `t` with test bits `tb`, of at most `fuel` micro-ops;
`none` if no END is reached or a word is illegal (30_encoding.md R95). -/
def walk (s : List Word) (v : PerChan Bool) : Nat → Nat → Nat → PerChan Bool → Option (List PathOp)
  | 0, _, _, _ => none
  | fuel + 1, p, t, tb =>
    match s[p]? with
    | none => none
    | some w =>
      match decode w with
      | none => none
      | some i =>
        if i = .endPath then some [⟨t, p, i⟩]
        else (walk s v fuel (pathNext i p tb) (t + cost i) (pathTest i v tb)).map (⟨t, p, i⟩ :: ·)

/-- `path(s, N, v)` (30_encoding.md R95). The test bits are 0 before the first ROT (log 18). A path
has at most `s.length` micro-ops, since branches go forward only (R86, R98). -/
def path (s : List Word) (v : PerChan Bool) : Option (List PathOp) :=
  walk s v s.length 0 0 (PerChan.all false)

/-- The bit-value vectors {0,1}^N; entries of channels at or above N are 0. -/
def vectors : ChanCount → List (PerChan Bool)
  | .one => [⟨false, false, false⟩, ⟨true, false, false⟩]
  | .two => [⟨false, false, false⟩, ⟨false, true, false⟩, ⟨true, false, false⟩, ⟨true, true, false⟩]
  | .three =>
    [⟨false, false, false⟩, ⟨false, false, true⟩, ⟨false, true, false⟩, ⟨false, true, true⟩,
     ⟨true, false, false⟩, ⟨true, false, true⟩, ⟨true, true, false⟩, ⟨true, true, true⟩]

/-- The vector of N channels' bits, 0 for the other channels. -/
def maskBits (n : ChanCount) (f : Chan → Bool) : PerChan Bool :=
  match n with
  | .one => ⟨f 0, false, false⟩
  | .two => ⟨f 0, f 1, false⟩
  | .three => ⟨f 0, f 1, f 2⟩

/-- The index of a bit-value vector in the dispatch table: `v[0] + 2*v[1] + 4*v[2]`
(30_encoding.md R99). -/
def tableIndex (v : PerChan Bool) : Nat := v.c0.toNat + 2 * v.c1.toNat + 4 * v.c2.toNat

/-- The bit-value vector with a given index. -/
def tableVector (i : Nat) : PerChan Bool := ⟨i.testBit 0, i.testBit 1, i.testBit 2⟩

/-- The dispatch table of a schedule: the path of each of the 2^N bit-value vectors, at its index
(30_encoding.md R99). -/
def dispatchTable (s : List Word) (n : ChanCount) : List (Option (List PathOp)) :=
  (List.range (2 ^ n.toNat)).map fun i => path s (tableVector i)

/-- The table entry of a bit-value vector; no micro-op if there is none. -/
def dispatch (table : List (Option (List PathOp))) (v : PerChan Bool) : List PathOp :=
  (table[tableIndex v]?.getD none).getD []

/-- The cost of a path (30_encoding.md R96). -/
def pathCost (ops : List PathOp) : Nat := (ops.map fun o => cost o.op).sum

/-- The start time of the first `i` on a path, plus 1: the cycle its line write takes effect. -/
def effectTime (i : Instr) (ops : List PathOp) : Option Nat :=
  (ops.find? fun o => decide (o.op = i)).map fun o => o.start + 1

/-- `rise(c)` (30_encoding.md R96). -/
def rise (c : Chan) (ops : List PathOp) : Option Nat := effectTime (.seth c) ops

/-- `fall(c)` (30_encoding.md R96). -/
def fall (c : Chan) (ops : List PathOp) : Option Nat := effectTime (.setl c) ops

/-- `H(x)`: the high time of a bit (30_encoding.md R82). -/
def highTime (tt : Timing) (x : Bool) : Nat := if x then tt.t1h else tt.t0h

/-- How often a micro-op stands on a path. -/
def occurrences (i : Instr) (ops : List PathOp) : Nat :=
  (ops.filter fun o => decide (o.op = i)).length

/-- The micro-ops of a path before the first `i`. -/
def before (i : Instr) (ops : List PathOp) : List PathOp :=
  ops.takeWhile fun o => decide (o.op ≠ i)

/-- Whether a micro-op is a BT of channel `c`. -/
def isBranchOn (c : Chan) (i : Instr) : Bool :=
  match i with
  | .bt d _ => decide (d = c)
  | _ => false

/-- Whether a word decodes to a micro-op whose channel, if any, is below N (30_encoding.md R97 W2). -/
def wordLegal (n : ChanCount) (w : Word) : Bool :=
  match decode w with
  | none => false
  | some i =>
    match i.channel? with
    | none => true
    | some c => decide (c.val < n.toNat)

/-- Whether a word at index `p` that is a BT has its target inside the schedule (W3). -/
def branchInside (len p : Nat) (w : Word) : Bool :=
  match decode w with
  | some (.bt _ off) => decide (p + 1 + off < len)
  | _ => true

/-- A condition on every path of a schedule that exists. -/
def onPaths (s : List Word) (n : ChanCount) (f : PerChan Bool → List PathOp → Bool) : Bool :=
  (vectors n).all fun v =>
    match path s v with
    | none => true
    | some ops => f v ops

/-- W1. -/
def wf1 (s : List Word) : Bool := decide (1 ≤ s.length) && decide (s.length ≤ scheduleMax)

/-- W2. -/
def wf2 (s : List Word) (n : ChanCount) : Bool := s.all (wordLegal n)

/-- W3. -/
def wf3 (s : List Word) : Bool := s.zipIdx.all fun (w, p) => branchInside s.length p w

/-- W4. -/
def wf4 (s : List Word) (n : ChanCount) : Bool := (vectors n).all fun v => (path s v).isSome

/-- W5 for one channel of one path. -/
def wf5Chan (c : Chan) (ops : List PathOp) : Bool :=
  decide (occurrences (.rot c) ops = 1) &&
  (before (.rot c) ops).all (fun o => !isBranchOn c o.op) &&
  decide (occurrences (.seth c) ops = 1) &&
  decide (occurrences (.setl c) ops = 1) &&
  (before (.setl c) ops).any (fun o => decide (o.op = .seth c))

/-- W5. -/
def wf5 (s : List Word) (n : ChanCount) : Bool :=
  onPaths s n fun _ ops => n.chans.all fun c => wf5Chan c ops

/-- W6. -/
def wf6 (s : List Word) (n : ChanCount) (tt : Timing) : Bool :=
  onPaths s n fun _ ops => decide (pathCost ops = tt.tbit)

/-- W7 for one channel of one path. -/
def wf7Chan (tt : Timing) (v : PerChan Bool) (c : Chan) (ops : List PathOp) : Bool :=
  match rise c ops, fall c ops with
  | some r, some f => decide (f = r + highTime tt (v.get c))
  | _, _ => false

/-- W7. -/
def wf7 (s : List Word) (n : ChanCount) (tt : Timing) : Bool :=
  onPaths s n fun v ops => n.chans.all fun c => wf7Chan tt v c ops

/-- `phi(c)`: the rise of channel c on the path of the all-zero vector, equal on every path by W8
(30_encoding.md R97 W8; 43_interleaver.md R149). -/
def phase? (s : List Word) (c : Chan) : Option Nat :=
  (path s (PerChan.all false)).bind (rise c)

/-- W8. -/
def wf8 (s : List Word) (n : ChanCount) : Bool :=
  onPaths s n fun _ ops => n.chans.all fun c => decide (rise c ops = phase? s c)

/-- The conditions of WF in order (30_encoding.md R97). -/
def wfConditions (s : List Word) (n : ChanCount) (tt : Timing) : List Bool :=
  [wf1 s, wf2 s n, wf3 s, wf4 s n, wf5 s n, wf6 s n tt, wf7 s n tt, wf8 s n]

/-- WF(s, N) (30_encoding.md R97). -/
def scheduleWf (s : List Word) (n : ChanCount) (tt : Timing) : Bool :=
  (wfConditions s n tt).all id

/-- The number of the first condition of WF that fails, 1 to 8, if one does. -/
def firstFailure (s : List Word) (n : ChanCount) (tt : Timing) : Option Nat :=
  ((wfConditions s n tt).findIdx? (· = false)).map (· + 1)

end Sys2Proof.Machine
end

