-- ==== Sys2Proof/Machine/Reference.lean ====
section
/-! DEFINITION. The pseudo-instructions and the reference schedules REF_N
(30_encoding.md R93; 43_interleaver.md R156). -/
namespace Sys2Proof.Machine

/-- `PAD n`: nothing for n = 0, else floor((n-1)/4096) words `NOP 4096` and one `NOP` of the rest
(30_encoding.md R93, for n >= 0; a negative pad of REF is read as 0, log 28). -/
def pad (n : Nat) : List Instr :=
  if n = 0 then []
  else List.replicate ((n - 1) / 4096) (.nop 4096) ++ [.nop (n - 4096 * ((n - 1) / 4096))]

/-- `SETHALL N` (30_encoding.md R93). -/
def setHAll (n : ChanCount) : List Instr := n.chans.map .seth

/-- `ROTALL N` (30_encoding.md R93). -/
def rotAll (n : ChanCount) : List Instr := n.chans.map .rot

/-- A channel with the path time at which its line must fall. -/
structure Drop where
  time : Nat
  chan : Chan
  deriving DecidableEq, Repr

/-- Insert into a list that rises in time, before an entry of the same time, so that drops of one
time keep the order of their channels. R156 leaves that order open; no two times are equal where the
bounds of R157 hold (DESIGN CHOICE, log 28). -/
def insertDrop (d : Drop) : List Drop → List Drop
  | [] => [d]
  | e :: rest => if d.time ≤ e.time then d :: e :: rest else e :: insertDrop d rest

/-- The list sorted by time. -/
def sortDrops : List Drop → List Drop
  | [] => []
  | d :: rest => insertDrop d (sortDrops rest)

/-- The SETLs of a leaf, each padded to its time, from path time `t` on, then the pad to `tbit` and
END (43_interleaver.md R156). Where the bounds of R157 do not hold a pad of R156 can be negative, which
R93 does not give; it is then no word (DESIGN CHOICE, log 28). -/
def leafOps (tt : Timing) : List Drop → Nat → List Instr
  | [], t => pad (tt.tbit - t) ++ [.endPath]
  | d :: rest, t => pad (d.time - 1 - t) ++ [.setl d.chan] ++ leafOps tt rest d.time

/-- `LEAF(v)` (43_interleaver.md R156). -/
def leaf (n : ChanCount) (tt : Timing) (v : PerChan Bool) : List Instr :=
  leafOps tt (sortDrops (n.chans.map fun c => ⟨c.val + 1 + highTime tt (v.get c), c⟩)) (3 * n.toNat)

/-- `TREE(c, v)` over the channels still to test (43_interleaver.md R156). -/
def tree (n : ChanCount) (tt : Timing) : List Chan → PerChan Bool → List Instr
  | [], v => leaf n tt v
  | c :: rest, v =>
    let z := tree n tt rest (v.set c false)
    let o := tree n tt rest (v.set c true)
    .bt c z.length :: (z ++ o)

/-- `REF(N, t0h, t1h, tbit)` as micro-ops (43_interleaver.md R156). -/
def refOps (n : ChanCount) (tt : Timing) : List Instr :=
  setHAll n ++ rotAll n ++ tree n tt n.chans (PerChan.all false)

/-- `REF_N` as schedule words. A branch offset above 1023, where R157 says that `REF_N` is not valid,
has no encoding, and the bits that do not fit its field run into the opcode (DESIGN CHOICE, log 28). -/
def refSchedule (n : ChanCount) (tt : Timing) : List Word := (refOps n tt).flatMap encode

/-- Whether `REF_N` is valid for a timing entry (43_interleaver.md R157): the three bounds, and
sizes that the store and the branch offset can hold. -/
def refValid (n : ChanCount) (tt : Timing) : Bool :=
  decide (3 * n.toNat ≤ tt.t0h) && decide (tt.t0h + n.toNat ≤ tt.t1h) &&
  decide (tt.t1h + n.toNat ≤ tt.tbit) && decide ((refOps n tt).length ≤ scheduleMax) &&
  (refOps n tt).all Instr.wellFormed

end Sys2Proof.Machine
end

