-- ==== Sys2Proof/Machine/Assembler.lean ====
section
/-! DEFINITION. The assembler's text: one micro-op or pseudo-instruction a line, labels, comments
(30_encoding.md R92, R93). Text is a list of characters, so that it can be evaluated. -/
namespace Sys2Proof.Machine

/-- A statement of one line, its branch labels not yet resolved. -/
inductive Statement where
  /-- Micro-ops whose operands are numbers. -/
  | ops (is : List Instr)
  /-- `BT c, label`. -/
  | branch (c : Chan) (label : List Char)
  deriving DecidableEq, Repr

/-- One line: the labels defined at its start, and its statement if it has one. -/
structure Line where
  labels : List (List Char)
  stmt : Option Statement
  deriving DecidableEq, Repr

/-- The characters that separate the parts of a line. -/
def isSeparator (ch : Char) : Bool :=
  decide (ch = ' ') || decide (ch = '\t') || decide (ch = '\r') || decide (ch = ',')

/-- A line without its comment: the text after `;` is dropped (30_encoding.md R92). -/
def stripComment (l : List Char) : List Char := l.takeWhile fun ch => decide (ch ≠ ';')

/-- Split at the characters that satisfy `sep`; empty parts are kept. -/
def splitChars (sep : Char → Bool) : List Char → List (List Char)
  | [] => [[]]
  | ch :: rest =>
    match splitChars sep rest with
    | [] => [[]]
    | w :: ws => if sep ch then [] :: w :: ws else (ch :: w) :: ws

/-- The words of a line. -/
def tokens (l : List Char) : List (List Char) :=
  (splitChars isSeparator (stripComment l)).filter fun w => !w.isEmpty

/-- The value of a digit in a base up to 16. -/
def digitValue (base : Nat) (ch : Char) : Option Nat :=
  let n := ch.toNat
  let d := if 48 ≤ n ∧ n ≤ 57 then some (n - 48)
    else if 97 ≤ n ∧ n ≤ 102 then some (n - 87)
    else if 65 ≤ n ∧ n ≤ 70 then some (n - 55)
    else none
  d.filter fun v => decide (v < base)

/-- The value of digits after an accumulated value. -/
def digitsFrom (base : Nat) : Nat → List Char → Option Nat
  | acc, [] => some acc
  | acc, ch :: rest =>
    match digitValue base ch with
    | none => none
    | some d => digitsFrom base (acc * base + d) rest

/-- A decimal or `0x` number. R92 says so of NOP's count; that every other number of a line is
written so too is the model's choice (DESIGN CHOICE, log 23). -/
def parseNumber : List Char → Option Nat
  | '0' :: 'x' :: ch :: rest => digitsFrom 16 0 (ch :: rest)
  | ch :: rest => digitsFrom 10 0 (ch :: rest)
  | [] => none

/-- A channel 0, 1 or 2, decimal or `0x` (DESIGN CHOICE, log 23). -/
def parseChan (w : List Char) : Option Chan :=
  match parseNumber w with
  | some 0 => some 0
  | some 1 => some 1
  | some 2 => some 2
  | _ => none

/-- A micro-op whose operands must be in range. -/
def legalOp (i : Instr) : Option Statement := if i.wellFormed then some (.ops [i]) else none

/-- A word that can be a label: letters, digits and `_`, no digit first (log 23). -/
def isLabel (w : List Char) : Bool :=
  match w with
  | [] => false
  | ch :: rest =>
    (ch.isAlpha || decide (ch = '_')) && rest.all fun x => x.isAlphanum || decide (x = '_')

/-- `BT c, +off` or `BT c, label` (30_encoding.md R92); `off` is decimal or `0x` (DESIGN CHOICE,
log 23). -/
def parseBranch (cw target : List Char) : Option Statement :=
  match parseChan cw with
  | none => none
  | some c =>
    match target with
    | '+' :: w => (parseNumber w).bind fun off => legalOp (.bt c off)
    | w => if isLabel w then some (.branch c w) else none

/-- The statement of a line's words (30_encoding.md R92, R93); the numbers of PAD, SETHALL and ROTALL
are decimal or `0x` (DESIGN CHOICE, log 23). -/
def parseStatement : List (List Char) → Option Statement
  | [['N', 'O', 'P'], n] => (parseNumber n).bind fun n => legalOp (.nop n)
  | [['S', 'E', 'T', 'H'], c] => (parseChan c).bind fun c => legalOp (.seth c)
  | [['S', 'E', 'T', 'L'], c] => (parseChan c).bind fun c => legalOp (.setl c)
  | [['R', 'O', 'T'], c] => (parseChan c).bind fun c => legalOp (.rot c)
  | [['B', 'T'], c, target] => parseBranch c target
  | [['E', 'N', 'D']] => legalOp .endPath
  | [['P', 'A', 'D'], n] => (parseNumber n).map fun n => .ops (pad n)
  | [['S', 'E', 'T', 'H', 'A', 'L', 'L'], n] =>
    ((parseNumber n).bind ChanCount.ofNat?).map fun n => .ops (setHAll n)
  | [['R', 'O', 'T', 'A', 'L', 'L'], n] =>
    ((parseNumber n).bind ChanCount.ofNat?).map fun n => .ops (rotAll n)
  | _ => none

/-- The words of a line: labels `name:` first, then at most one statement. That a line may hold
several labels, labels alone, or nothing is the model's choice (DESIGN CHOICE, log 23). -/
def parseLine : List (List Char) → Option Line
  | [] => some ⟨[], none⟩
  | w :: ws =>
    if w.getLast? = some ':' then
      if isLabel w.dropLast then
        (parseLine ws).map fun l => { l with labels := w.dropLast :: l.labels }
      else none
    else (parseStatement (w :: ws)).map fun st => ⟨[], some st⟩

/-- Every line, or none if one of them does not parse. -/
def parseLines : List (List Char) → Option (List Line)
  | [] => some []
  | l :: rest =>
    match parseLine (tokens l), parseLines rest with
    | some x, some xs => some (x :: xs)
    | _, _ => none

/-- The number of words a statement takes. -/
def Statement.size : Statement → Nat
  | .ops is => is.length
  | .branch _ _ => 1

/-- The labels with the index of the word that follows each, on its own line or on a later one, the
first word being at `p` (DESIGN CHOICE, log 23). -/
def labelTable : Nat → List Line → List (List Char × Nat)
  | _, [] => []
  | p, l :: rest =>
    l.labels.map (fun w => (w, p)) ++ labelTable (p + (l.stmt.map Statement.size).getD 0) rest

/-- The index of a label, if it is defined exactly once (log 23). -/
def labelIndex (tbl : List (List Char × Nat)) (w : List Char) : Option Nat :=
  match tbl.filter fun e => decide (e.1 = w) with
  | [e] => some e.2
  | _ => none

/-- The micro-ops of a statement at index `p`: the offset of a labelled branch is
`index(label) - (index(BT) + 1)`, which must be in 0..1023 (30_encoding.md R92). -/
def resolve (tbl : List (List Char × Nat)) (p : Nat) : Statement → Option (List Instr)
  | .ops is => some is
  | .branch c w =>
    match labelIndex tbl w with
    | none => none
    | some q => if p + 1 ≤ q ∧ q - (p + 1) ≤ 1023 then some [.bt c (q - (p + 1))] else none

/-- The micro-ops of the lines, the first word being at `p`. -/
def resolveLines (tbl : List (List Char × Nat)) : Nat → List Line → Option (List Instr)
  | _, [] => some []
  | p, l :: rest =>
    match l.stmt with
    | none => resolveLines tbl p rest
    | some st =>
      match resolve tbl p st, resolveLines tbl (p + st.size) rest with
      | some xs, some ys => some (xs ++ ys)
      | _, _ => none

/-- The schedule words of an assembler text (30_encoding.md R92). -/
def assemble (text : List Char) : Option (List Word) :=
  match parseLines (splitChars (fun ch => decide (ch = '\n')) text) with
  | none => none
  | some ls => (resolveLines (labelTable 0 ls) 0 ls).map fun is => is.flatMap encode

end Sys2Proof.Machine
end

