-- ==== Sys2Proof/Machine/Build.lean ====
section
/-! DEFINITION. The build checks and their refusals, and the state of an instance that was built
(60_exceptions.md R197; 10_state.md R41; 40_timing_model.md R106, R108). -/
namespace Sys2Proof.Machine

/-- `TT(f)`: the entry of the first row of frequency `f` (40_timing_model.md R105, log 21). -/
def lookupTiming (f : Nat) : List TimingRow → Option Timing
  | [] => none
  | r :: rest => if r.freq = f then some r.entry else lookupTiming f rest

/-- The selected entry `TT(F_CPU)` (00_scope.md R12). -/
def selectedTiming (cfg : Config) : Option Timing := lookupTiming cfg.fCpu cfg.table

/-- `1 <= t0h < t1h < tbit` and `treset >= 1` (40_timing_model.md R106). -/
def timingOk (tt : Timing) : Bool :=
  decide (1 ≤ tt.t0h) && decide (tt.t0h < tt.t1h) && decide (tt.t1h < tt.tbit) &&
  decide (1 ≤ tt.treset)

/-- Every entry of the timing table satisfies R106, that of another frequency too
(40_timing_model.md R106; 60_exceptions.md R197 BUILD_TABLE; log 21). -/
def tableOk (table : List TimingRow) : Bool := table.all fun r => timingOk r.entry

/-- Registers below NREG, bits 0..7, and no two channels on one output bit (10_state.md R41). -/
def pinsOk (nReg : Nat) (pin : PerChan Pin) : Bool :=
  [pin.c0, pin.c1, pin.c2].all (fun p => decide (p.reg < nReg) && decide (p.bit < outWidth)) &&
  decide (pin.c0 ≠ pin.c1) && decide (pin.c0 ≠ pin.c2) && decide (pin.c1 ≠ pin.c2)

/-- ORDER is a permutation of (0, 1, 2) (10_state.md R41). -/
def orderOk (order : PerChan (BitVec 2)) : Bool :=
  [0, 1, 2].all fun i => decide (i ∈ [order.c0.toNat, order.c1.toNat, order.c2.toNat])

/-- HOLD[N] is at least `treset` for every N (10_state.md R41). -/
def holdsOk (hold : PerChan Nat) (treset : Nat) : Bool :=
  [hold.c0, hold.c1, hold.c2].all fun h => decide (treset ≤ h)

/-- SCHED[N] passes WF for every N in 1..3 (30_encoding.md R98). -/
def schedulesOk (cfg : Config) (tt : Timing) : Bool :=
  [ChanCount.one, .two, .three].all fun n => scheduleWf (cfg.schedOf n) n tt

/-- The refusal of a build, in the order of the table of 60_exceptions.md R197, if it is refused. -/
def buildRefusal (cfg : Config) : Option RefusalCode :=
  match selectedTiming cfg with
  | none => some .buildFreq
  | some tt =>
    if !tableOk cfg.table then some .buildTable
    else if !pinsOk cfg.nReg cfg.pin then some .buildPin
    else if !orderOk cfg.order then some .buildOrder
    else if !holdsOk cfg.hold tt.treset then some .buildHold
    else if !schedulesOk cfg tt then some .buildSched
    else none

/-- Build and block reset: no initial state for a refused build (60_exceptions.md R197;
70_reset_and_hazards.md R223, R224), else the reset state over the platform's registers, which are
`NREG` in number, its interrupt flag and its memory. -/
def boot (cfg : Config) (out : List Byte) (ie : Bool) (mem : Memory) (host : List HostAction) :
    Except RefusalCode State :=
  match buildRefusal cfg with
  | some r => .error r
  | none => .ok (State.powerOn cfg out ie mem host)

end Sys2Proof.Machine
end

