-- ==== Sys2Proof/Machine/Frame.lean ====
section
/-! DEFINITION. What a frame must look like: the bits of a frame, its line events and its reads
(20_memory.md R56, R57, R66; 30_encoding.md R80, R82), and the views of a trace that compare it. -/
namespace Sys2Proof.Machine

/-- The bits of a byte, most significant first (30_encoding.md R76). -/
def byteBits (b : Byte) : List Bool :=
  [b.getLsbD 7, b.getLsbD 6, b.getLsbD 5, b.getLsbD 4,
   b.getLsbD 3, b.getLsbD 2, b.getLsbD 1, b.getLsbD 0]

/-- The component sent at each slot in time order: ORDER[0], ORDER[1], ORDER[2]. -/
def slotOrder (cfg : Config) : List Nat :=
  [cfg.order.c0.toNat, cfg.order.c1.toNat, cfg.order.c2.toNat]

/-- The address of each byte of color `k` of a buffer at `base`, in the order sent
(20_memory.md R56; 30_encoding.md R77). -/
def colorAddrs (cfg : Config) (base k : Nat) : List Nat :=
  (slotOrder cfg).map fun i => base + 3 * k + i

/-- The addresses of a channel's frame in the order read (20_memory.md R66). -/
def frameAddrs (cfg : Config) (base count : Nat) : List Nat :=
  (List.range count).flatMap (colorAddrs cfg base)

/-- A byte at `a` can be read (20_memory.md R57, R58). -/
def admitted (mem : Memory) (a : Nat) : Prop := a < 2 ^ addrWidth ∧ (mem.read a).isSome = true

/-- Every byte of `count` colors from `base` is admitted (20_memory.md R57). -/
def bufferReadable (mem : Memory) (base count : Nat) : Prop :=
  ∀ k, k < count → ∀ i, i < 3 → admitted mem (base + 3 * k + i)

/-- A byte of memory, 0 where none is admitted; used only where `bufferReadable` holds. -/
def byteAt (mem : Memory) (a : Nat) : Byte := (mem.read a).getD 0

/-- `FrameBits(c)` (30_encoding.md R80) for a buffer at `base` and a color count. -/
def frameBits (cfg : Config) (mem : Memory) (base count : Nat) : List Bool :=
  (frameAddrs cfg base count).flatMap fun a => byteBits (byteAt mem a)

/-- The time of an event (10_state.md R44). -/
def Event.time : Event → Nat
  | .line t _ _ => t
  | .ie t _ => t
  | .read t _ _ => t
  | .done t => t
  | .fault t _ => t

/-- The line events of one channel as (time, level), in trace order. -/
def lineEvents (c : Chan) (tr : List Event) : List (Nat × Bool) :=
  tr.filterMap fun
    | .line t d v => if d = c then some (t, v) else none
    | _ => none

/-- The interrupt-flag events as (time, value), in trace order. -/
def ieEvents (tr : List Event) : List (Nat × Bool) :=
  tr.filterMap fun
    | .ie t v => some (t, v)
    | _ => none

/-- The reads as (time, address), in trace order. -/
def readEvents (tr : List Event) : List (Nat × Nat) :=
  tr.filterMap fun
    | .read t a _ => some (t, a)
    | _ => none

/-- The rise and fall of each bit of a channel, the bits starting `tbit` apart from cycle `start` on
(30_encoding.md R82). -/
def bitWaveform (tt : Timing) : Nat → List Bool → List (Nat × Bool)
  | _, [] => []
  | start, x :: rest =>
    (start, true) :: (start + highTime tt x, false) :: bitWaveform tt (start + tt.tbit) rest

/-- The reads of one slot of a color for every channel of a command, in channel order, at one cycle
(20_memory.md R66; 44_frame_transmitter.md R175). -/
def slotReads (n : ChanCount) (bufs : PerChan Nat) (t offset : Nat) : List (Nat × Nat) :=
  n.chans.map fun c => (t, bufs.get c + offset)

/-- All reads of a command: slot j of color k at `P0 + (24k + 8j) * tbit` (44_frame_transmitter.md
R175; 70_reset_and_hazards.md R240). -/
def frameReads (cfg : Config) (n : ChanCount) (bufs : PerChan Nat) (tbit p0 count : Nat) :
    List (Nat × Nat) :=
  (List.range count).flatMap fun k =>
    (List.range 3).flatMap fun j =>
      slotReads n bufs (p0 + (24 * k + 8 * j) * tbit) (3 * k + (slotOrder cfg).getD j 0)

/-- The line event of a micro-op that starts at `start` of a path that starts at cycle `p`. -/
def opEvent (p : Nat) (o : PathOp) : Option Event :=
  match o.op with
  | .seth c => some (.line (p + o.start + 1) c true)
  | .setl c => some (.line (p + o.start + 1) c false)
  | _ => none

/-- The line events of a path that starts at cycle `p`. -/
def pathEvents (p : Nat) (ops : List PathOp) : List Event := ops.filterMap (opEvent p)

/-- The reads of byte number `q` of the channels' frames at cycle `p`, in channel order
(20_memory.md R66). -/
def byteLoads (cfg : Config) (n : ChanCount) (mem : Memory) (bufs : PerChan Nat) (p q : Nat) :
    List Event :=
  n.chans.map fun c =>
    let a := bufs.get c + 3 * (q / 3) + (slotOrder cfg).getD (q % 3) 0
    .read p a (byteAt mem a)

/-- The paths of byte number `q` read off the dispatch table, `bit c i` being bit `i` of channel c's
frame: the table entry of the channels' bits at each of its eight bit positions (30_encoding.md R99). -/
def tablePaths (table : List (Option (List PathOp))) (n : ChanCount) (tbit p0 : Nat)
    (bit : Chan → Nat → Bool) (q : Nat) : List Event :=
  (List.range 8).flatMap fun j =>
    pathEvents (p0 + (8 * q + j) * tbit) (dispatch table (maskBits n fun c => bit c (8 * q + j)))

/-- The events of a frame whose first path starts at `p0`, by the dispatch table: each byte's reads,
then its paths (30_encoding.md R99). -/
def tableFrame (table : List (Option (List PathOp))) (cfg : Config) (n : ChanCount) (mem : Memory)
    (bufs : PerChan Nat) (tbit p0 count : Nat) : List Event :=
  (List.range (3 * count)).flatMap fun q =>
    byteLoads cfg n mem bufs (p0 + 8 * q * tbit) q ++
      tablePaths table n tbit p0
        (fun c i => (frameBits cfg mem (bufs.get c) count).getD i false) q

/-- The cycles at which line writes take effect, in trace order. -/
def lineTimes (tr : List Event) : List Nat :=
  tr.filterMap fun
    | .line t _ _ => some t
    | _ => none

/-- An event moved later by `d` cycles. A fault's record holds no time. -/
def Event.shift (d : Nat) : Event → Event
  | .line t c v => .line (t + d) c v
  | .ie t v => .ie (t + d) v
  | .read t a b => .read (t + d) a b
  | .done t => .done (t + d)
  | .fault t f => .fault (t + d) f

end Sys2Proof.Machine
end

