-- ==== Sys2Proof/Machine/Strip.lean ====
section
/-! DEFINITION. The reference decoder of a channel's line, and the per-bit encoder states as a
function of state (44_frame_transmitter.md R186; 42_bit_encoder.md R132, R137). -/
namespace Sys2Proof.Machine

/-- The bit a high interval of `d` cycles stands for (44_frame_transmitter.md R186). -/
def classify (tt : Timing) (d : Nat) : Option Bool :=
  if d = tt.t0h then some false else if d = tt.t1h then some true else none

/-- The bits of a line's events: `up` is the time of the rise of the high interval in progress,
`low` the time of the last fall. A low interval of at least `treset` ends the frame; a high
interval of another length, or one that never ends, is a decode error (log 25). -/
def decodeLevels (tt : Timing) : List (Nat × Bool) → Option Nat → Option Nat → Option (List Bool)
  | [], none, _ => some []
  | [], some _, _ => none
  | (t, true) :: rest, none, none => decodeLevels tt rest (some t) none
  | (t, true) :: rest, none, some f =>
    if f + tt.treset ≤ t then some [] else decodeLevels tt rest (some t) none
  | (_, true) :: rest, some u, low => decodeLevels tt rest (some u) low
  | (_, false) :: rest, none, low => decodeLevels tt rest none low
  | (t, false) :: rest, some u, _ =>
    match classify tt (t - u) with
    | none => none
    | some x => (decodeLevels tt rest none (some t)).map (x :: ·)

/-- `Decode(c, trace)` (44_frame_transmitter.md R186); `none` is a decode error. -/
def decodeTrace (tt : Timing) (c : Chan) (tr : List Event) : Option (List Bool) :=
  decodeLevels tt (lineEvents c tr) none none

/-- The five states of one bit (42_bit_encoder.md R132). -/
inductive BitState where
  | idle
  | drivingHigh
  | maybeDropEarly
  | drivingLowOrContinuing
  | periodEnd
  deriving DecidableEq, Repr

/-- The state of a bit `d` cycles after its start (42_bit_encoder.md R137). Past its end, which only
an ill-formed schedule reaches and R137 does not name, it is still `periodEnd` (DESIGN CHOICE,
log 26). -/
def bitStateAt (tt : Timing) (d : Nat) : BitState :=
  if d < tt.t0h then .drivingHigh
  else if d = tt.t0h then .maybeDropEarly
  else if d < tt.tbit then .drivingLowOrContinuing
  else .periodEnd

/-- The events of the command in progress: those after the last acceptance, which is the last event
`Ie(t, 0)` while the critical section is open (44_frame_transmitter.md R169). -/
def sinceAcceptance (tr : List Event) : List Event :=
  (tr.reverse.takeWhile fun
    | .ie _ _ => false
    | _ => true).reverse

/-- The start of the current bit of channel c: the cycle its last SETH of this command took effect
(42_bit_encoder.md R133). -/
def bitStart (c : Chan) (tr : List Event) : Option Nat :=
  (((lineEvents c (sinceAcceptance tr)).filter fun e => e.2).getLast?).map fun e => e.1

/-- The encoder state of channel c (42_bit_encoder.md R137): `idle` in IDLE and HOLD and before the
channel's first bit start; also in FAULT, where the command has ended (DESIGN CHOICE, log 26). The
cycle that is `d = tbit` of one bit and `d = 0` of the next has two names in R137, and the model gives
one answer: `drivingHigh` once the next rise is in the trace, `periodEnd` while it is not (DESIGN
CHOICE, log 26). In a built instance the rise is in the trace at that cycle, so `periodEnd` is not
read there. -/
def encoderState (tt : Timing) (s : State) (c : Chan) : BitState :=
  match s.phase with
  | .idle => .idle
  | .hold => .idle
  | .fault => .idle
  | .run =>
    match bitStart c s.trace with
    | none => .idle
    | some b => bitStateAt tt (s.cyc - b)

end Sys2Proof.Machine
end

