-- ==== Sys2Proof/Safety.lean ====
section
/-! DEFINITION. What claims speak of: launch premises, final states, and the invariants of the
machine (20_memory.md R57; 44_frame_transmitter.md R188; 70_reset_and_hazards.md R226). -/
namespace Sys2Proof.Machine

/-- Launch premise: every channel line of the command is low (70_reset_and_hazards.md R226). -/
def linesLow (s : State) (n : ChanCount) : Prop := ∀ c ∈ n.chans, s.line? c = some false

/-- The host's buffer duty: every byte of every channel of the command is admitted
(20_memory.md R57; 44_frame_transmitter.md R166). -/
def buffersReadable (s : State) (n : ChanCount) (count : Nat) (bufs : PerChan Nat) : Prop :=
  ∀ c ∈ n.chans, bufferReadable s.mem (bufs.get c) count

/-- A final state of a run of one command (44_frame_transmitter.md R188): the command has completed
without a fault or a refusal. -/
def isFinal (s : State) : Prop := s.phase = .idle ∧ s.flt = none ∧ s.refused = none

/-- The instance was built: its configuration passes every build check, and the platform has the
NREG output registers of the configuration (60_exceptions.md R197; 10_state.md R40). -/
def Built (s : State) : Prop := buildRefusal s.cfg = none ∧ s.out.length = s.cfg.nReg

/-- A host that keeps its duties issues TRANSMIT(n, count, bufs) to a built instance whose selected
timing entry is `tt` (44_frame_transmitter.md R166, R184; 70_reset_and_hazards.md R224, R226). -/
structure Launch (s : State) (n : ChanCount) (count : Nat) (bufs : PerChan Nat) (tt : Timing) :
    Prop where
  /-- The block is IDLE, with no fault and no refusal. -/
  idle : isFinal s
  /-- The command is what the host does next, and all it does until Done (44 R181). -/
  host : s.host = [.transmit n.toNat count bufs]
  built : Built s
  timing : selectedTiming s.cfg = some tt
  /-- The operands fit their widths. -/
  fit : operandsFit n count bufs = true
  low : linesLow s n
  readable : buffersReadable s n count bufs

/-- The host has nothing it can do now: no action is pending, or the first one waits for IDLE
(44_frame_transmitter.md R181). -/
def hostWaits (s : State) : Bool :=
  match s.host with
  | [] => true
  | a :: _ => !a.mayStep s.phase

/-- `u` is the final state of a run from `s` (44_frame_transmitter.md R188): some number of steps
reaches it, it is final, and the host has nothing left to do. A step in such a state leaves it as it
is, so there is at most one. -/
def Completes (s u : State) : Prop := (∃ k, core.run k s = .next u) ∧ isFinal u ∧ u.host = []

/-- The events of a run from `s` to `u`. -/
def newEvents (s u : State) : List Event := u.trace.drop s.trace.length

/-- The value `IE` takes when a critical section entered with the flag at `ie` ends
(44_frame_transmitter.md R177). -/
def restoredIe (cfg : Config) (ie : Bool) : Bool :=
  match cfg.ieExit with
  | .restore => ie
  | .enable => true

/-- The state with every time in it `d` cycles later. -/
def State.later (s : State) (d : Nat) : State :=
  { s with cyc := s.cyc + d, holdEnd := s.holdEnd + d, trace := s.trace.map (Event.shift d) }

/-- The events rise in time and none is later than `now` (10_state.md R44). -/
def timeOrdered (tr : List Event) (now : Nat) : Prop :=
  (tr.map Event.time).Pairwise (· ≤ ·) ∧ ∀ e ∈ tr, e.time ≤ now

/-- The invariant of every configuration, well formed or not. -/
structure Coherent (s : State) : Prop where
  /-- The buffer memory is in canonical form. -/
  mem : s.mem.wf = true
  /-- FLT is written exactly in phase FAULT (10_state.md R42). -/
  flt : s.phase = .fault ↔ s.flt ≠ none
  /-- Inside the critical section interrupts are masked (44_frame_transmitter.md R169). -/
  ie : s.phase = .run → s.ie = false
  /-- In phase RUN a color is being sent (10_state.md R32). -/
  color : s.phase = .run → s.k.toNat < s.count.toNat
  /-- In phase RUN every channel of the command holds a byte (10_state.md R29). -/
  bytes : s.phase = .run → ∀ c ∈ s.ncmd.chans, s.sh.get c ≠ none
  /-- In phase HOLD the end of the hold is not past (10_state.md R39). -/
  hold : s.phase = .hold → s.cyc ≤ s.holdEnd
  /-- The trace is in order of time and holds no future event (10_state.md R44). -/
  trace : timeOrdered s.trace s.cyc

/-- The sequencer of a built instance is on a path of its schedule (30_encoding.md R95): some
bit-value vector's path splits into the micro-ops done and those to come, the first of which is at
`pc`; a channel already rotated on this path has its path bit in `T[c]`, and the others still have
it at bit 7 of their shift register. -/
def OnPath (s : State) : Prop :=
  ∃ v ∈ vectors s.ncmd, ∃ done rest, path s.schedule v = some (done ++ rest) ∧
    rest.head?.map PathOp.index = some s.pc ∧
    ∀ c ∈ s.ncmd.chans,
      if ∃ o ∈ done, o.op = .rot c then s.t.get c = some (v.get c)
      else ∃ x, s.sh.get c = some x ∧ testBit x = v.get c

/-- The invariant of a built instance: its sequencer is on a path, and the only fault it has raised
is a read of a byte that is not admitted (60_exceptions.md R202). -/
structure Certified (s : State) : Prop where
  coherent : Coherent s
  built : Built s
  path : s.phase = .run → OnPath s
  fault : ∀ f, s.flt = some f → ∃ a, f = .oobRead a

end Sys2Proof.Machine
end

