-- ==== Sys2Proof/Certificates/Slice0/Obligations.lean ====
section
/-! DEFINITION. The statements about the model, each from the numbered rules its docstring names. -/

open Sys2Proof Sys2Proof.Machine

/-! Fetch, decode, encode -/

/-- 42_bit_encoder.md R126, 44_frame_transmitter.md R181: in RUN, with no host action that can be
done, the step is the decoded micro-op; in IDLE the host's TRANSMIT is the step. `tick` is the
model's own (log 10): it counts down a host that lets the block run, and leaves any other state as it
is. -/
def Obligations.StepRunsTheDecodedInstruction : Prop :=
  (∀ (s : State) (w : Word) (i : Instr), s.phase = .run → hostWaits s = true →
    s.schedule[s.pc]? = some w → decode w = some i → step s = exec i s.tick) ∧
  (∀ (s : State) (n count : Nat) (bufs : PerChan Nat) (rest : List HostAction), s.phase = .idle →
    s.host = .transmit n count bufs :: rest →
    step s = exec (.transmit n count bufs) { s with host := rest }) ∧
  (∀ (s : State) (n : Nat) (rest : List HostAction), s.host = .letRun (n + 1) :: rest →
    s.tick = { s with host := .letRun n :: rest }) ∧
  ∀ s : State, (∀ n rest, s.host ≠ .letRun (n + 1) :: rest) → s.tick = s

/-- 30_encoding.md R83, R87, R88: words written out bit by bit, one or more of each format. -/
def Obligations.WordsDecodeAsTheSpecWritesThem : Prop :=
  decode 0b0000000000000101 = some (.nop 6) ∧ decode 0b0000111111111111 = some (.nop 4096) ∧
  decode 0b0001000000000010 = some (.seth 2) ∧ decode 0b0010000000000001 = some (.setl 1) ∧
  decode 0b0011000000000000 = some (.rot 0) ∧ decode 0b0100000000010000 = some (.bt 0 4) ∧
  decode 0b0100111111111110 = some (.bt 2 1023) ∧ decode 0b0101000000000000 = some .endPath ∧
  decode 0b0001000000000011 = none ∧ decode 0b0010000000000100 = none ∧
  decode 0b0101000000000001 = none ∧ decode 0b0110000000000000 = none

/-- 30_encoding.md R91: the decoder case by case on the fields of the word, the encoder's words, and
that the encoder is the decoder's inverse on legal words. -/
def Obligations.DecoderFollowsTheTable : Prop :=
  (∀ w : Word,
    (w.extractLsb' 12 4 = 0 → decode w = some (.nop ((w.extractLsb' 0 12).toNat + 1))) ∧
    (∀ c : Chan, (w.extractLsb' 0 2).toNat = c.val →
      (w.extractLsb' 12 4 = 1 →
        decode w = if w.extractLsb' 2 10 = 0 then some (.seth c) else none) ∧
      (w.extractLsb' 12 4 = 2 →
        decode w = if w.extractLsb' 2 10 = 0 then some (.setl c) else none) ∧
      (w.extractLsb' 12 4 = 3 →
        decode w = if w.extractLsb' 2 10 = 0 then some (.rot c) else none) ∧
      (w.extractLsb' 12 4 = 4 → decode w = some (.bt c (w.extractLsb' 2 10).toNat))) ∧
    (w.extractLsb' 0 2 = 3 → 1 ≤ (w.extractLsb' 12 4).toNat → (w.extractLsb' 12 4).toNat ≤ 4 →
      decode w = none) ∧
    (w.extractLsb' 12 4 = 5 →
      decode w = if w.extractLsb' 0 12 = 0 then some .endPath else none) ∧
    (6 ≤ (w.extractLsb' 12 4).toNat → decode w = none)) ∧
  (∀ n, 1 ≤ n → n ≤ 4096 → encode (.nop n) = [0x0000#16 ||| BitVec.ofNat 16 (n - 1)]) ∧
  (∀ c : Chan, encode (.seth c) = [0x1000#16 ||| BitVec.ofNat 16 c.val] ∧
    encode (.setl c) = [0x2000#16 ||| BitVec.ofNat 16 c.val] ∧
    encode (.rot c) = [0x3000#16 ||| BitVec.ofNat 16 c.val] ∧
    ∀ off, off ≤ 1023 →
      encode (.bt c off) = [0x4000#16 ||| BitVec.ofNat 16 off <<< 2 ||| BitVec.ofNat 16 c.val]) ∧
  encode .endPath = [0x5000#16] ∧
  ∀ (w : Word) (i : Instr), decode w = some i → encode i = [w]

/-- 30_encoding.md R83 to R91, R94: every well-formed micro-op, with every operand at every value the
encoding admits, is one word that decodes to it, and TRANSMIT has no word. -/
def Obligations.DecodingUndoesEncoding : Prop :=
  ∀ i : Instr, i.wellFormed = true →
    (i.isMicroOp = true → ∃ w, encode i = [w] ∧ decode w = some i) ∧
    (i.isMicroOp = false → encode i = [])

/-- 30_encoding.md R88: exactly which words are illegal, that a schedule which holds one fails WF,
that its build is refused (with BUILD_SCHED where no earlier check refuses it), and that a step on
one raises ILLEGAL_OP. -/
def Obligations.IllegalWords : Prop :=
  (∀ w : Word, decode w = none ↔
    6 ≤ (w.extractLsb' 12 4).toNat ∨
    (1 ≤ (w.extractLsb' 12 4).toNat ∧ (w.extractLsb' 12 4).toNat ≤ 4 ∧ w.extractLsb' 0 2 = 3) ∨
    (1 ≤ (w.extractLsb' 12 4).toNat ∧ (w.extractLsb' 12 4).toNat ≤ 3 ∧ w.extractLsb' 2 10 ≠ 0) ∨
    (w.extractLsb' 12 4 = 5 ∧ w.extractLsb' 0 12 ≠ 0)) ∧
  (∀ (s : List Word) (n : ChanCount) (tt : Timing) (w : Word), w ∈ s → decode w = none →
    scheduleWf s n tt = false) ∧
  (∀ (cfg : Config) (n : ChanCount) (w : Word), w ∈ cfg.schedOf n → decode w = none →
    buildRefusal cfg ≠ none ∧
    ∀ tt, selectedTiming cfg = some tt → (∀ row ∈ cfg.table, timingOk row.entry = true) →
      pinsOk cfg.nReg cfg.pin = true → orderOk cfg.order = true → holdsOk cfg.hold tt.treset = true →
      buildRefusal cfg = some .buildSched) ∧
  ∀ (s : State) (w : Word), s.phase = .run → hostWaits s = true → s.schedule[s.pc]? = some w →
    decode w = none → step s = .next (s.tick.raise (.illegalOp s.pc w))

/-- 30_encoding.md R93: what the pseudo-instructions expand to, that a pad costs exactly its cycles,
and that every word they give is legal. -/
def Obligations.PseudoInstructionsExpand : Prop :=
  pad 0 = [] ∧
  (∀ n, 1 ≤ n → pad n =
    List.replicate ((n - 1) / 4096) (.nop 4096) ++ [.nop (n - 4096 * ((n - 1) / 4096))]) ∧
  (∀ n, ((pad n).map cost).sum = n ∧ ∀ i ∈ pad n, i.wellFormed = true) ∧
  setHAll .one = [.seth 0] ∧ setHAll .two = [.seth 0, .seth 1] ∧
  setHAll .three = [.seth 0, .seth 1, .seth 2] ∧
  rotAll .one = [.rot 0] ∧ rotAll .two = [.rot 0, .rot 1] ∧
  rotAll .three = [.rot 0, .rot 1, .rot 2]

/-! The micro-ops -/

/-- 42_bit_encoder.md R127: the word of NOP n, and what NOP n does in every state: nothing but `cyc`
and `pc`. -/
def Obligations.NopCompletes : Prop :=
  (∀ n, 1 ≤ n → n ≤ 4096 → decode (BitVec.ofNat 16 (n - 1)) = some (.nop n)) ∧
  ∀ (n : Nat) (s : State),
    exec (.nop n) s = .next { s with cyc := s.cyc + n, pc := s.pc + 1 }

/-- 41_line_driver.md R116, R117: SETH and SETL of a channel of the command whose pin exists. -/
def Obligations.LineMicroOpsComplete : Prop :=
  ∀ (s : State) (c : Chan) (x : Byte), c.val < s.ncmd.toNat →
    s.out[(s.cfg.pin.get c).reg]? = some x → (s.cfg.pin.get c).bit < 8 →
    exec (.seth c) s = .next { s with
      out := s.out.set (s.cfg.pin.get c).reg (setBit x (s.cfg.pin.get c).bit true)
      trace := s.trace ++ [.line (s.cyc + 1) c true]
      cyc := s.cyc + 1
      pc := s.pc + 1 } ∧
    exec (.setl c) s = .next { s with
      out := s.out.set (s.cfg.pin.get c).reg (setBit x (s.cfg.pin.get c).bit false)
      trace := s.trace ++ [.line (s.cyc + 1) c false]
      cyc := s.cyc + 1
      pc := s.pc + 1 }

/-- 41_line_driver.md R115: an output write sets one bit, leaves every other bit of every register,
and records the line's level and the cycle it holds from. -/
def Obligations.OutputWriteSetsOneBit : Prop :=
  (∀ (out : List Byte) (r b : Nat) (v : Bool), r < out.length → b < 8 →
    ∃ out', outWrite out r b v = some out' ∧ out'.length = out.length ∧
      ∀ r' b', (out'[r']?).map (fun x => x.getLsbD b') =
        if r' = r ∧ b' = b then some v else (out[r']?).map fun x => x.getLsbD b') ∧
  ∀ (s : State) (c : Chan) (v : Bool) (t : Nat), (s.cfg.pin.get c).reg < s.out.length →
    (s.cfg.pin.get c).bit < 8 →
    ∃ s', lineWrite s c v t = some s' ∧ s'.line? c = some v ∧
      outWrite s.out (s.cfg.pin.get c).reg (s.cfg.pin.get c).bit v = some s'.out ∧
      s' = { s with out := s'.out, trace := s.trace ++ [.line t c v] }

/-- 41_line_driver.md R119: a build puts the channels of one register on different bits, and SETH or
SETL of one channel never changes another channel's bit. -/
def Obligations.SharedRegistersAreUndisturbed : Prop :=
  ∀ (s : State) (a b : Chan), buildRefusal s.cfg = none → a ≠ b →
    ((s.cfg.pin.get a).reg = (s.cfg.pin.get b).reg →
      (s.cfg.pin.get a).bit ≠ (s.cfg.pin.get b).bit) ∧
    ∀ t, exec (.seth a) s = .next t ∨ exec (.setl a) s = .next t → t.line? b = s.line? b

/-- 42_bit_encoder.md R128: ROT of a channel of the command that holds a byte. -/
def Obligations.RotCompletes : Prop :=
  ∀ (s : State) (c : Chan) (x : Byte), c.val < s.ncmd.toNat → s.sh.get c = some x →
    ∃ t, exec (.rot c) s = .next t ∧ t.t.get c = some (x.getLsbD 7) ∧
      t.sh.get c = some (x.extractLsb' 0 7 ++ 0#1) ∧
      (∀ d, d ≠ c → t.t.get d = s.t.get d ∧ t.sh.get d = s.sh.get d) ∧
      t = { s with t := t.t, sh := t.sh, cyc := s.cyc + 1, pc := s.pc + 1 }

/-- 30_encoding.md R76, 42_bit_encoder.md R128: eight ROTs of one byte put its bits into the test bit,
bit 7 first and bit 0 last, and leave the shift register zero. -/
def Obligations.EightRotationsSendAByteMsbFirst : Prop :=
  ∀ (s : State) (c : Chan) (x : Byte), c.val < s.ncmd.toNat → s.sh.get c = some x →
    ∃ f : Nat → State, f 0 = s ∧
      (∀ j, j < 8 → exec (.rot c) (f j) = .next (f (j + 1)) ∧
        (f (j + 1)).t.get c = some (x.getLsbD (7 - j))) ∧
      (f 8).sh.get c = some 0

/-- 42_bit_encoder.md R129, 30_encoding.md R86: BT of a channel of the command whose test bit holds a
value goes forward by its offset or to the next word, and costs one cycle either way. -/
def Obligations.BtCompletes : Prop :=
  ∀ (s : State) (c : Chan) (off : Nat) (b : Bool), c.val < s.ncmd.toNat → s.t.get c = some b →
    exec (.bt c off) s = .next { s with
      cyc := s.cyc + 1
      pc := if b then s.pc + 1 + off else s.pc + 1 }

/-- 60_exceptions.md R199, 10_state.md R29: ROT and BT of a channel of the command raise NO_VALUE
when the register they read holds no value. -/
def Obligations.ReadsOfNoValueFault : Prop :=
  ∀ (s : State) (c : Chan) (off : Nat), c.val < s.ncmd.toNat →
    (s.sh.get c = none → exec (.rot c) s = .next (s.raise (.noValue s.pc c))) ∧
    (s.t.get c = none → exec (.bt c off) s = .next (s.raise (.noValue s.pc c)))

/-- 42_bit_encoder.md R126, 60_exceptions.md R200, R201, R203: what a fetch that gives no micro-op of
the command raises, in the order of the checks, and that a schedule which passes WF has no such
word. That a pc above 1023 is recorded whole is the model's choice (log 27). -/
def Obligations.FetchFaults : Prop :=
  (∀ s : State, s.phase = .run → hostWaits s = true → s.schedule.length ≤ s.pc →
    step s = .next (s.tick.raise (.pcRange s.pc))) ∧
  (∀ (s : State) (w : Word), s.phase = .run → hostWaits s = true → s.schedule[s.pc]? = some w →
    (decode w = none ∨ ∃ i c, decode w = some i ∧ i.channel? = some c ∧ s.ncmd.toNat ≤ c.val) →
    step s = .next (s.tick.raise (.illegalOp s.pc w))) ∧
  ∀ (s : List Word) (n : ChanCount) (tt : Timing), scheduleWf s n tt = true → ∀ w ∈ s,
    ∃ i, decode w = some i ∧ ∀ c, i.channel? = some c → c.val < n.toNat

/-- 42_bit_encoder.md R131: END of a path that is not the last of a byte. -/
def Obligations.EndInsideAByteCompletes : Prop :=
  ∀ s : State, s.biti ≠ 7 →
    exec .endPath s = .next { s with biti := s.biti + 1, pc := 0 }

/-- 42_bit_encoder.md R131, 20_memory.md R56, R66, 44_frame_transmitter.md R175: END of the last path
of a byte that is not the last of the frame loads the next byte of every channel, in channel order,
at the current cycle. `j` and `k` are the next byte's slot and color. -/
def Obligations.EndAtAByteBoundaryLoads : Prop :=
  ∀ (s : State) (j : Fin 3) (k : BitVec 16), s.biti = 7 →
    (s.slot.val + 1 = j.val ∧ k = s.k ∨ s.slot = 2 ∧ j = 0 ∧ k = s.k + 1) → k ≠ s.count →
    (∀ c ∈ s.ncmd.chans, admitted s.mem
      ((s.buf.get c).toNat + 3 * k.toNat + (s.cfg.order.get j).toNat)) →
    ∃ sh, exec .endPath s = .next { s with
        biti := 0, slot := j, k := k, sh := sh, pc := 0
        trace := s.trace ++ s.ncmd.chans.map fun c =>
          .read s.cyc ((s.buf.get c).toNat + 3 * k.toNat + (s.cfg.order.get j).toNat)
            (byteAt s.mem ((s.buf.get c).toNat + 3 * k.toNat + (s.cfg.order.get j).toNat)) } ∧
      (∀ c ∈ s.ncmd.chans, sh.get c = some
        (byteAt s.mem ((s.buf.get c).toNat + 3 * k.toNat + (s.cfg.order.get j).toNat))) ∧
      ∀ c, c ∉ s.ncmd.chans → sh.get c = s.sh.get c

/-- 44_frame_transmitter.md R177: the frame exit, after the END of the last path and at once when
`count = 0`. -/
def Obligations.FrameExit : Prop :=
  (∀ (s : State) (j : Fin 3) (k : BitVec 16), s.biti = 7 →
    (s.slot.val + 1 = j.val ∧ k = s.k ∨ s.slot = 2 ∧ j = 0 ∧ k = s.k + 1) → k = s.count →
    exec .endPath s = .next { s with
      biti := 0, slot := j, k := k
      cyc := s.cyc + s.cfg.tExit
      ie := restoredIe s.cfg s.ieSaved
      trace := s.trace ++ [.ie (s.cyc + s.cfg.tExit) (restoredIe s.cfg s.ieSaved)]
      holdEnd := s.cyc + s.cfg.tExit + s.cfg.holdOf s.ncmd
      phase := .hold }) ∧
  ∀ (s : State) (n : ChanCount) (bufs : PerChan Nat), s.phase = .idle →
    (∀ c ∈ n.chans, bufs.get c < 2 ^ 16) →
    ∃ t, exec (.transmit n.toNat 0 bufs) s = .next t ∧
      t.cyc = s.cyc + s.cfg.tStart + s.cfg.tExit ∧ t.ie = restoredIe s.cfg s.ie ∧
      t.trace = s.trace ++ [.ie s.cyc false, .ie t.cyc (restoredIe s.cfg s.ie)] ∧
      t.holdEnd = t.cyc + s.cfg.holdOf n ∧ t.phase = .hold

/-- 30_encoding.md R89: the cycles of each micro-op that runs: n for NOP n, one for SETH, SETL, ROT and
BT, whether the branch is taken or not, none for END, after which the frame exit adds T_EXIT. -/
def Obligations.CycleCosts : Prop :=
  ∀ s t : State,
    (∀ n, exec (.nop n) s = .next t → t.cyc = s.cyc + n) ∧
    (∀ c : Chan, c.val < s.ncmd.toNat →
      (exec (.seth c) s = .next t → t.cyc = s.cyc + 1) ∧
      (exec (.setl c) s = .next t → t.cyc = s.cyc + 1) ∧
      (s.sh.get c ≠ none → exec (.rot c) s = .next t → t.cyc = s.cyc + 1) ∧
      ∀ off, s.t.get c ≠ none → exec (.bt c off) s = .next t → t.cyc = s.cyc + 1) ∧
    (exec .endPath s = .next t →
      t.cyc = s.cyc ∨ t.phase = .hold ∧ t.cyc = s.cyc + s.cfg.tExit)

/-- 10_state.md R48: what NOP, BT, SETH, SETL and ROT leave unchanged: everything but the pieces
named, or, when they raise a fault, everything but what raising it writes. Every byte of memory
reads as before. -/
def Obligations.MicroOpFrames : Prop :=
  ∀ (i : Instr) (s t : State), exec i s = .next t →
    (∀ n c off, i = .nop n ∨ i = .bt c off →
      ((∃ f, t = s.raise f) ∨ t = { s with pc := t.pc, cyc := t.cyc }) ∧
      ∀ a, t.mem.read a = s.mem.read a) ∧
    (∀ c, i = .seth c ∨ i = .setl c →
      ((∃ f, t = s.raise f) ∨
        (t = { s with pc := t.pc, cyc := t.cyc, trace := t.trace, out := t.out } ∧
          ∀ r b, (r, b) ≠ ((s.cfg.pin.get c).reg, (s.cfg.pin.get c).bit) →
            (t.out[r]?).map (fun x => x.getLsbD b) = (s.out[r]?).map fun x => x.getLsbD b)) ∧
      ∀ a, t.mem.read a = s.mem.read a) ∧
    ∀ c, i = .rot c →
      ((∃ f, t = s.raise f) ∨
        (t = { s with pc := t.pc, cyc := t.cyc, sh := t.sh, t := t.t } ∧
          ∀ d, d ≠ c → t.sh.get d = s.sh.get d ∧ t.t.get d = s.t.get d)) ∧
      ∀ a, t.mem.read a = s.mem.read a

/-- 10_state.md R48, R33, 60_exceptions.md R196: what END leaves unchanged, whether it goes on, exits
the frame or raises a fault: the configuration, the test bits, the command latches, IE_SAVED, the
refusal mark, the output registers, every byte of memory, and the shift registers of channels outside
the command; inside a byte also everything else but BITI and the pc. -/
def Obligations.EndFrame : Prop :=
  ∀ s t : State, exec .endPath s = .next t →
    t = { s with
      biti := t.biti, slot := t.slot, k := t.k, sh := t.sh, pc := t.pc, trace := t.trace
      ie := t.ie, holdEnd := t.holdEnd, phase := t.phase, cyc := t.cyc, flt := t.flt } ∧
    (∀ c, c ∉ s.ncmd.chans → t.sh.get c = s.sh.get c) ∧
    (s.biti ≠ 7 → t = { s with biti := t.biti, pc := t.pc }) ∧
    ∀ a, t.mem.read a = s.mem.read a

/-- 10_state.md R48, R33, 44_frame_transmitter.md R167, 60_exceptions.md R196, R197: what TRANSMIT
leaves unchanged, whether it is accepted, refused or faults: the configuration, the test bits, the
output registers, every byte of memory, and the shift registers and buffer latches of channels
outside the command. -/
def Obligations.TransmitFrame : Prop :=
  ∀ (n count : Nat) (bufs : PerChan Nat) (s t : State), exec (.transmit n count bufs) s = .next t →
    t.cfg = s.cfg ∧ t.t = s.t ∧ t.out = s.out ∧ t.host = s.host ∧
    (∀ c, n ≤ c.val → t.sh.get c = s.sh.get c ∧ t.buf.get c = s.buf.get c) ∧
    ∀ a, t.mem.read a = s.mem.read a

/-! TRANSMIT and the host -/

/-- 44_frame_transmitter.md R167, R169, R171: an accepted TRANSMIT of at least one color whose first
bytes are admitted. -/
def Obligations.TransmitCompletes : Prop :=
  ∀ (s : State) (n : ChanCount) (count : Nat) (bufs : PerChan Nat), s.phase = .idle →
    0 < count → count < 2 ^ 16 → (∀ c ∈ n.chans, bufs.get c < 2 ^ 16) →
    (∀ c ∈ n.chans, admitted s.mem (bufs.get c + (s.cfg.order.get 0).toNat)) →
    ∃ sh buf, exec (.transmit n.toNat count bufs) s = .next { s with
        ncmd := n, count := BitVec.ofNat 16 count, buf := buf, ieSaved := s.ie, ie := false
        k := 0, slot := 0, biti := 0, pc := 0, cyc := s.cyc + s.cfg.tStart, sh := sh
        phase := .run
        trace := s.trace ++ [.ie s.cyc false] ++ n.chans.map fun c =>
          .read (s.cyc + s.cfg.tStart) (bufs.get c + (s.cfg.order.get 0).toNat)
            (byteAt s.mem (bufs.get c + (s.cfg.order.get 0).toNat)) } ∧
      (∀ c ∈ n.chans, (buf.get c).toNat = bufs.get c ∧
        sh.get c = some (byteAt s.mem (bufs.get c + (s.cfg.order.get 0).toNat))) ∧
      ∀ c, c ∉ n.chans → buf.get c = s.buf.get c ∧ sh.get c = s.sh.get c

/-- 44_frame_transmitter.md R168: when TRANSMIT is refused, with which code, and that a refused
TRANSMIT writes the refusal mark and nothing else; a TRANSMIT that is not refused leaves the mark. -/
def Obligations.TransmitRefusals : Prop :=
  ∀ (s : State) (n count : Nat) (bufs : PerChan Nat),
    (s.phase ≠ .idle →
      exec (.transmit n count bufs) s = .next { s with refused := some .cmdBusy }) ∧
    (s.phase = .idle → n ≠ 1 → n ≠ 2 → n ≠ 3 →
      exec (.transmit n count bufs) s = .next { s with refused := some .cmdN }) ∧
    ∀ m : ChanCount, s.phase = .idle → n = m.toNat →
      ((2 ^ 16 ≤ count ∨ ∃ c ∈ m.chans, 2 ^ 16 ≤ bufs.get c) →
        exec (.transmit n count bufs) s = .next { s with refused := some .cmdOperand }) ∧
      (count < 2 ^ 16 → (∀ c ∈ m.chans, bufs.get c < 2 ^ 16) →
        ∃ t, exec (.transmit n count bufs) s = .next t ∧ t.refused = s.refused)

/-- 60_exceptions.md R198, R203, R196: a load whose byte is not admitted raises OOB_READ for the
lowest such channel, and the loads of the channels before it stay. That an address at or above 2^16
is recorded whole is the model's choice (log 27). -/
def Obligations.FirstUnreadableByteFaults : Prop :=
  (∀ (s : State) (j : Fin 3) (k : BitVec 16) (pre post : List Chan) (c : Chan), s.biti = 7 →
    (s.slot.val + 1 = j.val ∧ k = s.k ∨ s.slot = 2 ∧ j = 0 ∧ k = s.k + 1) → k ≠ s.count →
    s.ncmd.chans = pre ++ c :: post →
    (∀ d ∈ pre, admitted s.mem
      ((s.buf.get d).toNat + 3 * k.toNat + (s.cfg.order.get j).toNat)) →
    ¬ admitted s.mem ((s.buf.get c).toNat + 3 * k.toNat + (s.cfg.order.get j).toNat) →
    ∃ sh, exec .endPath s = .next { s with
        biti := 0, slot := j, k := k, sh := sh, phase := .fault
        flt := some (.oobRead ((s.buf.get c).toNat + 3 * k.toNat + (s.cfg.order.get j).toNat))
        ie := restoredIe s.cfg s.ieSaved
        trace := s.trace ++ (pre.map fun d =>
          .read s.cyc ((s.buf.get d).toNat + 3 * k.toNat + (s.cfg.order.get j).toNat)
            (byteAt s.mem ((s.buf.get d).toNat + 3 * k.toNat + (s.cfg.order.get j).toNat))) ++
          [.fault s.cyc
            (.oobRead ((s.buf.get c).toNat + 3 * k.toNat + (s.cfg.order.get j).toNat)),
           .ie s.cyc (restoredIe s.cfg s.ieSaved)] } ∧
      (∀ d ∈ pre, sh.get d = some
        (byteAt s.mem ((s.buf.get d).toNat + 3 * k.toNat + (s.cfg.order.get j).toNat))) ∧
      ∀ d, d ∉ pre → sh.get d = s.sh.get d) ∧
  ∀ (s : State) (n : ChanCount) (count : Nat) (bufs : PerChan Nat) (pre post : List Chan) (c : Chan),
    s.phase = .idle → 0 < count → count < 2 ^ 16 → (∀ d ∈ n.chans, bufs.get d < 2 ^ 16) →
    n.chans = pre ++ c :: post →
    (∀ d ∈ pre, admitted s.mem (bufs.get d + (s.cfg.order.get 0).toNat)) →
    ¬ admitted s.mem (bufs.get c + (s.cfg.order.get 0).toNat) →
    ∃ t, exec (.transmit n.toNat count bufs) s = .next t ∧ t.phase = .fault ∧
      t.flt = some (.oobRead (bufs.get c + (s.cfg.order.get 0).toNat)) ∧
      t.ie = restoredIe s.cfg s.ie ∧
      t.trace = s.trace ++ [.ie s.cyc false] ++ (pre.map fun d =>
        .read t.cyc (bufs.get d + (s.cfg.order.get 0).toNat)
          (byteAt s.mem (bufs.get d + (s.cfg.order.get 0).toNat))) ++
        [.fault t.cyc (.oobRead (bufs.get c + (s.cfg.order.get 0).toNat)),
         .ie t.cyc (restoredIe s.cfg s.ie)] ∧
      (∀ d ∈ pre, t.sh.get d = some (byteAt s.mem (bufs.get d + (s.cfg.order.get 0).toNat))) ∧
      ∀ d, d ∉ pre → t.sh.get d = s.sh.get d

/-- 44_frame_transmitter.md R180: the whole run of an empty frame. -/
def Obligations.EmptyFrame : Prop :=
  ∀ (s : State) (n : ChanCount) (bufs : PerChan Nat), s.phase = .idle →
    s.host = [.transmit n.toNat 0 bufs] → (∀ c ∈ n.chans, bufs.get c < 2 ^ 16) →
    ∃ u, core.run 2 s = .next u ∧ u.phase = .idle ∧ u.ie = restoredIe s.cfg s.ie ∧
      u.cyc = s.cyc + s.cfg.tStart + s.cfg.tExit + s.cfg.holdOf n ∧ u.out = s.out ∧
      u.trace = s.trace ++ [.ie s.cyc false,
        .ie (s.cyc + s.cfg.tStart + s.cfg.tExit) (restoredIe s.cfg s.ie),
        .done (s.cyc + s.cfg.tStart + s.cfg.tExit + s.cfg.holdOf n)]

/-- 44_frame_transmitter.md R179: the one step of phase HOLD. -/
def Obligations.HoldCompletion : Prop :=
  ∀ s : State, s.phase = .hold → hostWaits s = true →
    step s = .next { s.tick with
      cyc := s.holdEnd, trace := s.trace ++ [.done s.holdEnd], phase := .idle }

/-- 44_frame_transmitter.md R184, R181, 70_reset_and_hazards.md R222: between commands the host may
write its flag, an output register and memory; without an action the block waits in IDLE; in RUN and
HOLD a TRANSMIT of a host that keeps its duties waits. The model's own choices: the host's actions are
a list, its writes wait too, and `letRun` lets the block run (log 10), so that no handler of the host
runs in HOLD (log 16); waiting takes no time (log 9); a write of the host, of its flag too, emits no
event (log 19). -/
def Obligations.HostActsBetweenCommands : Prop :=
  (∀ s : State, s.phase = .idle → s.host = [] → step s = .next s) ∧
  (∀ (s : State) (v : Bool) (rest : List HostAction), s.phase = .idle →
    s.host = .setIe v :: rest → step s = .next { s with ie := v, host := rest }) ∧
  (∀ (s : State) (r : Nat) (v : Byte) (rest : List HostAction), s.phase = .idle →
    s.host = .writeOut r v :: rest → r < s.out.length →
    step s = .next { s with out := s.out.set r v, host := rest }) ∧
  (∀ (s : State) (a : Addr) (b : Byte) (rest : List HostAction), s.phase = .idle →
    s.host = .writeMem a b :: rest →
    ∃ t, step s = .next t ∧ t = { s with mem := t.mem, host := rest } ∧
      ∀ x, t.mem.read x = if x = a.toNat then some b else s.mem.read x) ∧
  (∀ (s : State) (a : HostAction) (rest : List HostAction), s.phase = .run ∨ s.phase = .hold →
    s.host = a :: rest →
    ((∃ n count bufs, a = .transmit n count bufs) ∨ (∃ v, a = .setIe v) ∨
      (∃ r v, a = .writeOut r v) ∨ ∃ x b, a = .writeMem x b) →
    step s = blockStep s) ∧
  ∀ (s : State) (n : Nat) (rest : List HostAction), s.host = .letRun n :: rest →
    (n = 0 ∨ s.phase = .idle ∨ s.phase = .fault → step s = .next { s with host := rest }) ∧
    ∀ m, n = m + 1 → s.phase = .run ∨ s.phase = .hold →
      step s = blockStep { s with host := .letRun m :: rest }

/-! Faults, reset, the critical section -/

/-- 60_exceptions.md R196, R202: what raising a fault writes, and that it writes nothing else; the
number of each fault's code. -/
def Obligations.RaisingAFault : Prop :=
  (∀ (s : State) (f : FaultRec), s.raise f = { s with
    flt := some f, phase := .fault, ie := restoredIe s.cfg s.ieSaved
    trace := s.trace ++ [.fault s.cyc f, .ie s.cyc (restoredIe s.cfg s.ieSaved)] }) ∧
  (∀ a, (FaultRec.oobRead a).code = 1) ∧ (∀ pc c, (FaultRec.noValue pc c).code = 2) ∧
  (∀ pc, (FaultRec.pcRange pc).code = 3) ∧ ∀ pc w, (FaultRec.illegalOp pc w).code = 4

/-- 60_exceptions.md R208, R196, R42: in FAULT the block takes no step; only block reset leaves it,
and the only other thing that can happen is the refusal of a TRANSMIT. -/
def Obligations.FaultIsAbsorbing : Prop :=
  (∀ s : State, s.phase = .fault → hostWaits s = true → step s = .fault .halted) ∧
  ∀ s t : State, s.phase = .fault → step s = .next t →
    (t.phase = .fault ∧ t = { s with refused := t.refused, host := t.host }) ∨
    ∃ rest, s.host = .blockReset :: rest ∧ t = blockReset { s with host := rest }

/-- 70_reset_and_hazards.md R220, R221: block reset comes in every phase, part-way through a command
too, puts the block's state to its reset values, and leaves the output registers and IE; the
configuration is constant. That it also leaves the memory and the host's remaining actions is the
model's choice (log 24; the list of actions is the model's own field, log 10): R220 speaks of the
output registers and IE only, and R221 takes block reset to be part of a platform reset that resets
the host too. -/
def Obligations.BlockResetFromEveryPhase : Prop :=
  ∀ (s : State) (rest : List HostAction), s.host = .blockReset :: rest →
    ∃ t, step s = .next t ∧ t.phase = .idle ∧ t.pc = 0 ∧ t.cyc = 0 ∧
      (∀ c, t.sh.get c = none ∧ t.t.get c = none) ∧ t.biti = 0 ∧ t.slot = 0 ∧ t.k = 0 ∧
      t.holdEnd = 0 ∧ t.flt = none ∧ t.refused = none ∧ t.trace = [] ∧
      t.out = s.out ∧ t.ie = s.ie ∧ t.cfg = s.cfg ∧ t.host = rest ∧
      ∀ a, t.mem.read a = s.mem.read a

/-- 10_state.md R49: the values the spec gives for the state after block reset. -/
def Obligations.ResetState : Prop :=
  State.reset.phase = .idle ∧ State.reset.pc = 0 ∧ State.reset.cyc = 0 ∧
  (∀ c, State.reset.sh.get c = none ∧ State.reset.t.get c = none) ∧
  State.reset.biti = 0 ∧ State.reset.slot = 0 ∧ State.reset.k = 0 ∧ State.reset.holdEnd = 0 ∧
  State.reset.flt = none ∧ State.reset.refused = none ∧ State.reset.trace = []

/-- 44_frame_transmitter.md R190: every way out of the critical section sets IE by IE_EXIT: out of
RUN, and out of a TRANSMIT that does not reach RUN. -/
def Obligations.ExclusiveAttentionIsReleased : Prop :=
  (∀ s t : State, s.phase = .run → blockStep s = .next t → t.phase ≠ .run →
    t.ie = restoredIe s.cfg s.ieSaved ∧
    t.trace.getLast? = some (.ie t.cyc (restoredIe s.cfg s.ieSaved))) ∧
  ∀ (n count : Nat) (bufs : PerChan Nat) (s t : State), s.phase = .idle →
    exec (.transmit n count bufs) s = .next t → t.phase ≠ .idle → t.phase ≠ .run →
    t.ie = restoredIe s.cfg s.ie ∧
    t.trace.getLast? = some (.ie t.cyc (restoredIe s.cfg s.ie))

/-! What no step does -/

/-- 20_memory.md R59: no instruction and no step of the block changes memory. -/
def Obligations.TheBlockWritesNoMemory : Prop :=
  (∀ (i : Instr) (s t : State), exec i s = .next t →
    t.mem = s.mem ∧ ∀ a, t.mem.read a = s.mem.read a) ∧
  ∀ s t : State, blockStep s = .next t → t.mem = s.mem ∧ ∀ a, t.mem.read a = s.mem.read a

/-- 00_scope.md R11: no step changes a parameter. -/
def Obligations.ParametersAreFixed : Prop :=
  ∀ s t : State, step s = .next t → t.cfg = s.cfg

/-- 10_state.md R28, R33, R37, R47: a test bit is written only by ROT of its channel, and the command
latches and IE_SAVED only by TRANSMIT. -/
def Obligations.SoleWritersOfTestBitsAndLatches : Prop :=
  ∀ (i : Instr) (s t : State), exec i s = .next t →
    (∀ c, t.t.get c ≠ s.t.get c → i = .rot c) ∧
    (t.ncmd ≠ s.ncmd ∨ t.count ≠ s.count ∨ t.buf ≠ s.buf ∨ t.ieSaved ≠ s.ieSaved →
      ∃ n count bufs, i = .transmit n count bufs)

/-- 41_line_driver.md R121, R122: the block writes the output bits of the command's channels only,
each by SETH or SETL of its channel. -/
def Obligations.OnlyLinesOfTheCommandAreWritten : Prop :=
  (∀ (i : Instr) (s t : State) (r b : Nat), exec i s = .next t →
    (t.out[r]?).map (fun x => x.getLsbD b) ≠ (s.out[r]?).map (fun x => x.getLsbD b) →
    ∃ c : Chan, (i = .seth c ∨ i = .setl c) ∧ c.val < s.ncmd.toNat ∧
      (s.cfg.pin.get c).reg = r ∧ (s.cfg.pin.get c).bit = b) ∧
  ∀ s t : State, s.phase = .hold → blockStep s = .next t → t.out = s.out

/-- 10_state.md R38, 44_frame_transmitter.md R187 ("no rule reads cyc"): an instruction, and the step
of each phase, does the same thing at every time. -/
def Obligations.NoRuleReadsTheTime : Prop :=
  (∀ (i : Instr) (s t : State) (d : Nat), exec i s = .next t →
    exec i (s.later d) = .next (t.later d)) ∧
  ∀ (s t : State) (d : Nat), blockStep s = .next t → blockStep (s.later d) = .next (t.later d)

/-! Invariants -/

/-- The machine at reset is coherent and, being the spec's instance EX20 (log 1), certified. -/
def Obligations.ResetMeetsTheInvariants : Prop :=
  Coherent State.reset ∧ Certified State.reset

/-- 10_state.md R29, R32, R38, R39, R42, R44, 44_frame_transmitter.md R169: every step of every
configuration, well formed or not, keeps the coherence of the state, and time runs backwards only by
block reset. -/
def Obligations.EveryStepKeepsCoherence : Prop :=
  ∀ s t : State, Coherent s → step s = .next t → Coherent t ∧
    ((∀ rest, s.host ≠ .blockReset :: rest) → s.cyc ≤ t.cyc)

/-- 20_memory.md R67: no two line writes ever take effect in the same cycle, and they take effect in
the order they are made. -/
def Obligations.LineWritesNeverCoincide : Prop :=
  ∀ s t : State, Coherent s → (lineTimes s.trace).Pairwise (· < ·) → step s = .next t →
    (lineTimes t.trace).Pairwise (· < ·)

/-- 60_exceptions.md R199 to R202: every step of a built instance keeps it on a path of its schedule
and raises no fault but OOB_READ. -/
def Obligations.EveryStepKeepsTheCertificate : Prop :=
  ∀ s t : State, Certified s → step s = .next t → Certified t

/-- 44_frame_transmitter.md R182, 70_reset_and_hazards.md R234: a built instance that has not faulted
always steps, while the host writes only registers that exist. -/
def Obligations.ABuiltInstanceNeverStops : Prop :=
  ∀ s : State, Certified s → s.phase ≠ .fault →
    (∀ r v rest, s.host = .writeOut r v :: rest → r < s.out.length) → ∃ t, step s = .next t

/-! Schedules and builds -/

/-- 30_encoding.md R97: WF is the conjunction of W1 to W8. -/
def Obligations.WellFormednessOfASchedule : Prop :=
  ∀ (s : List Word) (n : ChanCount) (tt : Timing), scheduleWf s n tt = true ↔
    (1 ≤ s.length ∧ s.length ≤ 1024) ∧
    (∀ w ∈ s, ∃ i, decode w = some i ∧ ∀ c, i.channel? = some c → c.val < n.toNat) ∧
    (∀ (p : Nat) (w : Word) (c : Chan) (off : Nat), s[p]? = some w → decode w = some (.bt c off) →
      p + 1 + off < s.length) ∧
    (∀ v ∈ vectors n, ∃ ops, path s v = some ops) ∧
    ∀ v ∈ vectors n, ∀ ops, path s v = some ops →
      (∀ c ∈ n.chans,
        (∃ before o after, ops = before ++ o :: after ∧ o.op = .rot c ∧
          ∀ x ∈ before ++ after, x.op ≠ .rot c ∧ (x ∈ before → ∀ off, x.op ≠ .bt c off)) ∧
        ∃ first h middle l last, ops = first ++ h :: middle ++ l :: last ∧ h.op = .seth c ∧
          l.op = .setl c ∧ ∀ x ∈ first ++ middle ++ last, x.op ≠ .seth c ∧ x.op ≠ .setl c) ∧
      pathCost ops = tt.tbit ∧
      (∀ c ∈ n.chans, ∃ r, rise c ops = some r ∧
        fall c ops = some (r + if v.get c then tt.t1h else tt.t0h)) ∧
      ∀ v' ∈ vectors n, ∀ ops', path s v' = some ops' → ∀ c ∈ n.chans, rise c ops = rise c ops'

/-- 30_encoding.md R86, R95, R98: branches go forward only, so a path has at most as many micro-ops
as the schedule has words, its indices rise, and looking further finds no other path. -/
def Obligations.PathsEnd : Prop :=
  ∀ (s : List Word) (v : PerChan Bool),
    (∀ ops, path s v = some ops →
      ops.length ≤ s.length ∧ (ops.map PathOp.index).Pairwise (· < ·)) ∧
    ∀ f, s.length ≤ f → walk s v f 0 0 (PerChan.all false) = path s v

/-- 40_timing_model.md R108, R106: a frequency that is not in the table is refused; so is a table with
an entry that breaks R106, the selected one or, by R106's "every entry" and 60_exceptions.md R197's "a
timing-table entry" (log 21), another; no instance exists then, and every entry of an instance that
does satisfies R106. -/
def Obligations.BuildNeedsATimingEntry : Prop :=
  ∀ (cfg : Config) (out : List Byte) (ie : Bool) (mem : Memory) (host : List HostAction),
    ((∀ row ∈ cfg.table, row.freq ≠ cfg.fCpu) →
      buildRefusal cfg = some .buildFreq ∧ boot cfg out ie mem host = .error .buildFreq) ∧
    (∀ tt, selectedTiming cfg = some tt →
      ¬ (1 ≤ tt.t0h ∧ tt.t0h < tt.t1h ∧ tt.t1h < tt.tbit ∧ 1 ≤ tt.treset) ∨
      (∃ row ∈ cfg.table, ¬ (1 ≤ row.entry.t0h ∧ row.entry.t0h < row.entry.t1h ∧
        row.entry.t1h < row.entry.tbit ∧ 1 ≤ row.entry.treset)) →
      buildRefusal cfg = some .buildTable ∧ boot cfg out ie mem host = .error .buildTable) ∧
    ∀ s, boot cfg out ie mem host = .ok s → ∀ row ∈ s.cfg.table,
      1 ≤ row.entry.t0h ∧ row.entry.t0h < row.entry.t1h ∧ row.entry.t1h < row.entry.tbit ∧
        1 ≤ row.entry.treset

/-- 60_exceptions.md R197, 10_state.md R41: the build checks in their order, and the state of an
instance that passes them all. -/
def Obligations.BuildChecksInOrder : Prop :=
  ∀ (cfg : Config) (tt : Timing), selectedTiming cfg = some tt →
    (∀ row ∈ cfg.table, timingOk row.entry = true) →
    (¬ ((∀ c, (cfg.pin.get c).reg < cfg.nReg ∧ (cfg.pin.get c).bit < 8) ∧
        ∀ c d, c ≠ d → cfg.pin.get c ≠ cfg.pin.get d) → buildRefusal cfg = some .buildPin) ∧
    ((∀ c, (cfg.pin.get c).reg < cfg.nReg ∧ (cfg.pin.get c).bit < 8) →
      (∀ c d, c ≠ d → cfg.pin.get c ≠ cfg.pin.get d) →
      ((∃ i, i < 3 ∧ ∀ j, (cfg.order.get j).toNat ≠ i) → buildRefusal cfg = some .buildOrder) ∧
      ((∀ i, i < 3 → ∃ j, (cfg.order.get j).toNat = i) →
        ((∃ n, cfg.holdOf n < tt.treset) → buildRefusal cfg = some .buildHold) ∧
        ((∀ n, tt.treset ≤ cfg.holdOf n) →
          ((∃ n, scheduleWf (cfg.schedOf n) n tt = false) →
            buildRefusal cfg = some .buildSched) ∧
          ((∀ n, scheduleWf (cfg.schedOf n) n tt = true) → buildRefusal cfg = none ∧
            ∀ out ie mem host,
              boot cfg out ie mem host = .ok (State.powerOn cfg out ie mem host)))))

/-- 40_timing_model.md R114, 43_interleaver.md R156, R159, R161, 42_bit_encoder.md R140: the
generator gives the three schedules the spec lists at EX20, and EX20 is built with them. -/
def Obligations.Ex20IsBuiltWithTheReferenceSchedules : Prop :=
  refSchedule .one timingEx20 = ref1Ex20 ∧ refSchedule .two timingEx20 = ref2Ex20 ∧
  refSchedule .three timingEx20 = ref3Ex20 ∧ ref1Ex20.length = 11 ∧ ref2Ex20.length = 29 ∧
  ref3Ex20.length = 65 ∧ buildRefusal Config.ex20 = none

/-- 42_bit_encoder.md R140, 43_interleaver.md R160, R162: the cycle accounting of every path of the
three reference schedules at EX20. -/
def Obligations.PathAccountingAtEx20 : Prop :=
  ∀ (n : ChanCount) (v : PerChan Bool), v ∈ vectors n →
    ∃ ops, path (Config.ex20.schedOf n) v = some ops ∧ pathCost ops = 25 ∧
      ∀ c ∈ n.chans, rise c ops = some (c.val + 1) ∧
        fall c ops = some (c.val + 1 + if v.get c then 17 else 9)

/-! A whole command -/

/-- 43_interleaver.md R148, 30_encoding.md R99: from its first micro-op to its END, every path takes
exactly `tbit` cycles, whatever the bits it sends, and leaves the command's lines low; the dispatch
table holds the path of each bit-value vector at index `v[0] + 2*v[1] + 4*v[2]`; and a command of a
host that keeps its duties makes the trace that the table gives. -/
def Obligations.EveryPathTakesTbit : Prop :=
  (∀ (cfg : Config) (tt : Timing) (n : ChanCount), buildRefusal cfg = none →
    selectedTiming cfg = some tt → ∀ v ∈ vectors n,
    ∃ ops, path (cfg.schedOf n) v = some ops ∧ pathCost ops = tt.tbit) ∧
  (∀ (s : State) (tt : Timing), s.phase = .run → s.host = [] → s.pc = 0 → Built s →
    selectedTiming s.cfg = some tt → (∀ c ∈ s.ncmd.chans, s.sh.get c ≠ none) →
    ∃ k u w, core.run k s = .next u ∧ u.schedule[u.pc]? = some w ∧ decode w = some .endPath ∧
      u.phase = .run ∧ u.cyc = s.cyc + tt.tbit ∧ ∀ c ∈ s.ncmd.chans, u.line? c = some false) ∧
  (∀ (s : List Word) (n : ChanCount), (dispatchTable s n).length = 2 ^ n.toNat ∧
    ∀ v ∈ vectors n,
      (dispatchTable s n)[v.c0.toNat + 2 * v.c1.toNat + 4 * v.c2.toNat]? = some (path s v)) ∧
  ∀ (s : State) (n : ChanCount) (count : Nat) (bufs : PerChan Nat) (tt : Timing),
    Launch s n count bufs tt → ∃ u exit, Completes s u ∧
      exit = s.cyc + (s.cfg.tStart + 24 * count * tt.tbit + s.cfg.tExit) ∧
      newEvents s u = .ie s.cyc false ::
        (tableFrame (dispatchTable (s.cfg.schedOf n) n) s.cfg n s.mem bufs tt.tbit
          (s.cyc + s.cfg.tStart) count ++
          [.ie exit (restoredIe s.cfg s.ie), .done (exit + s.cfg.holdOf n)])

/-- 30_encoding.md R80, R76, R77, R78: a frame has 24 bits for each color; bit `i` of it is bit
`7 - i mod 8` of component `ORDER[(i div 8) mod 3]` of color `i div 24`. -/
def Obligations.FrameBitString : Prop :=
  ∀ (cfg : Config) (mem : Memory) (base count : Nat),
    (frameBits cfg mem base count).length = 24 * count ∧
    ∀ i, i < 24 * count → (frameBits cfg mem base count)[i]? = some
      ((byteAt mem (base + 3 * (i / 24) +
        (cfg.order.get ⟨i / 8 % 3, Nat.mod_lt _ (by decide)⟩).toNat)).getLsbD (7 - i % 8))

/-- 44_frame_transmitter.md R188: a command of a host that keeps its duties reaches the end of its
run, in the state the rule gives, with every line low that is of the command or was low before; a
faulted or refused state is never final. -/
def Obligations.EndOfRun : Prop :=
  (∀ (s : State) (n : ChanCount) (count : Nat) (bufs : PerChan Nat) (tt : Timing),
    Launch s n count bufs tt → ∃ u, Completes s u ∧ u.phase = .idle ∧ u.flt = none ∧
      u.refused = none ∧
      (∀ c, c ∈ n.chans ∨ s.line? c = some false → u.line? c = some false) ∧
      u.ie = restoredIe s.cfg s.ie ∧
      u.cyc = s.cyc + s.cfg.tStart + 24 * count * tt.tbit + s.cfg.tExit + s.cfg.holdOf n ∧
      (newEvents s u).getLast? = some (.done u.cyc)) ∧
  ∀ s : State, s.phase = .fault ∨ s.refused ≠ none → ¬ isFinal s

/-- 40_timing_model.md R113: the critical section lasts `T_START + 24 * COUNT * tbit + T_EXIT` cycles
and the command that plus `HOLD[N]`. -/
def Obligations.CommandDuration : Prop :=
  ∀ (s : State) (n : ChanCount) (count : Nat) (bufs : PerChan Nat) (tt : Timing),
    Launch s n count bufs tt → ∃ u, Completes s u ∧
      ieEvents (newEvents s u) = [(s.cyc, false),
        (s.cyc + (s.cfg.tStart + 24 * count * tt.tbit + s.cfg.tExit), restoredIe s.cfg s.ie)] ∧
      u.cyc = s.cyc + (s.cfg.tStart + 24 * count * tt.tbit + s.cfg.tExit) + s.cfg.holdOf n

/-- 30_encoding.md R82: channel c's line events of a command are a rise at `P0 + i*tbit + phi(c)` and
a fall `H(x)` later for each bit `x` of its frame, and no others, so its line is low from each fall to
the next rise and after the last fall until Done; a channel outside the command has none. -/
def Obligations.ChannelWaveform : Prop :=
  ∀ (s : State) (n : ChanCount) (count : Nat) (bufs : PerChan Nat) (tt : Timing),
    Launch s n count bufs tt → ∃ u, Completes s u ∧
      (∀ c ∈ n.chans, ∃ phi, phase? (s.cfg.schedOf n) c = some phi ∧
        (lineEvents c (newEvents s u) =
          (frameBits s.cfg s.mem (bufs.get c) count).zipIdx.flatMap fun (x, i) =>
            [(s.cyc + s.cfg.tStart + i * tt.tbit + phi, true),
             (s.cyc + s.cfg.tStart + i * tt.tbit + phi + (if x then tt.t1h else tt.t0h), false)]) ∧
        u.line? c = some false) ∧
      ∀ c, c ∉ n.chans → lineEvents c (newEvents s u) = []

/-- 44_frame_transmitter.md R186: decoding a channel's line gives back its frame. The premise
`tbit < treset + t0h` is the model's own: with a shorter `treset` the low phase between two bits
already ends the frame, which the rule does not consider. -/
def Obligations.DecodingReadsBackTheFrame : Prop :=
  ∀ (s : State) (n : ChanCount) (count : Nat) (bufs : PerChan Nat) (tt : Timing),
    Launch s n count bufs tt → tt.tbit < tt.treset + tt.t0h → ∃ u, Completes s u ∧
      ∀ c ∈ n.chans,
        decodeTrace tt c (newEvents s u) = some (frameBits s.cfg s.mem (bufs.get c) count)

/-- 20_memory.md R66: the reads of a command: slot by slot, at the cycle the byte begins, in channel
order, `3 * N * COUNT` in all, each address of a channel once. -/
def Obligations.WhenReadsHappen : Prop :=
  ∀ (s : State) (n : ChanCount) (count : Nat) (bufs : PerChan Nat) (tt : Timing),
    Launch s n count bufs tt →
    (∃ u, Completes s u ∧
      readEvents (newEvents s u) =
        frameReads s.cfg n bufs tt.tbit (s.cyc + s.cfg.tStart) count ∧
      (readEvents (newEvents s u)).length = 3 * n.toNat * count) ∧
    ∀ c ∈ n.chans, (frameAddrs s.cfg (bufs.get c) count).Nodup

/-- 44_frame_transmitter.md R178, 30_encoding.md R79: the trace of a command ends with the interrupt
restore and `Done`, at least `treset` cycles apart, with every line of the command low. -/
def Obligations.TheHoldLastsTheResetTime : Prop :=
  ∀ (s : State) (n : ChanCount) (count : Nat) (bufs : PerChan Nat) (tt : Timing),
    Launch s n count bufs tt → ∃ u evs x, Completes s u ∧
      newEvents s u = evs ++ [.ie x (restoredIe s.cfg s.ie), .done u.cyc] ∧
      (∀ e ∈ evs, e.time ≤ x) ∧ x + tt.treset ≤ u.cyc ∧
      ∀ c ∈ n.chans, u.line? c = some false

/-- 43_interleaver.md R151: a channel's line events depend on its own bits only: two commands on one
instance, accepted at the same cycle, that give a channel the same bits give it the same events,
whatever the other channels send. -/
def Obligations.NoCrossTalk : Prop :=
  ∀ (s s' : State) (n : ChanCount) (count : Nat) (bufs bufs' : PerChan Nat) (tt : Timing)
    (c : Chan), Launch s n count bufs tt → Launch s' n count bufs' tt → s.cfg = s'.cfg →
    s.cyc = s'.cyc → c ∈ n.chans →
    frameBits s.cfg s.mem (bufs.get c) count = frameBits s'.cfg s'.mem (bufs'.get c) count →
    ∃ u u', Completes s u ∧ Completes s' u' ∧
      lineEvents c (newEvents s u) = lineEvents c (newEvents s' u')

/-- 44_frame_transmitter.md R187, 10_state.md R50: the same command on the same memory, with the
interrupt flag at the same value, makes the same trace up to the shift in time, whatever earlier
commands left in the registers. The premise on the flag is the model's own: the exit restores it. -/
def Obligations.CommandsRepeatExactly : Prop :=
  ∀ (s s' : State) (n : ChanCount) (count : Nat) (bufs : PerChan Nat) (tt : Timing),
    Launch s n count bufs tt → Launch s' n count bufs tt → s.cfg = s'.cfg → s.mem = s'.mem →
    s.ie = s'.ie → s.cyc ≤ s'.cyc →
    ∃ u u', Completes s u ∧ Completes s' u' ∧
      newEvents s' u' = (newEvents s u).map (Event.shift (s'.cyc - s.cyc))

/-- 42_bit_encoder.md R137: the encoder state of a channel as a function of the phase and of the time
`d` since its last bit start; before its first bit start, and outside phase RUN, it is `idle` (in
FAULT by the model's own choice, log 26). Which of its two names the cycle `d = tbit` has is the
model's own choice too (log 26): `periodEnd` while the next rise is not in the trace, else the bit
start is that rise and the name is `drivingHigh`. -/
def Obligations.EncoderStatesFollowTheTime : Prop :=
  ∀ (s : State) (c : Chan) (tt : Timing), timingOk tt = true →
    (s.phase ≠ .run ∨ bitStart c s.trace = none → encoderState tt s c = .idle) ∧
    ∀ start d, s.phase = .run → bitStart c s.trace = some start → s.cyc = start + d →
      (d < tt.t0h → encoderState tt s c = .drivingHigh) ∧
      (d = tt.t0h → encoderState tt s c = .maybeDropEarly) ∧
      (tt.t0h < d → d < tt.tbit → encoderState tt s c = .drivingLowOrContinuing) ∧
      (d = tt.tbit → encoderState tt s c = .periodEnd)
end

