-- ==== Sys2Proof/Laws/State.lean ====
section
/-! SUPPORT. What each field reads after each update of State, and the laws of the three-fold tables. -/
namespace Sys2Proof.Machine

@[simp] theorem State.emit_cfg (s : State) (e : Event) : (s.emit e).cfg = s.cfg := rfl
@[simp] theorem State.emit_phase (s : State) (e : Event) : (s.emit e).phase = s.phase := rfl
@[simp] theorem State.emit_pc (s : State) (e : Event) : (s.emit e).pc = s.pc := rfl
@[simp] theorem State.emit_cyc (s : State) (e : Event) : (s.emit e).cyc = s.cyc := rfl
@[simp] theorem State.emit_sh (s : State) (e : Event) : (s.emit e).sh = s.sh := rfl
@[simp] theorem State.emit_t (s : State) (e : Event) : (s.emit e).t = s.t := rfl
@[simp] theorem State.emit_biti (s : State) (e : Event) : (s.emit e).biti = s.biti := rfl
@[simp] theorem State.emit_slot (s : State) (e : Event) : (s.emit e).slot = s.slot := rfl
@[simp] theorem State.emit_k (s : State) (e : Event) : (s.emit e).k = s.k := rfl
@[simp] theorem State.emit_ncmd (s : State) (e : Event) : (s.emit e).ncmd = s.ncmd := rfl
@[simp] theorem State.emit_count (s : State) (e : Event) : (s.emit e).count = s.count := rfl
@[simp] theorem State.emit_buf (s : State) (e : Event) : (s.emit e).buf = s.buf := rfl
@[simp] theorem State.emit_ieSaved (s : State) (e : Event) : (s.emit e).ieSaved = s.ieSaved := rfl
@[simp] theorem State.emit_holdEnd (s : State) (e : Event) : (s.emit e).holdEnd = s.holdEnd := rfl
@[simp] theorem State.emit_flt (s : State) (e : Event) : (s.emit e).flt = s.flt := rfl
@[simp] theorem State.emit_refused (s : State) (e : Event) : (s.emit e).refused = s.refused := rfl
@[simp] theorem State.emit_trace (s : State) (e : Event) : (s.emit e).trace = s.trace ++ [e] := rfl
@[simp] theorem State.emit_out (s : State) (e : Event) : (s.emit e).out = s.out := rfl
@[simp] theorem State.emit_ie (s : State) (e : Event) : (s.emit e).ie = s.ie := rfl
@[simp] theorem State.emit_mem (s : State) (e : Event) : (s.emit e).mem = s.mem := rfl
@[simp] theorem State.emit_host (s : State) (e : Event) : (s.emit e).host = s.host := rfl

@[simp] theorem State.advance_cfg (s : State) (n p : Nat) : (s.advance n p).cfg = s.cfg := rfl
@[simp] theorem State.advance_phase (s : State) (n p : Nat) : (s.advance n p).phase = s.phase := rfl
@[simp] theorem State.advance_pc (s : State) (n p : Nat) : (s.advance n p).pc = p := rfl
@[simp] theorem State.advance_cyc (s : State) (n p : Nat) : (s.advance n p).cyc = s.cyc + n := rfl
@[simp] theorem State.advance_sh (s : State) (n p : Nat) : (s.advance n p).sh = s.sh := rfl
@[simp] theorem State.advance_t (s : State) (n p : Nat) : (s.advance n p).t = s.t := rfl
@[simp] theorem State.advance_biti (s : State) (n p : Nat) : (s.advance n p).biti = s.biti := rfl
@[simp] theorem State.advance_slot (s : State) (n p : Nat) : (s.advance n p).slot = s.slot := rfl
@[simp] theorem State.advance_k (s : State) (n p : Nat) : (s.advance n p).k = s.k := rfl
@[simp] theorem State.advance_ncmd (s : State) (n p : Nat) : (s.advance n p).ncmd = s.ncmd := rfl
@[simp] theorem State.advance_count (s : State) (n p : Nat) : (s.advance n p).count = s.count := rfl
@[simp] theorem State.advance_buf (s : State) (n p : Nat) : (s.advance n p).buf = s.buf := rfl
@[simp] theorem State.advance_ieSaved (s : State) (n p : Nat) : (s.advance n p).ieSaved = s.ieSaved := rfl
@[simp] theorem State.advance_holdEnd (s : State) (n p : Nat) : (s.advance n p).holdEnd = s.holdEnd := rfl
@[simp] theorem State.advance_flt (s : State) (n p : Nat) : (s.advance n p).flt = s.flt := rfl
@[simp] theorem State.advance_refused (s : State) (n p : Nat) : (s.advance n p).refused = s.refused := rfl
@[simp] theorem State.advance_trace (s : State) (n p : Nat) : (s.advance n p).trace = s.trace := rfl
@[simp] theorem State.advance_out (s : State) (n p : Nat) : (s.advance n p).out = s.out := rfl
@[simp] theorem State.advance_ie (s : State) (n p : Nat) : (s.advance n p).ie = s.ie := rfl
@[simp] theorem State.advance_mem (s : State) (n p : Nat) : (s.advance n p).mem = s.mem := rfl
@[simp] theorem State.advance_host (s : State) (n p : Nat) : (s.advance n p).host = s.host := rfl

@[simp] theorem State.releaseInterrupts_cfg (s : State) : s.releaseInterrupts.cfg = s.cfg := rfl
@[simp] theorem State.releaseInterrupts_phase (s : State) : s.releaseInterrupts.phase = s.phase := rfl
@[simp] theorem State.releaseInterrupts_pc (s : State) : s.releaseInterrupts.pc = s.pc := rfl
@[simp] theorem State.releaseInterrupts_cyc (s : State) : s.releaseInterrupts.cyc = s.cyc := rfl
@[simp] theorem State.releaseInterrupts_sh (s : State) : s.releaseInterrupts.sh = s.sh := rfl
@[simp] theorem State.releaseInterrupts_t (s : State) : s.releaseInterrupts.t = s.t := rfl
@[simp] theorem State.releaseInterrupts_biti (s : State) : s.releaseInterrupts.biti = s.biti := rfl
@[simp] theorem State.releaseInterrupts_slot (s : State) : s.releaseInterrupts.slot = s.slot := rfl
@[simp] theorem State.releaseInterrupts_k (s : State) : s.releaseInterrupts.k = s.k := rfl
@[simp] theorem State.releaseInterrupts_ncmd (s : State) : s.releaseInterrupts.ncmd = s.ncmd := rfl
@[simp] theorem State.releaseInterrupts_count (s : State) : s.releaseInterrupts.count = s.count := rfl
@[simp] theorem State.releaseInterrupts_buf (s : State) : s.releaseInterrupts.buf = s.buf := rfl
@[simp] theorem State.releaseInterrupts_ieSaved (s : State) : s.releaseInterrupts.ieSaved = s.ieSaved := rfl
@[simp] theorem State.releaseInterrupts_holdEnd (s : State) : s.releaseInterrupts.holdEnd = s.holdEnd := rfl
@[simp] theorem State.releaseInterrupts_flt (s : State) : s.releaseInterrupts.flt = s.flt := rfl
@[simp] theorem State.releaseInterrupts_refused (s : State) : s.releaseInterrupts.refused = s.refused := rfl
@[simp] theorem State.releaseInterrupts_trace (s : State) : s.releaseInterrupts.trace = s.trace ++ [.ie s.cyc s.exitFlag] := rfl
@[simp] theorem State.releaseInterrupts_out (s : State) : s.releaseInterrupts.out = s.out := rfl
@[simp] theorem State.releaseInterrupts_ie (s : State) : s.releaseInterrupts.ie = s.exitFlag := rfl
@[simp] theorem State.releaseInterrupts_mem (s : State) : s.releaseInterrupts.mem = s.mem := rfl
@[simp] theorem State.releaseInterrupts_host (s : State) : s.releaseInterrupts.host = s.host := rfl

@[simp] theorem State.raise_cfg (s : State) (f : FaultRec) : (s.raise f).cfg = s.cfg := rfl
@[simp] theorem State.raise_phase (s : State) (f : FaultRec) : (s.raise f).phase = .fault := rfl
@[simp] theorem State.raise_pc (s : State) (f : FaultRec) : (s.raise f).pc = s.pc := rfl
@[simp] theorem State.raise_cyc (s : State) (f : FaultRec) : (s.raise f).cyc = s.cyc := rfl
@[simp] theorem State.raise_sh (s : State) (f : FaultRec) : (s.raise f).sh = s.sh := rfl
@[simp] theorem State.raise_t (s : State) (f : FaultRec) : (s.raise f).t = s.t := rfl
@[simp] theorem State.raise_biti (s : State) (f : FaultRec) : (s.raise f).biti = s.biti := rfl
@[simp] theorem State.raise_slot (s : State) (f : FaultRec) : (s.raise f).slot = s.slot := rfl
@[simp] theorem State.raise_k (s : State) (f : FaultRec) : (s.raise f).k = s.k := rfl
@[simp] theorem State.raise_ncmd (s : State) (f : FaultRec) : (s.raise f).ncmd = s.ncmd := rfl
@[simp] theorem State.raise_count (s : State) (f : FaultRec) : (s.raise f).count = s.count := rfl
@[simp] theorem State.raise_buf (s : State) (f : FaultRec) : (s.raise f).buf = s.buf := rfl
@[simp] theorem State.raise_ieSaved (s : State) (f : FaultRec) : (s.raise f).ieSaved = s.ieSaved := rfl
@[simp] theorem State.raise_holdEnd (s : State) (f : FaultRec) : (s.raise f).holdEnd = s.holdEnd := rfl
@[simp] theorem State.raise_flt (s : State) (f : FaultRec) : (s.raise f).flt = some f := rfl
@[simp] theorem State.raise_refused (s : State) (f : FaultRec) : (s.raise f).refused = s.refused := rfl
@[simp] theorem State.raise_trace (s : State) (f : FaultRec) : (s.raise f).trace = s.trace ++ [.fault s.cyc f] ++ [.ie s.cyc s.exitFlag] := rfl
@[simp] theorem State.raise_out (s : State) (f : FaultRec) : (s.raise f).out = s.out := rfl
@[simp] theorem State.raise_ie (s : State) (f : FaultRec) : (s.raise f).ie = s.exitFlag := rfl
@[simp] theorem State.raise_mem (s : State) (f : FaultRec) : (s.raise f).mem = s.mem := rfl
@[simp] theorem State.raise_host (s : State) (f : FaultRec) : (s.raise f).host = s.host := rfl

@[simp] theorem State.refuse_cfg (s : State) (r : RefusalCode) : (s.refuse r).cfg = s.cfg := rfl
@[simp] theorem State.refuse_phase (s : State) (r : RefusalCode) : (s.refuse r).phase = s.phase := rfl
@[simp] theorem State.refuse_pc (s : State) (r : RefusalCode) : (s.refuse r).pc = s.pc := rfl
@[simp] theorem State.refuse_cyc (s : State) (r : RefusalCode) : (s.refuse r).cyc = s.cyc := rfl
@[simp] theorem State.refuse_sh (s : State) (r : RefusalCode) : (s.refuse r).sh = s.sh := rfl
@[simp] theorem State.refuse_t (s : State) (r : RefusalCode) : (s.refuse r).t = s.t := rfl
@[simp] theorem State.refuse_biti (s : State) (r : RefusalCode) : (s.refuse r).biti = s.biti := rfl
@[simp] theorem State.refuse_slot (s : State) (r : RefusalCode) : (s.refuse r).slot = s.slot := rfl
@[simp] theorem State.refuse_k (s : State) (r : RefusalCode) : (s.refuse r).k = s.k := rfl
@[simp] theorem State.refuse_ncmd (s : State) (r : RefusalCode) : (s.refuse r).ncmd = s.ncmd := rfl
@[simp] theorem State.refuse_count (s : State) (r : RefusalCode) : (s.refuse r).count = s.count := rfl
@[simp] theorem State.refuse_buf (s : State) (r : RefusalCode) : (s.refuse r).buf = s.buf := rfl
@[simp] theorem State.refuse_ieSaved (s : State) (r : RefusalCode) : (s.refuse r).ieSaved = s.ieSaved := rfl
@[simp] theorem State.refuse_holdEnd (s : State) (r : RefusalCode) : (s.refuse r).holdEnd = s.holdEnd := rfl
@[simp] theorem State.refuse_flt (s : State) (r : RefusalCode) : (s.refuse r).flt = s.flt := rfl
@[simp] theorem State.refuse_refused (s : State) (r : RefusalCode) : (s.refuse r).refused = some r := rfl
@[simp] theorem State.refuse_trace (s : State) (r : RefusalCode) : (s.refuse r).trace = s.trace := rfl
@[simp] theorem State.refuse_out (s : State) (r : RefusalCode) : (s.refuse r).out = s.out := rfl
@[simp] theorem State.refuse_ie (s : State) (r : RefusalCode) : (s.refuse r).ie = s.ie := rfl
@[simp] theorem State.refuse_mem (s : State) (r : RefusalCode) : (s.refuse r).mem = s.mem := rfl
@[simp] theorem State.refuse_host (s : State) (r : RefusalCode) : (s.refuse r).host = s.host := rfl

@[simp] theorem State.closeByte_cfg (s : State) : s.closeByte.cfg = s.cfg := rfl
@[simp] theorem State.closeByte_phase (s : State) : s.closeByte.phase = s.phase := rfl
@[simp] theorem State.closeByte_pc (s : State) : s.closeByte.pc = s.pc := rfl
@[simp] theorem State.closeByte_cyc (s : State) : s.closeByte.cyc = s.cyc := rfl
@[simp] theorem State.closeByte_sh (s : State) : s.closeByte.sh = s.sh := rfl
@[simp] theorem State.closeByte_t (s : State) : s.closeByte.t = s.t := rfl
@[simp] theorem State.closeByte_biti (s : State) : s.closeByte.biti = 0 := rfl
@[simp] theorem State.closeByte_slot (s : State) : s.closeByte.slot = (nextSlot s.slot s.k).1 := rfl
@[simp] theorem State.closeByte_k (s : State) : s.closeByte.k = (nextSlot s.slot s.k).2 := rfl
@[simp] theorem State.closeByte_ncmd (s : State) : s.closeByte.ncmd = s.ncmd := rfl
@[simp] theorem State.closeByte_count (s : State) : s.closeByte.count = s.count := rfl
@[simp] theorem State.closeByte_buf (s : State) : s.closeByte.buf = s.buf := rfl
@[simp] theorem State.closeByte_ieSaved (s : State) : s.closeByte.ieSaved = s.ieSaved := rfl
@[simp] theorem State.closeByte_holdEnd (s : State) : s.closeByte.holdEnd = s.holdEnd := rfl
@[simp] theorem State.closeByte_flt (s : State) : s.closeByte.flt = s.flt := rfl
@[simp] theorem State.closeByte_refused (s : State) : s.closeByte.refused = s.refused := rfl
@[simp] theorem State.closeByte_trace (s : State) : s.closeByte.trace = s.trace := rfl
@[simp] theorem State.closeByte_out (s : State) : s.closeByte.out = s.out := rfl
@[simp] theorem State.closeByte_ie (s : State) : s.closeByte.ie = s.ie := rfl
@[simp] theorem State.closeByte_mem (s : State) : s.closeByte.mem = s.mem := rfl
@[simp] theorem State.closeByte_host (s : State) : s.closeByte.host = s.host := rfl

@[simp] theorem State.maskInterrupts_cfg (s : State) : s.maskInterrupts.cfg = s.cfg := rfl
@[simp] theorem State.maskInterrupts_phase (s : State) : s.maskInterrupts.phase = s.phase := rfl
@[simp] theorem State.maskInterrupts_pc (s : State) : s.maskInterrupts.pc = s.pc := rfl
@[simp] theorem State.maskInterrupts_cyc (s : State) : s.maskInterrupts.cyc = s.cyc := rfl
@[simp] theorem State.maskInterrupts_sh (s : State) : s.maskInterrupts.sh = s.sh := rfl
@[simp] theorem State.maskInterrupts_t (s : State) : s.maskInterrupts.t = s.t := rfl
@[simp] theorem State.maskInterrupts_biti (s : State) : s.maskInterrupts.biti = s.biti := rfl
@[simp] theorem State.maskInterrupts_slot (s : State) : s.maskInterrupts.slot = s.slot := rfl
@[simp] theorem State.maskInterrupts_k (s : State) : s.maskInterrupts.k = s.k := rfl
@[simp] theorem State.maskInterrupts_ncmd (s : State) : s.maskInterrupts.ncmd = s.ncmd := rfl
@[simp] theorem State.maskInterrupts_count (s : State) : s.maskInterrupts.count = s.count := rfl
@[simp] theorem State.maskInterrupts_buf (s : State) : s.maskInterrupts.buf = s.buf := rfl
@[simp] theorem State.maskInterrupts_ieSaved (s : State) : s.maskInterrupts.ieSaved = s.ie := rfl
@[simp] theorem State.maskInterrupts_holdEnd (s : State) : s.maskInterrupts.holdEnd = s.holdEnd := rfl
@[simp] theorem State.maskInterrupts_flt (s : State) : s.maskInterrupts.flt = s.flt := rfl
@[simp] theorem State.maskInterrupts_refused (s : State) : s.maskInterrupts.refused = s.refused := rfl
@[simp] theorem State.maskInterrupts_trace (s : State) : s.maskInterrupts.trace = s.trace ++ [.ie s.cyc false] := rfl
@[simp] theorem State.maskInterrupts_out (s : State) : s.maskInterrupts.out = s.out := rfl
@[simp] theorem State.maskInterrupts_ie (s : State) : s.maskInterrupts.ie = false := rfl
@[simp] theorem State.maskInterrupts_mem (s : State) : s.maskInterrupts.mem = s.mem := rfl
@[simp] theorem State.maskInterrupts_host (s : State) : s.maskInterrupts.host = s.host := rfl

@[simp] theorem frameExit_cfg (s : State) : (frameExit s).cfg = s.cfg := rfl
@[simp] theorem frameExit_phase (s : State) : (frameExit s).phase = .hold := rfl
@[simp] theorem frameExit_pc (s : State) : (frameExit s).pc = s.pc := rfl
@[simp] theorem frameExit_cyc (s : State) : (frameExit s).cyc = s.cyc + s.cfg.tExit := rfl
@[simp] theorem frameExit_sh (s : State) : (frameExit s).sh = s.sh := rfl
@[simp] theorem frameExit_t (s : State) : (frameExit s).t = s.t := rfl
@[simp] theorem frameExit_biti (s : State) : (frameExit s).biti = s.biti := rfl
@[simp] theorem frameExit_slot (s : State) : (frameExit s).slot = s.slot := rfl
@[simp] theorem frameExit_k (s : State) : (frameExit s).k = s.k := rfl
@[simp] theorem frameExit_ncmd (s : State) : (frameExit s).ncmd = s.ncmd := rfl
@[simp] theorem frameExit_count (s : State) : (frameExit s).count = s.count := rfl
@[simp] theorem frameExit_buf (s : State) : (frameExit s).buf = s.buf := rfl
@[simp] theorem frameExit_ieSaved (s : State) : (frameExit s).ieSaved = s.ieSaved := rfl
@[simp] theorem frameExit_holdEnd (s : State) : (frameExit s).holdEnd = s.cyc + s.cfg.tExit + s.cfg.holdOf s.ncmd := rfl
@[simp] theorem frameExit_flt (s : State) : (frameExit s).flt = s.flt := rfl
@[simp] theorem frameExit_refused (s : State) : (frameExit s).refused = s.refused := rfl
@[simp] theorem frameExit_trace (s : State) : (frameExit s).trace = s.trace ++ [.ie (s.cyc + s.cfg.tExit) s.exitFlag] := rfl
@[simp] theorem frameExit_out (s : State) : (frameExit s).out = s.out := rfl
@[simp] theorem frameExit_ie (s : State) : (frameExit s).ie = s.exitFlag := rfl
@[simp] theorem frameExit_mem (s : State) : (frameExit s).mem = s.mem := rfl
@[simp] theorem frameExit_host (s : State) : (frameExit s).host = s.host := rfl

@[simp] theorem holdDone_cfg (s : State) : (holdDone s).cfg = s.cfg := rfl
@[simp] theorem holdDone_phase (s : State) : (holdDone s).phase = .idle := rfl
@[simp] theorem holdDone_pc (s : State) : (holdDone s).pc = s.pc := rfl
@[simp] theorem holdDone_cyc (s : State) : (holdDone s).cyc = s.holdEnd := rfl
@[simp] theorem holdDone_sh (s : State) : (holdDone s).sh = s.sh := rfl
@[simp] theorem holdDone_t (s : State) : (holdDone s).t = s.t := rfl
@[simp] theorem holdDone_biti (s : State) : (holdDone s).biti = s.biti := rfl
@[simp] theorem holdDone_slot (s : State) : (holdDone s).slot = s.slot := rfl
@[simp] theorem holdDone_k (s : State) : (holdDone s).k = s.k := rfl
@[simp] theorem holdDone_ncmd (s : State) : (holdDone s).ncmd = s.ncmd := rfl
@[simp] theorem holdDone_count (s : State) : (holdDone s).count = s.count := rfl
@[simp] theorem holdDone_buf (s : State) : (holdDone s).buf = s.buf := rfl
@[simp] theorem holdDone_ieSaved (s : State) : (holdDone s).ieSaved = s.ieSaved := rfl
@[simp] theorem holdDone_holdEnd (s : State) : (holdDone s).holdEnd = s.holdEnd := rfl
@[simp] theorem holdDone_flt (s : State) : (holdDone s).flt = s.flt := rfl
@[simp] theorem holdDone_refused (s : State) : (holdDone s).refused = s.refused := rfl
@[simp] theorem holdDone_trace (s : State) : (holdDone s).trace = s.trace ++ [.done s.holdEnd] := rfl
@[simp] theorem holdDone_out (s : State) : (holdDone s).out = s.out := rfl
@[simp] theorem holdDone_ie (s : State) : (holdDone s).ie = s.ie := rfl
@[simp] theorem holdDone_mem (s : State) : (holdDone s).mem = s.mem := rfl
@[simp] theorem holdDone_host (s : State) : (holdDone s).host = s.host := rfl

@[simp] theorem rotate_cfg (c : Chan) (x : Byte) (s : State) : (rotate c x s).cfg = s.cfg := rfl
@[simp] theorem rotate_phase (c : Chan) (x : Byte) (s : State) : (rotate c x s).phase = s.phase := rfl
@[simp] theorem rotate_pc (c : Chan) (x : Byte) (s : State) : (rotate c x s).pc = s.pc + 1 := rfl
@[simp] theorem rotate_cyc (c : Chan) (x : Byte) (s : State) : (rotate c x s).cyc = s.cyc + 1 := rfl
@[simp] theorem rotate_sh (c : Chan) (x : Byte) (s : State) : (rotate c x s).sh = s.sh.set c (some (shiftOut x)) := rfl
@[simp] theorem rotate_t (c : Chan) (x : Byte) (s : State) : (rotate c x s).t = s.t.set c (some (testBit x)) := rfl
@[simp] theorem rotate_biti (c : Chan) (x : Byte) (s : State) : (rotate c x s).biti = s.biti := rfl
@[simp] theorem rotate_slot (c : Chan) (x : Byte) (s : State) : (rotate c x s).slot = s.slot := rfl
@[simp] theorem rotate_k (c : Chan) (x : Byte) (s : State) : (rotate c x s).k = s.k := rfl
@[simp] theorem rotate_ncmd (c : Chan) (x : Byte) (s : State) : (rotate c x s).ncmd = s.ncmd := rfl
@[simp] theorem rotate_count (c : Chan) (x : Byte) (s : State) : (rotate c x s).count = s.count := rfl
@[simp] theorem rotate_buf (c : Chan) (x : Byte) (s : State) : (rotate c x s).buf = s.buf := rfl
@[simp] theorem rotate_ieSaved (c : Chan) (x : Byte) (s : State) : (rotate c x s).ieSaved = s.ieSaved := rfl
@[simp] theorem rotate_holdEnd (c : Chan) (x : Byte) (s : State) : (rotate c x s).holdEnd = s.holdEnd := rfl
@[simp] theorem rotate_flt (c : Chan) (x : Byte) (s : State) : (rotate c x s).flt = s.flt := rfl
@[simp] theorem rotate_refused (c : Chan) (x : Byte) (s : State) : (rotate c x s).refused = s.refused := rfl
@[simp] theorem rotate_trace (c : Chan) (x : Byte) (s : State) : (rotate c x s).trace = s.trace := rfl
@[simp] theorem rotate_out (c : Chan) (x : Byte) (s : State) : (rotate c x s).out = s.out := rfl
@[simp] theorem rotate_ie (c : Chan) (x : Byte) (s : State) : (rotate c x s).ie = s.ie := rfl
@[simp] theorem rotate_mem (c : Chan) (x : Byte) (s : State) : (rotate c x s).mem = s.mem := rfl
@[simp] theorem rotate_host (c : Chan) (x : Byte) (s : State) : (rotate c x s).host = s.host := rfl

@[simp] theorem blockReset_cfg (s : State) : (blockReset s).cfg = s.cfg := rfl
@[simp] theorem blockReset_phase (s : State) : (blockReset s).phase = .idle := rfl
@[simp] theorem blockReset_pc (s : State) : (blockReset s).pc = 0 := rfl
@[simp] theorem blockReset_cyc (s : State) : (blockReset s).cyc = 0 := rfl
@[simp] theorem blockReset_sh (s : State) : (blockReset s).sh = PerChan.all none := rfl
@[simp] theorem blockReset_t (s : State) : (blockReset s).t = PerChan.all none := rfl
@[simp] theorem blockReset_biti (s : State) : (blockReset s).biti = 0 := rfl
@[simp] theorem blockReset_slot (s : State) : (blockReset s).slot = 0 := rfl
@[simp] theorem blockReset_k (s : State) : (blockReset s).k = 0 := rfl
@[simp] theorem blockReset_ncmd (s : State) : (blockReset s).ncmd = .one := rfl
@[simp] theorem blockReset_count (s : State) : (blockReset s).count = 0 := rfl
@[simp] theorem blockReset_buf (s : State) : (blockReset s).buf = PerChan.all 0 := rfl
@[simp] theorem blockReset_ieSaved (s : State) : (blockReset s).ieSaved = false := rfl
@[simp] theorem blockReset_holdEnd (s : State) : (blockReset s).holdEnd = 0 := rfl
@[simp] theorem blockReset_flt (s : State) : (blockReset s).flt = none := rfl
@[simp] theorem blockReset_refused (s : State) : (blockReset s).refused = none := rfl
@[simp] theorem blockReset_trace (s : State) : (blockReset s).trace = [] := rfl
@[simp] theorem blockReset_out (s : State) : (blockReset s).out = s.out := rfl
@[simp] theorem blockReset_ie (s : State) : (blockReset s).ie = s.ie := rfl
@[simp] theorem blockReset_mem (s : State) : (blockReset s).mem = s.mem := rfl
@[simp] theorem blockReset_host (s : State) : (blockReset s).host = s.host := rfl

/-- A host action that counts down. -/
theorem State.tick_letRun {s : State} {n : Nat} {rest : List HostAction}
    (h : s.host = .letRun (n + 1) :: rest) : s.tick = { s with host := .letRun n :: rest } := by
  simp [State.tick, h, HostAction.tick]

/-- Any other host leaves the state as it is. -/
theorem State.tick_eq {s : State} (h : ∀ n rest, s.host ≠ .letRun (n + 1) :: rest) : s.tick = s := by
  unfold State.tick
  split
  · rfl
  · next a rest hh =>
    have : a.tick = a := by
      cases a with
      | letRun n =>
        cases n with
        | zero => rfl
        | succ n => exact absurd hh (h n rest)
      | _ => rfl
    rw [this, ← hh]

/-- Counting down writes the host's list only. -/
theorem State.tick_same (s : State) : s.tick = { s with host := s.tick.host } := by
  unfold State.tick
  split <;> rfl

@[simp] theorem State.tick_cfg (s : State) : s.tick.cfg = s.cfg := by
  rw [State.tick_same]
@[simp] theorem State.tick_phase (s : State) : s.tick.phase = s.phase := by
  rw [State.tick_same]
@[simp] theorem State.tick_pc (s : State) : s.tick.pc = s.pc := by
  rw [State.tick_same]
@[simp] theorem State.tick_cyc (s : State) : s.tick.cyc = s.cyc := by
  rw [State.tick_same]
@[simp] theorem State.tick_sh (s : State) : s.tick.sh = s.sh := by
  rw [State.tick_same]
@[simp] theorem State.tick_t (s : State) : s.tick.t = s.t := by
  rw [State.tick_same]
@[simp] theorem State.tick_biti (s : State) : s.tick.biti = s.biti := by
  rw [State.tick_same]
@[simp] theorem State.tick_slot (s : State) : s.tick.slot = s.slot := by
  rw [State.tick_same]
@[simp] theorem State.tick_k (s : State) : s.tick.k = s.k := by
  rw [State.tick_same]
@[simp] theorem State.tick_ncmd (s : State) : s.tick.ncmd = s.ncmd := by
  rw [State.tick_same]
@[simp] theorem State.tick_count (s : State) : s.tick.count = s.count := by
  rw [State.tick_same]
@[simp] theorem State.tick_buf (s : State) : s.tick.buf = s.buf := by
  rw [State.tick_same]
@[simp] theorem State.tick_ieSaved (s : State) : s.tick.ieSaved = s.ieSaved := by
  rw [State.tick_same]
@[simp] theorem State.tick_holdEnd (s : State) : s.tick.holdEnd = s.holdEnd := by
  rw [State.tick_same]
@[simp] theorem State.tick_flt (s : State) : s.tick.flt = s.flt := by
  rw [State.tick_same]
@[simp] theorem State.tick_refused (s : State) : s.tick.refused = s.refused := by
  rw [State.tick_same]
@[simp] theorem State.tick_trace (s : State) : s.tick.trace = s.trace := by
  rw [State.tick_same]
@[simp] theorem State.tick_out (s : State) : s.tick.out = s.out := by
  rw [State.tick_same]
@[simp] theorem State.tick_ie (s : State) : s.tick.ie = s.ie := by
  rw [State.tick_same]
@[simp] theorem State.tick_mem (s : State) : s.tick.mem = s.mem := by
  rw [State.tick_same]

theorem State.tick_no_host {s : State} (h : s.host = []) : s.tick = s :=
  State.tick_eq fun n rest e => by rw [h] at e; cases e

end Sys2Proof.Machine

namespace Sys2Proof

@[simp] theorem PerChan.get_set_same {α : Type} (v : PerChan α) (c : Chan) (x : α) :
    (v.set c x).get c = x := by
  match c with
  | 0 => rfl
  | 1 => rfl
  | 2 => rfl

theorem PerChan.get_set_of_ne {α : Type} (v : PerChan α) {c d : Chan} (x : α) (h : d ≠ c) :
    (v.set c x).get d = v.get d := by
  match c, d with
  | 0, 0 => exact absurd rfl h
  | 1, 1 => exact absurd rfl h
  | 2, 2 => exact absurd rfl h
  | 0, 1 | 0, 2 | 1, 0 | 1, 2 | 2, 0 | 2, 1 => rfl

theorem PerChan.get_set {α : Type} (v : PerChan α) (c d : Chan) (x : α) :
    (v.set c x).get d = if d = c then x else v.get d := by
  by_cases h : d = c
  · subst h; simp
  · simp [h, PerChan.get_set_of_ne v x h]

@[simp] theorem PerChan.get_all {α : Type} (x : α) (c : Chan) : (PerChan.all x).get c = x := by
  match c with
  | 0 => rfl
  | 1 => rfl
  | 2 => rfl

theorem PerChan.ext_get {α : Type} {v w : PerChan α} (h : ∀ c, v.get c = w.get c) : v = w := by
  obtain ⟨a, b, c⟩ := v
  obtain ⟨a', b', c'⟩ := w
  have h0 := h 0
  have h1 := h 1
  have h2 := h 2
  simp only [PerChan.get] at h0 h1 h2
  simp [h0, h1, h2]

/-- The channels of a command are those below N. -/
theorem ChanCount.mem_chans (n : ChanCount) (c : Chan) : c ∈ n.chans ↔ c.val < n.toNat := by
  revert c
  cases n <;> decide

theorem ChanCount.ofNat?_toNat (n : ChanCount) : ChanCount.ofNat? n.toNat = some n := by
  cases n <;> rfl

theorem ChanCount.toNat_of_ofNat? {n : Nat} {m : ChanCount} (h : ChanCount.ofNat? n = some m) :
    m.toNat = n := by
  match n, h with
  | 1, h => cases h; rfl
  | 2, h => cases h; rfl
  | 3, h => cases h; rfl

theorem ChanCount.chans_nodup (n : ChanCount) : n.chans.Nodup := by cases n <;> decide

end Sys2Proof
end

