-- ==== Sys2Proof/Laws/Meaning.lean ====
section
/-! SUPPORT. One lemma for each shared operation and meaning, saying everything it can do. -/
namespace Sys2Proof.Machine

/-- An event of a buffer read. -/
def Event.isRead : Event → Bool
  | .read _ _ _ => true
  | _ => false

/-- Two results that are next states are next to the same state. -/
theorem next_inj {s t : State} (h : (Host.Outcome.next s : Result) = .next t) : s = t := by
  cases h; rfl

theorem memRead_ok {s t : State} {a : Nat} {b : Byte} (h : memRead s a = .ok (t, b)) :
    a < 2 ^ addrWidth ∧ s.mem.read a = some b ∧ t = s.emit (.read s.cyc a b) := by
  unfold memRead at h
  split at h
  · next ha =>
    split at h
    · next x hx => cases h; exact ⟨ha, hx, rfl⟩
    · cases h
  · cases h

theorem memRead_error {s t : State} {a : Nat} (h : memRead s a = .error t) :
    (2 ^ addrWidth ≤ a ∨ s.mem.read a = none) ∧ t = s.raise (.oobRead a) := by
  unfold memRead at h
  split at h
  · split at h
    · cases h
    · next hx => cases h; exact ⟨.inr hx, rfl⟩
  · next ha => cases h; exact ⟨.inl (Nat.le_of_not_lt ha), rfl⟩

theorem memRead_of_readable {s : State} {a : Nat} {b : Byte} (ha : a < 2 ^ addrWidth)
    (hb : s.mem.read a = some b) : memRead s a = .ok (s.emit (.read s.cyc a b), b) := by
  unfold memRead
  rw [if_pos ha, hb]

/-- Loads that complete change only shift registers and the trace, by reads at this cycle, and give
every listed channel a byte. -/
theorem loadBytes_ok {cs : List Chan} {s t : State} (h : loadBytes cs s = .ok t) :
    ∃ sh tr, t = { s with sh := sh, trace := s.trace ++ tr } ∧
      (∀ e ∈ tr, e.time = s.cyc ∧ e.isRead = true) ∧
      (∀ c ∈ cs, sh.get c ≠ none) ∧ (∀ c, c ∉ cs → sh.get c = s.sh.get c) ∧
      (∀ c, s.sh.get c ≠ none → sh.get c ≠ none) := by
  induction cs generalizing s with
  | nil =>
    injection h with h
    subst h
    exact ⟨s.sh, [], by simp, by simp, by simp, by simp, by simp⟩
  | cons c rest ih =>
    unfold loadBytes at h
    split at h
    · cases h
    · next s' b hr =>
      obtain ⟨-, -, rfl⟩ := memRead_ok hr
      obtain ⟨sh, tr, rfl, h1, h2, h3, h4⟩ := ih h
      refine ⟨sh, .read s.cyc (s.byteAddr c) b :: tr, by simp [State.emit], ?_, ?_, ?_, ?_⟩
      · intro e he
        rcases List.mem_cons.1 he with rfl | he
        · exact ⟨rfl, rfl⟩
        · exact h1 e he
      · intro d hd
        rcases List.mem_cons.1 hd with rfl | hd
        · exact h4 d (by simp)
        · exact h2 d hd
      · intro d hd
        simp only [List.mem_cons, not_or] at hd
        rw [h3 d hd.2]
        simp [PerChan.get_set, hd.1]
      · intro d hd
        refine h4 d ?_
        by_cases hdc : d = c
        · subst hdc; simp
        · simpa [PerChan.get_set, hdc] using hd

/-- Loads that fault stop at a read that is not admitted, the loads before it kept. -/
theorem loadBytes_error {cs : List Chan} {s t : State} (h : loadBytes cs s = .error t) :
    ∃ sh tr a, t = State.raise { s with sh := sh, trace := s.trace ++ tr } (.oobRead a) ∧
      (∀ e ∈ tr, e.time = s.cyc ∧ e.isRead = true) := by
  induction cs generalizing s with
  | nil => cases h
  | cons c rest ih =>
    unfold loadBytes at h
    split at h
    · next s' hr =>
      cases h
      obtain ⟨-, rfl⟩ := memRead_error hr
      exact ⟨s.sh, [], s.byteAddr c, by simp, by simp⟩
    · next s' b hr =>
      obtain ⟨-, -, rfl⟩ := memRead_ok hr
      obtain ⟨sh, tr, a, rfl, h1⟩ := ih h
      refine ⟨sh, .read s.cyc (s.byteAddr c) b :: tr, a, by simp [State.emit], ?_⟩
      intro e he
      rcases List.mem_cons.1 he with rfl | he
      · exact ⟨rfl, rfl⟩
      · exact h1 e he

/-- Everything a channel check can answer. -/
theorem withChannel_next {c : Chan} {w : Word} {s t : State} {f : State → Result}
    (h : withChannel c w s f = .next t) :
    (c.val < s.ncmd.toNat ∧ f s = .next t) ∨
    (s.ncmd.toNat ≤ c.val ∧ t = s.raise (.illegalOp s.pc w)) := by
  unfold withChannel at h
  split at h
  · next hc => exact .inl ⟨hc, h⟩
  · next hc => exact .inr ⟨Nat.le_of_not_lt hc, (next_inj h).symm⟩

/-- Everything a read of a register that may hold no value can answer. -/
theorem withValue_next {α : Type} {c : Chan} {r : Option α} {s t : State} {f : α → Result}
    (h : withValue c r s f = .next t) :
    (∃ x, r = some x ∧ f x = .next t) ∨ (r = none ∧ t = s.raise (.noValue s.pc c)) := by
  unfold withValue at h
  split at h
  · exact .inr ⟨rfl, (next_inj h).symm⟩
  · next x => exact .inl ⟨x, rfl, h⟩

theorem outWrite_some {out out' : List Byte} {r b : Nat} {v : Bool}
    (h : outWrite out r b v = some out') :
    ∃ x, out[r]? = some x ∧ b < outWidth ∧ out' = out.set r (setBit x b v) := by
  unfold outWrite at h
  split at h
  · cases h
  · next x hx =>
    split at h
    · next hb => cases h; exact ⟨x, hx, hb, rfl⟩
    · cases h

/-- Bit `i` of a register after bit `b` was set to `v`. -/
theorem getLsbD_setBit (x : Byte) {b : Nat} (hb : b < outWidth) (v : Bool) (i : Nat) :
    (setBit x b v).getLsbD i = if i = b then v else x.getLsbD i := by
  unfold outWidth at hb
  unfold setBit
  by_cases hi : i < 8
  · have key : ((1#8 <<< b).getLsbD i) = decide (i = b) := by
      simp only [BitVec.getLsbD_shiftLeft, hi, decide_true, Bool.true_and, BitVec.getLsbD_one]
      by_cases hib : i = b
      · subst hib; simp
      · simp only [hib, decide_false]
        by_cases hlt : i < b
        · simp [hlt]
        · simp; omega
    cases v
    · simp only [Bool.false_eq_true, if_false, BitVec.getLsbD_and, BitVec.getLsbD_not, hi,
        decide_true, Bool.true_and, key]
      by_cases hib : i = b <;> simp [hib]
    · simp only [if_true, BitVec.getLsbD_or, key]
      by_cases hib : i = b <;> simp [hib]
  · have h1 : i ≠ b := by omega
    rw [BitVec.getLsbD_of_ge _ _ (by omega), BitVec.getLsbD_of_ge _ _ (by omega)]
    simp [h1]

/-- A line write changes the registers and appends its event. -/
theorem lineWrite_some {s t : State} {c : Chan} {v : Bool} {n : Nat}
    (h : lineWrite s c v n = some t) :
    ∃ x, s.out[(s.cfg.pin.get c).reg]? = some x ∧ (s.cfg.pin.get c).bit < outWidth ∧
      t = { s with
        out := s.out.set (s.cfg.pin.get c).reg (setBit x (s.cfg.pin.get c).bit v)
        trace := s.trace ++ [.line n c v] } := by
  unfold lineWrite at h
  split at h
  · cases h
  · next out ho =>
    obtain ⟨x, h1, h2, rfl⟩ := outWrite_some ho
    cases h
    exact ⟨x, h1, h2, rfl⟩

theorem lineWrite_of_pin {s : State} {c : Chan} {x : Byte} (v : Bool) (n : Nat)
    (h1 : s.out[(s.cfg.pin.get c).reg]? = some x) (h2 : (s.cfg.pin.get c).bit < outWidth) :
    lineWrite s c v n = some { s with
        out := s.out.set (s.cfg.pin.get c).reg (setBit x (s.cfg.pin.get c).bit v)
        trace := s.trace ++ [.line n c v] } := by
  simp [lineWrite, outWrite, h1, h2, State.emit]

/-- The next state of SETH or SETL of a channel of the command. -/
theorem driveLine_next {c : Chan} {v : Bool} {s t : State} (h : driveLine c v s = .next t) :
    ∃ x, s.out[(s.cfg.pin.get c).reg]? = some x ∧ (s.cfg.pin.get c).bit < outWidth ∧
      t = { s with
        out := s.out.set (s.cfg.pin.get c).reg (setBit x (s.cfg.pin.get c).bit v)
        trace := s.trace ++ [.line (s.cyc + 1) c v]
        cyc := s.cyc + 1
        pc := s.pc + 1 } := by
  unfold driveLine at h
  split at h
  · cases h
  · next s' hs =>
    obtain ⟨x, h1, h2, rfl⟩ := lineWrite_some hs
    exact ⟨x, h1, h2, (next_inj h).symm⟩

/-- What a next state of a micro-op other than END can be. -/
inductive MicroNext (s : State) : Instr → State → Prop
  | nop (n : Nat) : MicroNext s (.nop n) (s.advance n (s.pc + 1))
  | seth (c : Chan) (x : Byte) (hc : c.val < s.ncmd.toNat)
      (h1 : s.out[(s.cfg.pin.get c).reg]? = some x) (h2 : (s.cfg.pin.get c).bit < outWidth) :
      MicroNext s (.seth c) { s with
        out := s.out.set (s.cfg.pin.get c).reg (setBit x (s.cfg.pin.get c).bit true)
        trace := s.trace ++ [.line (s.cyc + 1) c true]
        cyc := s.cyc + 1
        pc := s.pc + 1 }
  | setl (c : Chan) (x : Byte) (hc : c.val < s.ncmd.toNat)
      (h1 : s.out[(s.cfg.pin.get c).reg]? = some x) (h2 : (s.cfg.pin.get c).bit < outWidth) :
      MicroNext s (.setl c) { s with
        out := s.out.set (s.cfg.pin.get c).reg (setBit x (s.cfg.pin.get c).bit false)
        trace := s.trace ++ [.line (s.cyc + 1) c false]
        cyc := s.cyc + 1
        pc := s.pc + 1 }
  | rot (c : Chan) (x : Byte) (hc : c.val < s.ncmd.toNat) (hx : s.sh.get c = some x) :
      MicroNext s (.rot c) (rotate c x s)
  | bt (c : Chan) (off : Nat) (b : Bool) (hc : c.val < s.ncmd.toNat) (hb : s.t.get c = some b) :
      MicroNext s (.bt c off) (s.advance 1 (if b then branchTarget s.pc off else s.pc + 1))
  | illegal (i : Instr) (c : Chan) (w : Word) (hi : i.channel? = some c)
      (hc : s.ncmd.toNat ≤ c.val) : MicroNext s i (s.raise (.illegalOp s.pc w))
  | noShift (c : Chan) (hc : c.val < s.ncmd.toNat) (hx : s.sh.get c = none) :
      MicroNext s (.rot c) (s.raise (.noValue s.pc c))
  | noTest (c : Chan) (off : Nat) (hc : c.val < s.ncmd.toNat) (hx : s.t.get c = none) :
      MicroNext s (.bt c off) (s.raise (.noValue s.pc c))

/-- Every next state of a micro-op other than END. -/
theorem exec_micro_next {i : Instr} {s t : State} (hm : i.isMicroOp = true) (he : i ≠ .endPath)
    (h : exec i s = .next t) : MicroNext s i t := by
  cases i with
  | nop n => cases next_inj h; exact .nop n
  | seth c =>
    rcases withChannel_next h with ⟨hc, h⟩ | ⟨hc, rfl⟩
    · obtain ⟨x, h1, h2, rfl⟩ := driveLine_next h
      exact .seth c x hc h1 h2
    · exact .illegal _ c _ rfl hc
  | setl c =>
    rcases withChannel_next h with ⟨hc, h⟩ | ⟨hc, rfl⟩
    · obtain ⟨x, h1, h2, rfl⟩ := driveLine_next h
      exact .setl c x hc h1 h2
    · exact .illegal _ c _ rfl hc
  | rot c =>
    replace h : execRot c s = .next t := h
    unfold execRot at h
    rcases withChannel_next h with ⟨hc, h⟩ | ⟨hc, rfl⟩
    · rcases withValue_next h with ⟨x, hx, h⟩ | ⟨hx, rfl⟩
      · cases next_inj h; exact .rot c x hc hx
      · exact .noShift c hc hx
    · exact .illegal _ c _ rfl hc
  | bt c off =>
    replace h : execBt c off s = .next t := h
    unfold execBt at h
    rcases withChannel_next h with ⟨hc, h⟩ | ⟨hc, rfl⟩
    · rcases withValue_next h with ⟨x, hx, h⟩ | ⟨hx, rfl⟩
      · cases next_inj h; exact .bt c off x hc hx
      · exact .noTest c off hc hx
    · exact .illegal _ c _ rfl hc
  | endPath => exact absurd rfl he
  | transmit n count bufs => cases hm

/-- What loading the next bytes and going on can come to: all loaded, or a fault on the way. -/
theorem nextByte_cases (s : State) :
    (s.k = s.count ∧ nextByte s = frameExit s) ∨
    (s.k ≠ s.count ∧ ∃ t, loadBytes s.ncmd.chans s = .ok t ∧ nextByte s = { t with pc := 0 }) ∨
    (s.k ≠ s.count ∧ ∃ t, loadBytes s.ncmd.chans s = .error t ∧ nextByte s = t) := by
  unfold nextByte
  by_cases hk : s.k = s.count
  · exact .inl ⟨hk, by rw [if_pos hk]⟩
  · rw [if_neg hk]
    cases hl : loadBytes s.ncmd.chans s with
    | ok t => exact .inr (.inl ⟨hk, t, rfl, rfl⟩)
    | error t => exact .inr (.inr ⟨hk, t, rfl, rfl⟩)

/-- END always answers a next state. -/
theorem execEndPath_next (s : State) :
    execEndPath s = .next (if lastBit s.biti then nextByte s.closeByte
      else { s with biti := s.biti + 1, pc := 0 }) := by
  unfold execEndPath
  split <;> rfl

/-- What the start of an accepted frame can come to. -/
theorem startFrame_cases (s : State) :
    (s.count = 0 ∧ startFrame s = frameExit s) ∨
    (s.count ≠ 0 ∧ ∃ t, loadBytes s.ncmd.chans s = .ok t ∧ startFrame s = { t with phase := .run }) ∨
    (s.count ≠ 0 ∧ ∃ t, loadBytes s.ncmd.chans s = .error t ∧ startFrame s = t) := by
  unfold startFrame
  by_cases hk : s.count = 0
  · exact .inl ⟨hk, by rw [if_pos hk]⟩
  · rw [if_neg hk]
    cases hl : loadBytes s.ncmd.chans s with
    | ok t => exact .inr (.inl ⟨hk, t, rfl, rfl⟩)
    | error t => exact .inr (.inr ⟨hk, t, rfl, rfl⟩)

/-- TRANSMIT always answers a next state: refused, or accepted. -/
theorem execTransmit_cases (n count : Nat) (bufs : PerChan Nat) (s : State) :
    (s.phase ≠ .idle ∧ execTransmit n count bufs s = .next (s.refuse .cmdBusy)) ∨
    (s.phase = .idle ∧ ChanCount.ofNat? n = none ∧
      execTransmit n count bufs s = .next (s.refuse .cmdN)) ∨
    (∃ m, s.phase = .idle ∧ ChanCount.ofNat? n = some m ∧ operandsFit m count bufs = false ∧
      execTransmit n count bufs s = .next (s.refuse .cmdOperand)) ∨
    (∃ m, s.phase = .idle ∧ ChanCount.ofNat? n = some m ∧ operandsFit m count bufs = true ∧
      execTransmit n count bufs s = .next (startFrame (acceptCommand m count bufs s))) := by
  unfold execTransmit
  by_cases hp : s.phase = .idle
  · rw [if_pos hp]
    cases hn : ChanCount.ofNat? n with
    | none => exact .inr (.inl ⟨hp, rfl, rfl⟩)
    | some m =>
      cases hf : operandsFit m count bufs with
      | false => exact .inr (.inr (.inl ⟨m, hp, rfl, hf, by simp [hf]⟩))
      | true => exact .inr (.inr (.inr ⟨m, hp, rfl, hf, by simp [hf]⟩))
  · exact .inl ⟨hp, by rw [if_neg hp]⟩

/-- SETH or SETL of a channel of the command whose pin exists. -/
theorem driveLine_of_pin {s : State} {c : Chan} {x : Byte} (v : Bool)
    (h1 : s.out[(s.cfg.pin.get c).reg]? = some x) (h2 : (s.cfg.pin.get c).bit < outWidth) :
    driveLine c v s = .next { s with
      out := s.out.set (s.cfg.pin.get c).reg (setBit x (s.cfg.pin.get c).bit v)
      trace := s.trace ++ [.line (s.cyc + 1) c v]
      cyc := s.cyc + 1
      pc := s.pc + 1 } := by
  rw [driveLine, lineWrite_of_pin v _ h1 h2]
  rfl

theorem withChannel_of_lt {c : Chan} {w : Word} {s : State} {f : State → Result}
    (h : c.val < s.ncmd.toNat) : withChannel c w s f = f s := by rw [withChannel, if_pos h]

theorem withChannel_of_ge {c : Chan} {w : Word} {s : State} {f : State → Result}
    (h : s.ncmd.toNat ≤ c.val) :
    withChannel c w s f = .next (s.raise (.illegalOp s.pc w)) := by
  rw [withChannel, if_neg (by omega)]

/-- ROT of a channel of the command that holds a byte. -/
theorem execRot_of_value {s : State} {c : Chan} {x : Byte} (hc : c.val < s.ncmd.toNat)
    (hx : s.sh.get c = some x) : execRot c s = .next (rotate c x s) := by
  simp only [execRot, withChannel_of_lt hc, hx, withValue]

/-- BT of a channel of the command that was rotated. -/
theorem execBt_of_value {s : State} {c : Chan} {off : Nat} {b : Bool} (hc : c.val < s.ncmd.toNat)
    (hb : s.t.get c = some b) : execBt c off s =
      .next (s.advance 1 (if b then branchTarget s.pc off else s.pc + 1)) := by
  simp only [execBt, withChannel_of_lt hc, hb, withValue]

end Sys2Proof.Machine
end

