-- ==== Sys2Proof/Laws/Run.lean ====
section
/-! SUPPORT. Runs of several steps, and the step by phase. -/
namespace Sys2Proof.Machine

/-- `k` steps of the machine from `s` end in `u`. -/
def Reaches (k : Nat) (s u : State) : Prop := Host.Core.run core k s = .next u

theorem Reaches.zero (s : State) : Reaches 0 s s := rfl

/-- `k + 1` steps of a machine are one step and then `k`. -/
theorem run_succ_iff (M : Host.Core) (k : Nat) (s u : M.State) :
    M.run (k + 1) s = .next u ↔ ∃ t, M.step s = .next t ∧ M.run k t = .next u := by
  simp only [Host.Core.run]
  cases h : M.step s <;> simp

theorem reaches_succ {k : Nat} {s u : State} :
    Reaches (k + 1) s u ↔ ∃ t, step s = .next t ∧ Reaches k t u :=
  run_succ_iff core k s u

theorem Reaches.head {k : Nat} {s t u : State} (h : step s = .next t) (h' : Reaches k t u) :
    Reaches (k + 1) s u := reaches_succ.2 ⟨t, h, h'⟩

theorem Reaches.one {s t : State} (h : step s = .next t) : Reaches 1 s t :=
  Reaches.head h (Reaches.zero t)

theorem Reaches.trans {j k : Nat} {s t u : State} (h : Reaches j s t) (h' : Reaches k t u) :
    Reaches (j + k) s u := by
  induction j generalizing s with
  | zero =>
    have : s = t := next_inj h
    subst this
    simpa using h'
  | succ j ih =>
    obtain ⟨s1, hs, h1⟩ := reaches_succ.1 h
    rw [show j + 1 + k = (j + k) + 1 by omega]
    exact Reaches.head hs (ih h1)

theorem step_no_host {s : State} (h : s.host = []) : step s = blockStep s := by
  simp [step, systemStep, h]

theorem step_run {s : State} (hp : s.phase = .run) (h : s.host = []) : step s = runStep s := by
  rw [step_no_host h, blockStep, hp]

theorem step_hold {s : State} (hp : s.phase = .hold) (h : s.host = []) :
    step s = .next (holdDone s) := by
  rw [step_no_host h, blockStep, hp]

/-- A step in RUN runs the decoded word. -/
theorem step_run_op {s : State} {w : Word} {i : Instr} (hp : s.phase = .run) (h : s.host = [])
    (hw : s.schedule[s.pc]? = some w) (hi : decode w = some i) : step s = exec i s := by
  rw [step_run hp h, runStep, fetch, hw]
  simp only [hi]

/-- In IDLE the host's TRANSMIT is taken. -/
theorem step_transmit {s : State} {n count : Nat} {bufs : PerChan Nat} {rest : List HostAction}
    (hp : s.phase = .idle) (h : s.host = .transmit n count bufs :: rest) :
    step s = exec (.transmit n count bufs) { s with host := rest } := by
  simp [step, systemStep, h, HostAction.mayStep, hp, hostStep]

/-- Every micro-op of a decoded word is one. -/
theorem decode_isMicroOp {w : Word} {i : Instr} (h : decode w = some i) : i.isMicroOp = true := by
  unfold decode decodeFormatC at h
  split at h
  · cases h; rfl
  all_goals first
    | (split at h <;> first | (cases h; done) | (simp only [Option.map_eq_some_iff] at h; obtain ⟨c, -, rfl⟩ := h; rfl) | (cases h; rfl))
    | (simp only [Option.map_eq_some_iff] at h; obtain ⟨c, -, rfl⟩ := h; rfl)
    | cases h

end Sys2Proof.Machine
end

