-- ==== Sys2Proof/Laws/Lines.lean ====
section
/-! SUPPORT. The lines of a built instance: pins exist and are distinct, so a line write sets its own
channel's line and leaves every other line as it was. -/
namespace Sys2Proof.Machine

/-- The pins of a configuration exist among `k` output registers and are pairwise distinct. -/
structure PinsExist (cfg : Config) (k : Nat) : Prop where
  reg : ∀ c, (cfg.pin.get c).reg < k
  bit : ∀ c, (cfg.pin.get c).bit < outWidth
  inj : ∀ c d, cfg.pin.get c = cfg.pin.get d → c = d

theorem pinsOk_exist {cfg : Config} {k : Nat} (h : pinsOk k cfg.pin = true) : PinsExist cfg k := by
  simp only [pinsOk, List.all_cons, List.all_nil, Bool.and_true, Bool.and_eq_true,
    decide_eq_true_eq] at h
  obtain ⟨⟨⟨⟨h0, h1, h2⟩, h3⟩, h4⟩, h5⟩ := h
  refine ⟨fun c => ?_, fun c => ?_, fun c d hcd => ?_⟩
  · match c with
    | 0 => exact h0.1
    | 1 => exact h1.1
    | 2 => exact h2.1
  · match c with
    | 0 => exact h0.2
    | 1 => exact h1.2
    | 2 => exact h2.2
  · match c, d with
    | 0, 0 | 1, 1 | 2, 2 => rfl
    | 0, 1 => exact absurd hcd h3
    | 1, 0 => exact absurd hcd.symm h3
    | 0, 2 => exact absurd hcd h4
    | 2, 0 => exact absurd hcd.symm h4
    | 1, 2 => exact absurd hcd h5
    | 2, 1 => exact absurd hcd.symm h5

/-- The selected entry is that of a row of the table. -/
theorem lookupTiming_mem {f : Nat} {table : List TimingRow} {tt : Timing}
    (h : lookupTiming f table = some tt) : ∃ r ∈ table, r.freq = f ∧ r.entry = tt := by
  induction table with
  | nil => cases h
  | cons r rest ih =>
    unfold lookupTiming at h
    split at h
    · next hf => cases h; exact ⟨r, List.mem_cons_self .., hf, rfl⟩
    · obtain ⟨x, hx, h'⟩ := ih h
      exact ⟨x, List.mem_cons_of_mem _ hx, h'⟩

/-- In a table of good entries the selected one is good. -/
theorem tableOk_selected {cfg : Config} {tt : Timing} (h : tableOk cfg.table = true)
    (ht : selectedTiming cfg = some tt) : timingOk tt = true := by
  obtain ⟨r, hr, -, rfl⟩ := lookupTiming_mem ht
  exact List.all_eq_true.1 h r hr

/-- What a build that is not refused has passed. -/
theorem buildRefusal_none {cfg : Config} (h : buildRefusal cfg = none) :
    ∃ tt, selectedTiming cfg = some tt ∧ timingOk tt = true ∧ pinsOk cfg.nReg cfg.pin = true ∧
      orderOk cfg.order = true ∧ holdsOk cfg.hold tt.treset = true ∧ schedulesOk cfg tt = true := by
  unfold buildRefusal at h
  split at h
  · cases h
  · next tt htt =>
    refine ⟨tt, htt, ?_⟩
    cases h1 : tableOk cfg.table
    · simp [h1] at h
    cases h2 : pinsOk cfg.nReg cfg.pin
    · simp [h1, h2] at h
    cases h3 : orderOk cfg.order
    · simp [h1, h2, h3] at h
    cases h4 : holdsOk cfg.hold tt.treset
    · simp [h1, h2, h3, h4] at h
    cases h5 : schedulesOk cfg tt
    · simp [h1, h2, h3, h4, h5] at h
    simp [tableOk_selected h1 htt]

theorem Built.pins {s : State} (h : Built s) : PinsExist s.cfg s.out.length := by
  obtain ⟨tt, -, -, hp, -⟩ := buildRefusal_none h.1
  rw [h.2]
  exact pinsOk_exist hp

theorem Built.schedule_wf {s : State} {tt : Timing} (h : Built s)
    (ht : selectedTiming s.cfg = some tt) (n : ChanCount) :
    scheduleWf (s.cfg.schedOf n) n tt = true := by
  obtain ⟨tt', htt, -, -, -, -, hs⟩ := buildRefusal_none h.1
  rw [ht] at htt
  cases htt
  simp only [schedulesOk, List.all_cons, List.all_nil, Bool.and_true, Bool.and_eq_true] at hs
  cases n
  · exact hs.1
  · exact hs.2.1
  · exact hs.2.2

/-- A channel's output register, when the pins exist. -/
theorem PinsExist.out_some {cfg : Config} {out : List Byte} (h : PinsExist cfg out.length)
    (c : Chan) : ∃ x, out[(cfg.pin.get c).reg]? = some x :=
  ⟨_, List.getElem?_eq_getElem (h.reg c)⟩

/-- The bit at a place of the output registers. -/
def outBit (out : List Byte) (r b : Nat) : Option Bool := (out[r]?).map fun x => x.getLsbD b

/-- The bits of the output registers after one of them was written. -/
theorem outBit_set {out : List Byte} {r b : Nat} {x : Byte} (v : Bool) (h : out[r]? = some x)
    (hb : b < outWidth) (r' b' : Nat) :
    outBit (out.set r (setBit x b v)) r' b' =
      if r' = r ∧ b' = b then some v else outBit out r' b' := by
  have hr : r < out.length := by
    rcases Nat.lt_or_ge r out.length with hlt | hge
    · exact hlt
    · rw [List.getElem?_eq_none hge] at h; cases h
  unfold outBit
  by_cases hrr : r' = r
  · subst hrr
    rw [List.getElem?_set_self hr]
    simp only [Option.map_some, getLsbD_setBit x hb, h]
    by_cases hbb : b' = b <;> simp [hbb]
  · rw [List.getElem?_set_ne (fun e => hrr e.symm)]
    simp [hrr]

theorem line?_eq_outBit (s : State) (c : Chan) :
    s.line? c = outBit s.out (s.cfg.pin.get c).reg (s.cfg.pin.get c).bit := rfl

/-- A line write sets its own channel's line and leaves the other lines. -/
theorem line?_write {s t : State} {d : Chan} {x : Byte} {v : Bool}
    (hp : PinsExist s.cfg s.out.length) (hx : s.out[(s.cfg.pin.get d).reg]? = some x)
    (hcfg : t.cfg = s.cfg)
    (hout : t.out = s.out.set (s.cfg.pin.get d).reg (setBit x (s.cfg.pin.get d).bit v)) (c : Chan) :
    t.line? c = if c = d then some v else s.line? c := by
  rw [line?_eq_outBit, line?_eq_outBit, hcfg, hout, outBit_set v hx (hp.bit d)]
  by_cases hcd : c = d
  · subst hcd; simp
  · rw [if_neg hcd, if_neg]
    rintro ⟨h1, h2⟩
    refine hcd (hp.inj c d ?_)
    cases hc : s.cfg.pin.get c
    cases hd : s.cfg.pin.get d
    simp_all

end Sys2Proof.Machine
end

