-- ==== Sys2Proof/Laws/Path.lean ====
section
/-! SUPPORT. A run through the rest of a path of the schedule (30_encoding.md R95 to R97): it takes
exactly the path's cost and produces exactly the path's line events. -/
namespace Sys2Proof.Machine

/-- The level of channel c's line after a micro-op. -/
def levelAfter (c : Chan) (l : Option Bool) (o : PathOp) : Option Bool :=
  if o.op = .seth c then some true else if o.op = .setl c then some false else l

/-- What a walk is made of. -/
theorem walk_cases {s : List Word} {v : PerChan Bool} {f p t : Nat} {tb : PerChan Bool}
    {ops : List PathOp} (h : walk s v (f + 1) p t tb = some ops) :
    ∃ w i, s[p]? = some w ∧ decode w = some i ∧
      ((i = .endPath ∧ ops = [⟨t, p, i⟩]) ∨
       (i ≠ .endPath ∧ ∃ rest, walk s v f (pathNext i p tb) (t + cost i) (pathTest i v tb) =
          some rest ∧ ops = ⟨t, p, i⟩ :: rest)) := by
  unfold walk at h
  split at h
  · cases h
  · next w hw =>
    split at h
    · cases h
    · next i hi =>
      refine ⟨w, i, hw, hi, ?_⟩
      by_cases he : i = .endPath
      · rw [if_pos he] at h
        cases h
        exact .inl ⟨he, rfl⟩
      · rw [if_neg he, Option.map_eq_some_iff] at h
        obtain ⟨rest, hr, rfl⟩ := h
        exact .inr ⟨he, rest, hr, rfl⟩

theorem walk_ne_nil {s : List Word} {v : PerChan Bool} {f p t : Nat} {tb : PerChan Bool}
    {ops : List PathOp} (h : walk s v f p t tb = some ops) : ops ≠ [] := by
  cases f with
  | zero => cases h
  | succ f =>
    obtain ⟨w, i, -, -, ⟨-, rfl⟩ | ⟨-, rest, -, rfl⟩⟩ := walk_cases h <;> simp

/-- Before its path ends, a channel of the command is either rotated already, and will not be again,
or holds its path bit at bit 7, and will be rotated once before any branch on it. -/
def ChanReady (s : State) (v tb : PerChan Bool) (ops : List PathOp) (c : Chan) : Prop :=
  ∃ x, s.sh.get c = some x ∧
    ((s.t.get c = some (v.get c) ∧ tb.get c = v.get c ∧ occurrences (.rot c) ops = 0) ∨
     (testBit x = v.get c ∧ occurrences (.rot c) ops = 1 ∧
       ∀ o ∈ before (.rot c) ops, isBranchOn c o.op = false))

/-- What is true where the rest of a path, started in `s`, stands at its END. -/
structure PathEnd (s u : State) (v : PerChan Bool) (p : Nat) (ops : List PathOp) : Prop where
  same : u = { s with
    pc := u.pc, cyc := s.cyc + pathCost ops, sh := u.sh, t := u.t, out := u.out
    trace := s.trace ++ pathEvents p ops }
  atEnd : ∃ w, u.schedule[u.pc]? = some w ∧ decode w = some .endPath
  last : ops.getLast?.map PathOp.index = some u.pc
  test : ∀ c ∈ s.ncmd.chans, u.t.get c = some (v.get c)
  shift : ∀ c ∈ s.ncmd.chans, ∃ x, s.sh.get c = some x ∧
    u.sh.get c = some (if occurrences (.rot c) ops = 0 then x else shiftOut x)
  others : ∀ c, c ∉ s.ncmd.chans → u.sh.get c = s.sh.get c ∧ u.t.get c = s.t.get c
  outLen : u.out.length = s.out.length
  level : ∀ c, u.line? c = ops.foldl (levelAfter c) (s.line? c)

theorem occurrences_cons (i : Instr) (o : PathOp) (ops : List PathOp) :
    occurrences i (o :: ops) = (if o.op = i then 1 else 0) + occurrences i ops := by
  unfold occurrences
  by_cases h : o.op = i
  · simp [h]; omega
  · simp [h]

theorem before_cons (i : Instr) (o : PathOp) (ops : List PathOp) :
    before i (o :: ops) = if o.op = i then [] else o :: before i ops := by
  unfold before
  by_cases h : o.op = i <;> simp [h]

theorem pathCost_cons (o : PathOp) (ops : List PathOp) :
    pathCost (o :: ops) = cost o.op + pathCost ops := by
  simp [pathCost]

/-- The state after one micro-op of a path other than END. -/
structure OpDone (s s' : State) (i : Instr) (p : Nat) (o : PathOp) (v tb : PerChan Bool) : Prop where
  same : s' = { s with
    pc := pathNext i s.pc tb, cyc := s.cyc + cost i, sh := s'.sh, t := s'.t, out := s'.out
    trace := s.trace ++ (opEvent p o).toList }
  ready : ∀ ops, ∀ c ∈ s.ncmd.chans, ChanReady s v tb (o :: ops) c →
    ChanReady s' v (pathTest i v tb) ops c ∧
    ∃ x, s.sh.get c = some x ∧ s'.sh.get c = some (if i = .rot c then shiftOut x else x)
  others : ∀ c, c ∉ s.ncmd.chans → s'.sh.get c = s.sh.get c ∧ s'.t.get c = s.t.get c
  outLen : s'.out.length = s.out.length
  level : ∀ c, s'.line? c = levelAfter c (s.line? c) o

/-- A channel's readiness carries over a micro-op that is no ROT or BT of it. -/
theorem ChanReady.skip {s s' : State} {v tb tb' : PerChan Bool} {o : PathOp} {ops : List PathOp}
    {c : Chan} (h : ChanReady s v tb (o :: ops) c) (ho : o.op ≠ .rot c)
    (hs : s'.sh.get c = s.sh.get c) (ht : s'.t.get c = s.t.get c) (htb : tb'.get c = tb.get c) :
    ChanReady s' v tb' ops c := by
  obtain ⟨x, hx, h⟩ := h
  refine ⟨x, by rw [hs, hx], ?_⟩
  rw [occurrences_cons, before_cons, if_neg ho, if_neg ho, Nat.zero_add] at h
  rcases h with ⟨h1, h2, h3⟩ | ⟨h1, h2, h3⟩
  · exact .inl ⟨by rw [ht, h1], by rw [htb, h2], h3⟩
  · exact .inr ⟨h1, h2, fun o' ho' => h3 o' (List.mem_cons_of_mem _ ho')⟩

/-- A channel that is about to be rotated. -/
theorem ChanReady.at_rot {s : State} {v tb : PerChan Bool} {o : PathOp} {ops : List PathOp}
    {c : Chan} (h : ChanReady s v tb (o :: ops) c) (ho : o.op = .rot c) :
    ∃ x, s.sh.get c = some x ∧ testBit x = v.get c ∧ occurrences (.rot c) ops = 0 := by
  obtain ⟨x, hx, h⟩ := h
  rw [occurrences_cons, if_pos ho] at h
  rcases h with ⟨-, -, h3⟩ | ⟨h1, h2, -⟩
  · omega
  · exact ⟨x, hx, h1, by omega⟩

/-- A channel that is about to be tested. -/
theorem ChanReady.at_bt {s : State} {v tb : PerChan Bool} {o : PathOp} {ops : List PathOp}
    {c : Chan} {off : Nat} (h : ChanReady s v tb (o :: ops) c) (ho : o.op = .bt c off) :
    s.t.get c = some (v.get c) ∧ tb.get c = v.get c := by
  obtain ⟨x, hx, h⟩ := h
  rcases h with ⟨h1, h2, -⟩ | ⟨-, -, h3⟩
  · exact ⟨h1, h2⟩
  · rw [before_cons, if_neg (by rw [ho]; simp)] at h3
    have := h3 o (List.mem_cons_self ..)
    rw [ho] at this
    simp [isBranchOn] at this

/-- One micro-op of a path other than END runs and does what the path says of it. -/
theorem exec_opDone {s : State} {i : Instr} {p : Nat} {o : PathOp} {v tb : PerChan Bool}
    {ops : List PathOp} (hm : i.isMicroOp = true) (he : i ≠ .endPath) (ho : o.op = i)
    (hcyc : s.cyc = p + o.start) (hpins : PinsExist s.cfg s.out.length)
    (hchan : ∀ c, i.channel? = some c → c ∈ s.ncmd.chans)
    (hready : ∀ c ∈ s.ncmd.chans, ChanReady s v tb (o :: ops) c) :
    ∃ s', exec i s = .next s' ∧ OpDone s s' i p o v tb := by
  have keep : ∀ {s' : State} {c : Chan}, o.op ≠ .rot c → s'.sh = s.sh → s'.t = s.t →
      ∀ ops, ChanReady s v tb (o :: ops) c → ChanReady s' v tb ops c ∧
        ∃ x, s.sh.get c = some x ∧ s'.sh.get c = some x := by
    intro s' c hr hs ht ops h
    obtain ⟨x, hx, _⟩ := id h
    exact ⟨h.skip hr (by rw [hs]) (by rw [ht]) rfl, x, hx, by rw [hs, hx]⟩
  cases i with
  | nop n =>
    refine ⟨_, rfl, ?_, ?_, fun c _ => ⟨rfl, rfl⟩, rfl, ?_⟩
    · simp [State.advance, opEvent, ho, pathNext, cost]
    · intro ops c _ h
      simpa [pathTest] using keep (s' := s.advance n (s.pc + 1)) (by rw [ho]; simp) rfl rfl ops h
    · intro c; simp [levelAfter, ho, State.line?]
  | seth d =>
    have hd := hchan d rfl
    obtain ⟨x, hx⟩ := hpins.out_some d
    obtain ⟨s', hexec, hs'⟩ : ∃ s', exec (.seth d) s = .next s' ∧ s' = { s with
        out := s.out.set (s.cfg.pin.get d).reg (setBit x (s.cfg.pin.get d).bit true)
        trace := s.trace ++ [.line (s.cyc + 1) d true], cyc := s.cyc + 1, pc := s.pc + 1 } :=
      ⟨_, (withChannel_of_lt ((s.ncmd.mem_chans d).1 hd)).trans
        (driveLine_of_pin true hx (hpins.bit d)), rfl⟩
    have hsh : s'.sh = s.sh := by rw [hs']
    have ht : s'.t = s.t := by rw [hs']
    refine ⟨s', hexec, ?_, ?_, fun c _ => ⟨by rw [hsh], by rw [ht]⟩, by simp [hs'], ?_⟩
    · simp [hs', opEvent, ho, pathNext, cost, hcyc]
    · intro ops c _ h
      simpa [pathTest] using keep (by rw [ho]; simp) hsh ht ops h
    · intro c
      rw [line?_write hpins hx (by rw [hs']) (by rw [hs']) c]
      by_cases hcd : c = d
      · subst hcd; simp [levelAfter, ho]
      · have hdc : d ≠ c := fun e => hcd e.symm
        simp [levelAfter, ho, hcd, hdc]
  | setl d =>
    have hd := hchan d rfl
    obtain ⟨x, hx⟩ := hpins.out_some d
    obtain ⟨s', hexec, hs'⟩ : ∃ s', exec (.setl d) s = .next s' ∧ s' = { s with
        out := s.out.set (s.cfg.pin.get d).reg (setBit x (s.cfg.pin.get d).bit false)
        trace := s.trace ++ [.line (s.cyc + 1) d false], cyc := s.cyc + 1, pc := s.pc + 1 } :=
      ⟨_, (withChannel_of_lt ((s.ncmd.mem_chans d).1 hd)).trans
        (driveLine_of_pin false hx (hpins.bit d)), rfl⟩
    have hsh : s'.sh = s.sh := by rw [hs']
    have ht : s'.t = s.t := by rw [hs']
    refine ⟨s', hexec, ?_, ?_, fun c _ => ⟨by rw [hsh], by rw [ht]⟩, by simp [hs'], ?_⟩
    · simp [hs', opEvent, ho, pathNext, cost, hcyc]
    · intro ops c _ h
      simpa [pathTest] using keep (by rw [ho]; simp) hsh ht ops h
    · intro c
      rw [line?_write hpins hx (by rw [hs']) (by rw [hs']) c]
      by_cases hcd : c = d
      · subst hcd; simp [levelAfter, ho]
      · have hdc : d ≠ c := fun e => hcd e.symm
        simp [levelAfter, ho, hcd, hdc]
  | rot d =>
    have hd := hchan d rfl
    obtain ⟨x, hx, hbit, hocc⟩ := (hready d hd).at_rot ho
    refine ⟨rotate d x s, execRot_of_value ((s.ncmd.mem_chans d).1 hd) hx, ?_, ?_, ?_, rfl, ?_⟩
    · simp [rotate, State.advance, opEvent, ho, pathNext, cost]
    · intro ops' c hc h
      by_cases hcd : c = d
      · subst hcd
        obtain ⟨x', hx', hb', ho'⟩ := h.at_rot ho
        rw [hx] at hx'
        cases hx'
        refine ⟨⟨shiftOut x, by simp, .inl ⟨by simp [hbit], by simp [pathTest], ho'⟩⟩, x, hx,
          by simp⟩
      · obtain ⟨y, hy, _⟩ := id h
        refine ⟨h.skip (by rw [ho]; simpa using fun e => hcd e.symm)
          (by simp [PerChan.get_set, hcd]) (by simp [PerChan.get_set, hcd])
          (by simp [pathTest, PerChan.get_set, hcd]), y, hy, ?_⟩
        simpa [PerChan.get_set, hcd, hy] using fun e : d = c => absurd e.symm hcd
    · intro c hc
      have hcd : c ≠ d := fun e => hc (e ▸ hd)
      simp [PerChan.get_set, hcd]
    · intro c; simp [levelAfter, ho, State.line?]
  | bt d off =>
    have hd := hchan d rfl
    obtain ⟨ht, htb⟩ := (hready d hd).at_bt ho
    have hexec : exec (.bt d off) s = _ := execBt_of_value ((s.ncmd.mem_chans d).1 hd) ht
    refine ⟨_, hexec, ?_, ?_, fun c _ => ⟨rfl, rfl⟩, rfl, ?_⟩
    · simp [State.advance, opEvent, ho, pathNext, cost, htb, branchTarget]
    · intro ops c _ h
      simpa [pathTest] using
        keep (s' := s.advance 1 (if v.get d then branchTarget s.pc off else s.pc + 1))
          (by rw [ho]; simp) rfl rfl ops h
    · intro c; simp [levelAfter, ho, State.line?]
  | endPath => exact absurd rfl he
  | transmit n count bufs => cases hm

/-- A run through the rest of a path, from any of its micro-ops to its END. -/
theorem walk_run {v : PerChan Bool} {p : Nat} (f : Nat) :
    ∀ {t : Nat} {tb : PerChan Bool} {ops : List PathOp} {s : State},
    walk s.schedule v f s.pc t tb = some ops → s.phase = .run → s.host = [] → s.cyc = p + t →
    wf2 s.schedule s.ncmd = true → PinsExist s.cfg s.out.length →
    (∀ c ∈ s.ncmd.chans, ChanReady s v tb ops c) →
    ∃ k u, Reaches k s u ∧ PathEnd s u v p ops := by
  induction f with
  | zero => intro t tb ops s h; cases h
  | succ f ih =>
    intro t tb ops s h hphase hhost hcyc hwf hpins hready
    obtain ⟨w, i, hw, hi, ⟨rfl, rfl⟩ | ⟨he, rest, hrest, rfl⟩⟩ := walk_cases h
    · refine ⟨0, s, Reaches.zero s, ?_, ⟨w, hw, hi⟩, rfl, ?_, ?_, fun c _ => ⟨rfl, rfl⟩, rfl, ?_⟩
      · simp [pathCost, cost, pathEvents, opEvent, List.filterMap_cons]
      · intro c hc
        obtain ⟨x, -, ⟨h1, -, -⟩ | ⟨-, h2, -⟩⟩ := hready c hc
        · exact h1
        · simp [occurrences] at h2
      · intro c hc
        obtain ⟨x, hx, -⟩ := hready c hc
        exact ⟨x, hx, by simp [occurrences, hx]⟩
      · intro c; simp [levelAfter]
    · have hm := decode_isMicroOp hi
      have hmem : w ∈ s.schedule := List.mem_of_getElem? hw
      have hlegal := List.all_eq_true.1 hwf w hmem
      have hchan : ∀ c, i.channel? = some c → c ∈ s.ncmd.chans := by
        intro c hc
        simp only [wordLegal, hi, hc, decide_eq_true_eq] at hlegal
        exact (s.ncmd.mem_chans c).2 hlegal
      obtain ⟨s', hexec, hd⟩ := exec_opDone (o := ⟨t, s.pc, i⟩) (p := p) hm he rfl hcyc hpins
        hchan hready
      have hstep : step s = .next s' := by rw [step_run_op hphase hhost hw hi, hexec]
      have hsame := hd.same
      have e1 : s'.schedule = s.schedule := by rw [hsame]; rfl
      have e2 : s'.pc = pathNext i s.pc tb := by rw [hsame]
      have e3 : s'.cyc = s.cyc + cost i := by rw [hsame]
      have e4 : s'.ncmd = s.ncmd := by rw [hsame]
      have e5 : s'.cfg = s.cfg := by rw [hsame]
      have e6 : s'.phase = .run := by rw [hsame]; exact hphase
      have e7 : s'.host = [] := by rw [hsame]; exact hhost
      obtain ⟨k, u, hk, hu⟩ := ih (s := s') (t := t + cost i) (tb := pathTest i v tb) (ops := rest)
        (by rw [e1, e2]; exact hrest) e6 e7 (by rw [e3, hcyc]; omega) (by rw [e1, e4]; exact hwf)
        (by rw [e5, hd.outLen]; exact hpins)
        (by rw [e4]; intro c hc; exact (hd.ready rest c hc (hready c hc)).1)
      refine ⟨k + 1, u, Reaches.head hstep hk, ?_, ?_, ?_, ?_, ?_, ?_, ?_, ?_⟩
      · rw [hu.same]
        rw [hsame]
        simp [pathCost_cons, pathEvents, List.filterMap_cons, Nat.add_assoc]
        cases opEvent p ⟨t, s.pc, i⟩ <;> simp
      · exact hu.atEnd
      · have hne := walk_ne_nil hrest
        rw [← hu.last, List.getLast?_cons]
        cases hl : rest.getLast? with
        | none => exact absurd (List.getLast?_eq_none_iff.1 hl) hne
        | some x => simp
      · intro c hc; exact hu.test c (by rw [e4]; exact hc)
      · intro c hc
        obtain ⟨-, x, hx, hx'⟩ := hd.ready rest c hc (hready c hc)
        obtain ⟨y, hy, hy'⟩ := hu.shift c (by rw [e4]; exact hc)
        rw [hx'] at hy
        cases hy
        refine ⟨x, hx, ?_⟩
        rw [hy', occurrences_cons]
        by_cases hr : i = .rot c
        · subst hr
          obtain ⟨x', hx'', -, hocc⟩ := (hready c hc).at_rot rfl
          simp [hocc]
        · simp [hr]
      · intro c hc
        have h1 := hd.others c hc
        have h2 := hu.others c (by rw [e4]; exact hc)
        exact ⟨h2.1.trans h1.1, h2.2.trans h1.2⟩
      · rw [hu.outLen, hd.outLen]
      · intro c
        rw [hu.level, hd.level, List.foldl_cons]

end Sys2Proof.Machine
end

