-- ==== Sys2Proof/Laws/Wf.lean ====
section
/-! SUPPORT. What WF (30_encoding.md R97) says of each path: its cost, its one ROT of each channel
before any branch on it, and its two line events of each channel. -/
namespace Sys2Proof.Machine

theorem lineEvents_append (c : Chan) (a b : List Event) :
    lineEvents c (a ++ b) = lineEvents c a ++ lineEvents c b := by simp [lineEvents]

theorem readEvents_append (a b : List Event) : readEvents (a ++ b) = readEvents a ++ readEvents b := by
  simp [readEvents]

theorem ieEvents_append (a b : List Event) : ieEvents (a ++ b) = ieEvents a ++ ieEvents b := by
  simp [ieEvents]

theorem pathEvents_cons (p : Nat) (o : PathOp) (ops : List PathOp) :
    pathEvents p (o :: ops) = (opEvent p o).toList ++ pathEvents p ops := by
  simp only [pathEvents, List.filterMap_cons]
  cases opEvent p o <;> simp

/-- The line event of channel c that a micro-op makes. -/
theorem lineEvents_opEvent (c : Chan) (p : Nat) (o : PathOp) :
    lineEvents c (opEvent p o).toList =
      if o.op = .seth c then [(p + o.start + 1, true)]
      else if o.op = .setl c then [(p + o.start + 1, false)] else [] := by
  obtain ⟨t, i, op⟩ := o
  cases op <;> simp [opEvent, lineEvents, List.filterMap_cons] <;> split <;> simp_all

theorem effectTime_cons (i : Instr) (o : PathOp) (ops : List PathOp) :
    effectTime i (o :: ops) = if o.op = i then some (o.start + 1) else effectTime i ops := by
  unfold effectTime
  by_cases h : o.op = i <;> simp [h]

/-- A path without SETH c and SETL c leaves channel c alone. -/
theorem lineEvents_none {c : Chan} {p : Nat} {ops : List PathOp}
    (h1 : occurrences (.seth c) ops = 0) (h2 : occurrences (.setl c) ops = 0) :
    lineEvents c (pathEvents p ops) = [] ∧ ∀ l, ops.foldl (levelAfter c) l = l := by
  induction ops with
  | nil => exact ⟨rfl, fun l => rfl⟩
  | cons o ops ih =>
    rw [occurrences_cons] at h1 h2
    have n1 : o.op ≠ .seth c := fun e => by rw [if_pos e] at h1; omega
    have n2 : o.op ≠ .setl c := fun e => by rw [if_pos e] at h2; omega
    rw [if_neg n1] at h1
    rw [if_neg n2] at h2
    obtain ⟨i1, i2⟩ := ih (by omega) (by omega)
    refine ⟨?_, fun l => ?_⟩
    · rw [pathEvents_cons, lineEvents_append, i1, lineEvents_opEvent, if_neg n1, if_neg n2]
      rfl
    · rw [List.foldl_cons, i2, levelAfter, if_neg n1, if_neg n2]

/-- A path with one SETL c and no SETH c ends with the line low. -/
theorem lineEvents_fall {c : Chan} {p f : Nat} {ops : List PathOp}
    (h1 : occurrences (.seth c) ops = 0) (h2 : occurrences (.setl c) ops = 1)
    (hf : fall c ops = some f) :
    lineEvents c (pathEvents p ops) = [(p + f, false)] ∧
      ∀ l, ops.foldl (levelAfter c) l = some false := by
  induction ops with
  | nil => simp [occurrences] at h2
  | cons o ops ih =>
    unfold fall at hf ih
    rw [occurrences_cons] at h1 h2
    rw [effectTime_cons] at hf
    have n1 : o.op ≠ .seth c := fun e => by rw [if_pos e] at h1; omega
    rw [if_neg n1] at h1
    by_cases n2 : o.op = .setl c
    · rw [if_pos n2] at h2 hf
      cases hf
      obtain ⟨i1, i2⟩ := lineEvents_none (p := p) (c := c) (ops := ops) (by omega) (by omega)
      refine ⟨?_, fun l => ?_⟩
      · rw [pathEvents_cons, lineEvents_append, i1, lineEvents_opEvent, if_neg n1, if_pos n2]
        rfl
      · rw [List.foldl_cons, i2, levelAfter, if_neg n1, if_pos n2]
    · rw [if_neg n2] at h2 hf
      obtain ⟨i1, i2⟩ := ih (by omega) (by omega) hf
      refine ⟨?_, fun l => ?_⟩
      · rw [pathEvents_cons, lineEvents_append, i1, lineEvents_opEvent, if_neg n1, if_neg n2]
        rfl
      · rw [List.foldl_cons, i2]

/-- A path with one SETH c and after it one SETL c makes a rise and a fall, and ends low. -/
theorem lineEvents_pulse {c : Chan} {p r f : Nat} {ops : List PathOp}
    (h1 : occurrences (.seth c) ops = 1) (h2 : occurrences (.setl c) ops = 1)
    (h3 : ∃ o ∈ before (.setl c) ops, o.op = .seth c)
    (hr : rise c ops = some r) (hf : fall c ops = some f) :
    lineEvents c (pathEvents p ops) = [(p + r, true), (p + f, false)] ∧
      ∀ l, ops.foldl (levelAfter c) l = some false := by
  induction ops with
  | nil => simp [occurrences] at h2
  | cons o ops ih =>
    unfold rise at hr ih
    unfold fall at hf ih
    rw [occurrences_cons] at h1 h2
    rw [effectTime_cons] at hr hf
    rw [before_cons] at h3
    by_cases n2 : o.op = .setl c
    · rw [if_pos n2] at h3
      obtain ⟨_, h, _⟩ := h3
      cases h
    · rw [if_neg n2] at h2 hf h3
      by_cases n1 : o.op = .seth c
      · rw [if_pos n1] at h1 hr
        cases hr
        obtain ⟨i1, i2⟩ := lineEvents_fall (p := p) (c := c) (ops := ops) (f := f) (by omega)
          (by omega) hf
        refine ⟨?_, fun l => ?_⟩
        · rw [pathEvents_cons, lineEvents_append, i1, lineEvents_opEvent, if_pos n1]
          rfl
        · rw [List.foldl_cons, i2]
      · rw [if_neg n1] at h1 hr
        obtain ⟨o', ho', hop⟩ := h3
        obtain ⟨i1, i2⟩ := ih (by omega) (by omega)
          ⟨o', (List.mem_cons.1 ho').resolve_left (fun e => n1 (e ▸ hop)), hop⟩ hr hf
        refine ⟨?_, fun l => ?_⟩
        · rw [pathEvents_cons, lineEvents_append, i1, lineEvents_opEvent, if_neg n1, if_neg n2]
          rfl
        · rw [List.foldl_cons, i2]

/-- Every micro-op of a walk is the decoding of a word of the schedule. -/
theorem walk_mem {s : List Word} {v : PerChan Bool} {f p t : Nat} {tb : PerChan Bool}
    {ops : List PathOp} (h : walk s v f p t tb = some ops) :
    ∀ o ∈ ops, ∃ w ∈ s, decode w = some o.op := by
  induction f generalizing p t tb ops with
  | zero => cases h
  | succ f ih =>
    obtain ⟨w, i, hw, hi, ⟨rfl, rfl⟩ | ⟨-, rest, hrest, rfl⟩⟩ := walk_cases h
    · intro o ho
      rw [List.mem_singleton] at ho
      subst ho
      exact ⟨w, List.mem_of_getElem? hw, hi⟩
    · intro o ho
      rcases List.mem_cons.1 ho with rfl | ho
      · exact ⟨w, List.mem_of_getElem? hw, hi⟩
      · exact ih hrest o ho

theorem occurrences_eq_zero {i : Instr} {ops : List PathOp} (h : ∀ o ∈ ops, o.op ≠ i) :
    occurrences i ops = 0 := by
  unfold occurrences
  rw [List.length_eq_zero_iff, List.filter_eq_nil_iff]
  intro o ho
  simpa using h o ho

/-- What WF says of the path of one bit-value vector. -/
structure GoodPath (s : List Word) (n : ChanCount) (tt : Timing) (v : PerChan Bool)
    (ops : List PathOp) : Prop where
  path : path s v = some ops
  cost : pathCost ops = tt.tbit
  rotOnce : ∀ c ∈ n.chans, occurrences (.rot c) ops = 1
  rotFirst : ∀ c ∈ n.chans, ∀ o ∈ before (.rot c) ops, isBranchOn c o.op = false
  pulse : ∀ c ∈ n.chans, ∃ φ, phase? s c = some φ ∧
    (∀ p, lineEvents c (pathEvents p ops) =
      [(p + φ, true), (p + φ + highTime tt (v.get c), false)]) ∧
    ∀ l, ops.foldl (levelAfter c) l = some false
  quiet : ∀ c, c ∉ n.chans → (∀ p, lineEvents c (pathEvents p ops) = []) ∧
    ∀ l, ops.foldl (levelAfter c) l = l

/-- The conditions of WF one by one. -/
theorem scheduleWf_conditions {s : List Word} {n : ChanCount} {tt : Timing}
    (h : scheduleWf s n tt = true) :
    wf1 s = true ∧ wf2 s n = true ∧ wf3 s = true ∧ wf4 s n = true ∧ wf5 s n = true ∧
      wf6 s n tt = true ∧ wf7 s n tt = true ∧ wf8 s n = true := by
  simpa [scheduleWf, wfConditions] using h

theorem onPaths_path {s : List Word} {n : ChanCount} {f : PerChan Bool → List PathOp → Bool}
    (h : onPaths s n f = true) {v : PerChan Bool} (hv : v ∈ vectors n) {ops : List PathOp}
    (hp : path s v = some ops) : f v ops = true := by
  have := List.all_eq_true.1 h v hv
  rw [hp] at this
  exact this

/-- Every bit-value vector has a good path in a schedule that passes WF. -/
theorem goodPath_of_wf {s : List Word} {n : ChanCount} {tt : Timing}
    (h : scheduleWf s n tt = true) {v : PerChan Bool} (hv : v ∈ vectors n) :
    ∃ ops, GoodPath s n tt v ops := by
  obtain ⟨-, h2, -, h4, h5, h6, h7, h8⟩ := scheduleWf_conditions h
  obtain ⟨ops, hp⟩ := Option.isSome_iff_exists.1 (List.all_eq_true.1 h4 v hv)
  have k5 := onPaths_path h5 hv hp
  have k6 := onPaths_path h6 hv hp
  have k7 := onPaths_path h7 hv hp
  have k8 := onPaths_path h8 hv hp
  have e5 : ∀ c ∈ n.chans, wf5Chan c ops = true := List.all_eq_true.1 k5
  have e7 : ∀ c ∈ n.chans, wf7Chan tt v c ops = true := List.all_eq_true.1 k7
  have e8 : ∀ c ∈ n.chans, rise c ops = phase? s c := fun c hc => by
    simpa using List.all_eq_true.1 k8 c hc
  refine ⟨ops, hp, by simpa using k6, ?_, ?_, ?_, ?_⟩
  · intro c hc
    have := e5 c hc
    simp only [wf5Chan, Bool.and_eq_true, decide_eq_true_eq] at this
    exact this.1.1.1.1
  · intro c hc o ho
    have := e5 c hc
    simp only [wf5Chan, Bool.and_eq_true, decide_eq_true_eq] at this
    simpa using List.all_eq_true.1 this.1.1.1.2 o ho
  · intro c hc
    have k := e5 c hc
    simp only [wf5Chan, Bool.and_eq_true, decide_eq_true_eq, List.any_eq_true] at k
    obtain ⟨⟨⟨-, q1⟩, q2⟩, q3⟩ := k
    have k := e7 c hc
    unfold wf7Chan at k
    split at k
    · next r f hr hf =>
      simp only [decide_eq_true_eq] at k
      subst k
      refine ⟨r, by rw [← e8 c hc, hr], fun p => ?_, ?_⟩
      · rw [(lineEvents_pulse q1 q2 q3 hr hf).1, Nat.add_assoc]
      · exact (lineEvents_pulse (p := 0) q1 q2 q3 hr hf).2
    · cases k
  · intro c hc
    have hno : ∀ i : Instr, i.channel? = some c → ∀ o ∈ ops, o.op ≠ i := by
      intro i hi o ho e
      obtain ⟨w, hw, hd⟩ := walk_mem hp o ho
      have := List.all_eq_true.1 h2 w hw
      rw [e] at hd
      simp only [wordLegal, hd, hi, decide_eq_true_eq] at this
      exact hc ((n.mem_chans c).2 this)
    have z1 := occurrences_eq_zero (hno (.seth c) rfl)
    have z2 := occurrences_eq_zero (hno (.setl c) rfl)
    exact ⟨fun p => (lineEvents_none z1 z2).1, (lineEvents_none (p := 0) z1 z2).2⟩

theorem maskBits_mem (n : ChanCount) (f : Chan → Bool) : maskBits n f ∈ vectors n := by
  cases n <;> simp only [maskBits, vectors] <;> cases f 0 <;> cases f 1 <;> cases f 2 <;> decide

theorem maskBits_get {n : ChanCount} {f : Chan → Bool} {c : Chan} (h : c ∈ n.chans) :
    (maskBits n f).get c = f c := by
  cases n
  · match c, h with
    | 0, _ => rfl
  · match c, h with
    | 0, _ => rfl
    | 1, _ => rfl
  · match c with
    | 0 => rfl
    | 1 => rfl
    | 2 => rfl

end Sys2Proof.Machine
end

