-- ==== Sys2Proof/Laws/BitPath.lean ====
section
/-! SUPPORT. One bit path and one byte of a built instance (44_frame_transmitter.md R170, R172). -/
namespace Sys2Proof.Machine

/-- The block stands at the start of a bit path of a built instance, and channel c of the command
holds the byte `x c`. -/
structure AtPath (s : State) (tt : Timing) (x : Chan → Byte) : Prop where
  run : s.phase = .run
  host : s.host = []
  pc : s.pc = 0
  built : Built s
  timing : selectedTiming s.cfg = some tt
  bytes : ∀ c ∈ s.ncmd.chans, s.sh.get c = some (x c)

/-- The line events of the path that sends bits `f` from cycle `p` on. -/
def bitTrace (sched : List Word) (n : ChanCount) (p : Nat) (f : Chan → Bool) : List Event :=
  pathEvents p ((path sched (maskBits n f)).getD [])

/-- The block stands at the END of a path that sent the bits of `x`, started in `s`. -/
structure AtEnd (s u : State) (tt : Timing) (x : Chan → Byte) : Prop where
  same : u = { s with
    pc := u.pc, cyc := s.cyc + tt.tbit, sh := u.sh, t := u.t, out := u.out
    trace := s.trace ++ bitTrace s.schedule s.ncmd s.cyc fun c => testBit (x c) }
  atEnd : ∃ w, u.schedule[u.pc]? = some w ∧ decode w = some .endPath
  test : ∀ c ∈ s.ncmd.chans, u.t.get c = some (testBit (x c))
  bytes : ∀ c ∈ s.ncmd.chans, u.sh.get c = some (shiftOut (x c))
  others : ∀ c, c ∉ s.ncmd.chans → u.sh.get c = s.sh.get c ∧ u.t.get c = s.t.get c
  outLen : u.out.length = s.out.length
  low : ∀ c ∈ s.ncmd.chans, u.line? c = some false
  quiet : ∀ c, c ∉ s.ncmd.chans → u.line? c = s.line? c

/-- One bit path runs from its start to its END in exactly `tbit` cycles. -/
theorem bitPath_run {s : State} {tt : Timing} {x : Chan → Byte} (h : AtPath s tt x) :
    ∃ k u, Reaches k s u ∧ AtEnd s u tt x := by
  have hwf := h.built.schedule_wf h.timing s.ncmd
  obtain ⟨ops, hg⟩ := goodPath_of_wf hwf (maskBits_mem s.ncmd fun c => testBit (x c))
  have hw2 := (scheduleWf_conditions hwf).2.1
  have hready : ∀ c ∈ s.ncmd.chans,
      ChanReady s (maskBits s.ncmd fun c => testBit (x c)) (PerChan.all false) ops c :=
    fun c hc => ⟨x c, h.bytes c hc,
      .inr ⟨(maskBits_get (f := fun c => testBit (x c)) hc).symm, hg.rotOnce c hc, hg.rotFirst c hc⟩⟩
  obtain ⟨k, u, hk, hu⟩ := walk_run s.schedule.length (p := s.cyc) (t := 0)
    (tb := PerChan.all false) (ops := ops) (s := s)
    (by rw [h.pc]; exact hg.path) h.run h.host rfl hw2 h.built.pins hready
  refine ⟨k, u, hk, ?_, hu.atEnd, ?_, ?_, hu.others, hu.outLen, ?_, ?_⟩
  · have := hu.same
    rw [hg.cost] at this
    rw [bitTrace, show path s.schedule _ = _ from hg.path]
    exact this
  · intro c hc
    rw [hu.test c hc, maskBits_get hc]
  · intro c hc
    obtain ⟨y, hy, hy'⟩ := hu.shift c hc
    rw [h.bytes c hc] at hy
    cases hy
    rw [hy', hg.rotOnce c hc]
    rfl
  · intro c hc
    obtain ⟨φ, -, -, hl⟩ := hg.pulse c hc
    rw [hu.level, hl]
  · intro c hc
    rw [hu.level, (hg.quiet c hc).2]

/-- The line events of channel c on the path that sends bits `f`. -/
theorem lineEvents_bitTrace {sched : List Word} {n : ChanCount} {tt : Timing}
    (hwf : scheduleWf sched n tt = true) (p : Nat) (f : Chan → Bool) {c : Chan} (hc : c ∈ n.chans) :
    ∃ φ, phase? sched c = some φ ∧ lineEvents c (bitTrace sched n p f) =
      [(p + φ, true), (p + φ + highTime tt (f c), false)] := by
  obtain ⟨ops, hg⟩ := goodPath_of_wf hwf (maskBits_mem n f)
  obtain ⟨φ, h1, h2, -⟩ := hg.pulse c hc
  refine ⟨φ, h1, ?_⟩
  rw [bitTrace, hg.path, Option.getD_some, h2, maskBits_get hc]

theorem lineEvents_bitTrace_quiet {sched : List Word} {n : ChanCount} {tt : Timing}
    (hwf : scheduleWf sched n tt = true) (p : Nat) (f : Chan → Bool) {c : Chan} (hc : c ∉ n.chans) :
    lineEvents c (bitTrace sched n p f) = [] := by
  obtain ⟨ops, hg⟩ := goodPath_of_wf hwf (maskBits_mem n f)
  rw [bitTrace, hg.path, Option.getD_some, (hg.quiet c hc).1]

/-- A path makes line events only. -/
theorem bitTrace_lines (sched : List Word) (n : ChanCount) (p : Nat) (f : Chan → Bool) :
    readEvents (bitTrace sched n p f) = [] ∧ ieEvents (bitTrace sched n p f) = [] := by
  unfold bitTrace
  generalize (path sched (maskBits n f)).getD [] = ops
  induction ops with
  | nil => exact ⟨rfl, rfl⟩
  | cons o ops ih =>
    rw [pathEvents_cons, readEvents_append, ieEvents_append, ih.1, ih.2]
    obtain ⟨t, i, op⟩ := o
    cases op <;> exact ⟨rfl, rfl⟩

/-- The line events of `m` paths that send the leading bits of `x`, `tbit` apart. -/
def bitsTrace (sched : List Word) (n : ChanCount) (tbit : Nat) : Nat → Nat → (Chan → Byte) → List Event
  | 0, _, _ => []
  | m + 1, p, x =>
    bitTrace sched n p (fun c => testBit (x c)) ++
      bitsTrace sched n tbit m (p + tbit) fun c => shiftOut (x c)

/-- What is true at the END of the last path of a byte whose remaining paths started in `s`. -/
structure ByteSent (s u : State) (tt : Timing) (m : Nat) (x : Chan → Byte) : Prop where
  same : u = { s with
    pc := u.pc, cyc := s.cyc + (m + 1) * tt.tbit, sh := u.sh, t := u.t, out := u.out, biti := 7
    trace := s.trace ++ bitsTrace s.schedule s.ncmd tt.tbit (m + 1) s.cyc x }
  atEnd : ∃ w, u.schedule[u.pc]? = some w ∧ decode w = some .endPath
  bytes : ∀ c ∈ s.ncmd.chans, u.sh.get c ≠ none
  outLen : u.out.length = s.out.length
  low : ∀ c ∈ s.ncmd.chans, u.line? c = some false
  quiet : ∀ c, c ∉ s.ncmd.chans → u.line? c = s.line? c

/-- END inside a byte. -/
theorem step_end_inside {u : State} (hp : u.phase = .run) (hh : u.host = [])
    (he : ∃ w, u.schedule[u.pc]? = some w ∧ decode w = some .endPath) (hb : u.biti.toNat + 1 ≠ 8) :
    step u = .next { u with biti := u.biti + 1, pc := 0 } := by
  obtain ⟨w, hw, hd⟩ := he
  rw [step_run_op hp hh hw hd]
  show execEndPath u = _
  rw [execEndPath_next]
  simp [lastBit, hb]

/-- END at a byte boundary. -/
theorem step_end_boundary {u : State} (hp : u.phase = .run) (hh : u.host = [])
    (he : ∃ w, u.schedule[u.pc]? = some w ∧ decode w = some .endPath) (hb : u.biti = 7) :
    step u = .next (nextByte u.closeByte) := by
  obtain ⟨w, hw, hd⟩ := he
  rw [step_run_op hp hh hw hd]
  show execEndPath u = _
  rw [execEndPath_next]
  simp [lastBit, hb]

/-- The remaining `m + 1` paths of a byte. -/
theorem byte_run (m : Nat) : ∀ {s : State} {tt : Timing} {x : Chan → Byte},
    AtPath s tt x → s.biti.toNat + m = 7 → ∃ k u, Reaches k s u ∧ ByteSent s u tt m x := by
  induction m with
  | zero =>
    intro s tt x h hb
    obtain ⟨k, u, hk, hu⟩ := bitPath_run h
    have h7 : s.biti = 7 := by apply BitVec.eq_of_toNat_eq; simpa using hb
    refine ⟨k, u, hk, ?_, hu.atEnd, ?_, hu.outLen, hu.low, hu.quiet⟩
    · have := hu.same
      simp only [bitsTrace, List.append_nil, Nat.zero_add, Nat.one_mul]
      rw [← h7]
      exact this
    · intro c hc; rw [hu.bytes c hc]; simp
  | succ m ih =>
    intro s tt x h hb
    obtain ⟨k, u, hk, hu⟩ := bitPath_run h
    have hsame := hu.same
    have e1 : u.phase = .run := by rw [hsame]; exact h.run
    have e2 : u.host = [] := by rw [hsame]; exact h.host
    have e3 : u.biti = s.biti := by rw [hsame]
    have e4 : u.ncmd = s.ncmd := by rw [hsame]
    have e5 : u.cfg = s.cfg := by rw [hsame]
    have hstep := step_end_inside e1 e2 hu.atEnd (by rw [e3]; omega)
    have hb' : (u.biti + 1).toNat = s.biti.toNat + 1 := by
      rw [e3, BitVec.toNat_add]
      simp
      omega
    obtain ⟨k', u', hk', hu'⟩ := ih (s := { u with biti := u.biti + 1, pc := 0 }) (tt := tt)
      (x := fun c => shiftOut (x c))
      ⟨e1, e2, rfl, ⟨by show buildRefusal u.cfg = none; rw [e5]; exact h.built.1,
          by show u.out.length = u.cfg.nReg; rw [hu.outLen, e5]; exact h.built.2⟩,
        by show selectedTiming u.cfg = some tt; rw [e5]; exact h.timing,
        by intro c hc; exact hu.bytes c (by rw [← e4]; exact hc)⟩
      (by show (u.biti + 1).toNat + m = 7; rw [hb']; omega)
    refine ⟨k + (k' + 1), u', hk.trans (Reaches.head hstep hk'), ?_, hu'.atEnd, ?_, ?_, ?_, ?_⟩
    · have h1 := hu'.same
      rw [hsame] at h1
      rw [h1]
      simp only [State.schedule, bitsTrace, List.append_assoc, State.mk.injEq, true_and, and_true]
      have : (m + 1 + 1) * tt.tbit = tt.tbit + (m + 1) * tt.tbit := by
        rw [Nat.succ_mul (m + 1), Nat.add_comm]
      omega
    · intro c hc; exact hu'.bytes c (by show c ∈ u.ncmd.chans; rw [e4]; exact hc)
    · rw [hu'.outLen]; exact hu.outLen
    · intro c hc; exact hu'.low c (by show c ∈ u.ncmd.chans; rw [e4]; exact hc)
    · intro c hc
      rw [hu'.quiet c (by show c ∉ u.ncmd.chans; rw [e4]; exact hc)]
      exact hu.quiet c hc

theorem bitWaveform_append (tt : Timing) (a b : List Bool) (start : Nat) :
    bitWaveform tt start (a ++ b) =
      bitWaveform tt start a ++ bitWaveform tt (start + a.length * tt.tbit) b := by
  induction a generalizing start with
  | nil => simp [bitWaveform]
  | cons x a ih =>
    simp only [List.cons_append, bitWaveform, ih, List.length_cons, Nat.succ_mul]
    rw [show start + tt.tbit + a.length * tt.tbit = start + (a.length * tt.tbit + tt.tbit) by omega]

/-- The leading `m` bits of a byte, most significant first. -/
def leadingBits : Nat → Byte → List Bool
  | 0, _ => []
  | m + 1, x => testBit x :: leadingBits m (shiftOut x)

theorem leadingBits_length (m : Nat) (x : Byte) : (leadingBits m x).length = m := by
  induction m generalizing x with
  | zero => rfl
  | succ m ih => simp [leadingBits, ih]

theorem getLsbD_shiftOut (x : Byte) (i : Nat) (h : i < 7) :
    (shiftOut x).getLsbD (i + 1) = x.getLsbD i := by
  unfold shiftOut
  rw [BitVec.getLsbD_shiftLeft]
  simp
  omega

/-- Eight rotations send the bits of a byte, most significant first (30_encoding.md R76). -/
theorem leadingBits_eight (x : Byte) : leadingBits 8 x = byteBits x := by
  simp only [leadingBits, byteBits, testBit]
  have h := fun (y : Byte) i hi => getLsbD_shiftOut y i hi
  rw [h _ 6 (by omega), h _ 6 (by omega), h _ 6 (by omega), h _ 6 (by omega), h _ 6 (by omega),
    h _ 6 (by omega), h _ 6 (by omega), h _ 5 (by omega), h _ 5 (by omega), h _ 5 (by omega),
    h _ 5 (by omega), h _ 5 (by omega), h _ 5 (by omega), h _ 4 (by omega), h _ 4 (by omega),
    h _ 4 (by omega), h _ 4 (by omega), h _ 4 (by omega), h _ 3 (by omega), h _ 3 (by omega),
    h _ 3 (by omega), h _ 3 (by omega), h _ 2 (by omega), h _ 2 (by omega), h _ 2 (by omega),
    h _ 1 (by omega), h _ 1 (by omega), h _ 0 (by omega)]

/-- The waveform of the leading bits of a channel's byte. -/
theorem lineEvents_bitsTrace {sched : List Word} {n : ChanCount} {tt : Timing}
    (hwf : scheduleWf sched n tt = true) {c : Chan} (hc : c ∈ n.chans) {φ : Nat}
    (hφ : phase? sched c = some φ) (m : Nat) (p : Nat) (x : Chan → Byte) :
    lineEvents c (bitsTrace sched n tt.tbit m p x) =
      bitWaveform tt (p + φ) (leadingBits m (x c)) := by
  induction m generalizing p x with
  | zero => rfl
  | succ m ih =>
    obtain ⟨ψ, h1, h2⟩ := lineEvents_bitTrace hwf p (fun c => testBit (x c)) hc
    rw [hφ] at h1
    cases h1
    rw [bitsTrace, lineEvents_append, h2, ih, leadingBits, bitWaveform,
      show p + tt.tbit + φ = p + φ + tt.tbit by omega]
    rfl

theorem lineEvents_bitsTrace_quiet {sched : List Word} {n : ChanCount} {tt : Timing}
    (hwf : scheduleWf sched n tt = true) {c : Chan} (hc : c ∉ n.chans) (m p : Nat)
    (x : Chan → Byte) : lineEvents c (bitsTrace sched n tt.tbit m p x) = [] := by
  induction m generalizing p x with
  | zero => rfl
  | succ m ih =>
    rw [bitsTrace, lineEvents_append, ih, lineEvents_bitTrace_quiet hwf p _ hc]
    rfl

theorem bitsTrace_lines (sched : List Word) (n : ChanCount) (tbit m p : Nat) (x : Chan → Byte) :
    readEvents (bitsTrace sched n tbit m p x) = [] ∧
      ieEvents (bitsTrace sched n tbit m p x) = [] := by
  induction m generalizing p x with
  | zero => exact ⟨rfl, rfl⟩
  | succ m ih =>
    rw [bitsTrace, readEvents_append, ieEvents_append, (ih _ _).1, (ih _ _).2]
    have := bitTrace_lines sched n p fun c => testBit (x c)
    simp [this]

end Sys2Proof.Machine
end

