-- ==== Sys2Proof/Laws/FrameRun.lean ====
section
/-! SUPPORT. A whole frame of a built instance, from the first bit path to the hold, and a whole
command from its acceptance to Done (44_frame_transmitter.md R170 to R179). -/
namespace Sys2Proof.Machine

/-- The slot of the byte number `q` of a frame. -/
def slotOf (q : Nat) : Fin 3 := ⟨q % 3, Nat.mod_lt _ (by decide)⟩

/-- The offset in a buffer of the byte number `q` of a frame. -/
def sentOffset (cfg : Config) (q : Nat) : Nat := 3 * (q / 3) + (cfg.order.get (slotOf q)).toNat

/-- The reads of one byte for each listed channel at cycle `p`. -/
def loadTrace (mem : Memory) (base : Chan → Nat) (off p : Nat) (cs : List Chan) : List Event :=
  cs.map fun c => .read p (base c + off) (byteAt mem (base c + off))

/-- The bytes number `q` of the channels' frames. -/
def sentBytes (cfg : Config) (mem : Memory) (base : Chan → Nat) (q : Nat) : Chan → Byte :=
  fun c => byteAt mem (base c + sentOffset cfg q)

/-- The events of a frame from the first path of byte `q` at cycle `p` on, `r` bytes being left
after it. -/
def frameTrace (cfg : Config) (n : ChanCount) (mem : Memory) (base : Chan → Nat) (tbit : Nat) :
    Nat → Nat → Nat → List Event
  | 0, p, q => bitsTrace (cfg.schedOf n) n tbit 8 p (sentBytes cfg mem base q)
  | r + 1, p, q =>
    bitsTrace (cfg.schedOf n) n tbit 8 p (sentBytes cfg mem base q) ++
      loadTrace mem base (sentOffset cfg (q + 1)) (p + 8 * tbit) n.chans ++
      frameTrace cfg n mem base tbit r (p + 8 * tbit) (q + 1)

/-- Loads of admitted bytes complete. -/
theorem loadBytes_readable {base : Chan → Nat} {off : Nat} (cs : List Chan) :
    ∀ {s : State}, cs.Nodup → (∀ c ∈ cs, s.byteAddr c = base c + off) →
    (∀ c ∈ cs, base c + off < 2 ^ addrWidth ∧ (s.mem.read (base c + off)).isSome = true) →
    ∃ sh, loadBytes cs s =
        .ok { s with sh := sh, trace := s.trace ++ loadTrace s.mem base off s.cyc cs } ∧
      (∀ c ∈ cs, sh.get c = some (byteAt s.mem (base c + off))) ∧
      ∀ c, c ∉ cs → sh.get c = s.sh.get c := by
  induction cs with
  | nil => intro s _ _ _; exact ⟨s.sh, by simp [loadBytes, loadTrace], by simp, by simp⟩
  | cons c cs ih =>
    intro s hnd haddr hread
    obtain ⟨hlt, hsome⟩ := hread c (by simp)
    obtain ⟨b, hb⟩ := Option.isSome_iff_exists.1 hsome
    have ha := haddr c (by simp)
    have hbyte : byteAt s.mem (base c + off) = b := by rw [byteAt, hb]; rfl
    obtain ⟨hcnot, hnd'⟩ := List.nodup_cons.1 hnd
    obtain ⟨sh, h1, h2, h3⟩ := ih
      (s := { s with
        sh := s.sh.set c (some b), trace := s.trace ++ [.read s.cyc (base c + off) b] })
      hnd' (fun d hd => haddr d (List.mem_cons_of_mem _ hd))
      (fun d hd => hread d (List.mem_cons_of_mem _ hd))
    refine ⟨sh, ?_, ?_, ?_⟩
    · rw [loadBytes, ha, memRead_of_readable hlt hb]
      refine Eq.trans ?_ (h1.trans ?_)
      · rfl
      · simp [loadTrace, hbyte]
    · intro d hd
      rcases List.mem_cons.1 hd with rfl | hd
      · rw [h3 d hcnot, hbyte]; simp
      · exact h2 d hd
    · intro d hd
      simp only [List.mem_cons, not_or] at hd
      rw [h3 d hd.2]
      simp [PerChan.get_set, hd.1]

/-- What a frame in progress rests on: its command's buffers are admitted, in the order sent. -/
structure FrameData (s : State) (tt : Timing) (cnt : Nat) : Prop where
  count : s.count.toNat = cnt
  built : Built s
  timing : selectedTiming s.cfg = some tt
  readable : ∀ c ∈ s.ncmd.chans, ∀ q, q < 3 * cnt →
    (s.buf.get c).toNat + sentOffset s.cfg q < 2 ^ addrWidth ∧
      (s.mem.read ((s.buf.get c).toNat + sentOffset s.cfg q)).isSome = true

/-- The base addresses of the command's buffers. -/
def State.base (s : State) : Chan → Nat := fun c => (s.buf.get c).toNat

/-- The block stands at the start of the first path of the byte number `q` of a frame. -/
structure AtByte (s : State) (tt : Timing) (cnt q : Nat) : Prop where
  data : FrameData s tt cnt
  run : s.phase = .run
  host : s.host = []
  pc : s.pc = 0
  biti : s.biti = 0
  slot : s.slot = slotOf q
  color : s.k.toNat = q / 3
  bytes : ∀ c ∈ s.ncmd.chans, s.sh.get c = some (sentBytes s.cfg s.mem s.base q c)

/-- The hold of a frame whose remaining part `evs` started in `s` and lasted `d` cycles. -/
structure FrameSent (s u : State) (d : Nat) (evs : List Event) : Prop where
  same : u = { s with
    phase := .hold, pc := u.pc, cyc := s.cyc + d + s.cfg.tExit, sh := u.sh, t := u.t
    biti := u.biti, slot := u.slot, k := u.k, ie := s.exitFlag, out := u.out
    holdEnd := s.cyc + d + s.cfg.tExit + s.cfg.holdOf s.ncmd
    trace := s.trace ++ evs ++ [.ie (s.cyc + d + s.cfg.tExit) s.exitFlag] }
  outLen : u.out.length = s.out.length
  low : ∀ c ∈ s.ncmd.chans, u.line? c = some false
  quiet : ∀ c, c ∉ s.ncmd.chans → u.line? c = s.line? c

theorem nextSlot_slotOf {q cnt : Nat} {k : BitVec 16} (hk : k.toNat = q / 3) (hq : q < 3 * cnt)
    (hc : cnt < 2 ^ 16) : (nextSlot (slotOf q) k).1 = slotOf (q + 1) ∧
      (nextSlot (slotOf q) k).2.toNat = (q + 1) / 3 := by
  have h3 : q % 3 = 0 ∨ q % 3 = 1 ∨ q % 3 = 2 := by omega
  rcases h3 with h | h | h
  · have e : slotOf q = 0 := Fin.ext h
    have e' : slotOf (q + 1) = 1 := Fin.ext (by show (q + 1) % 3 = 1; omega)
    rw [e, e']
    exact ⟨rfl, by show k.toNat = _; omega⟩
  · have e : slotOf q = 1 := Fin.ext h
    have e' : slotOf (q + 1) = 2 := Fin.ext (by show (q + 1) % 3 = 2; omega)
    rw [e, e']
    exact ⟨rfl, by show k.toNat = _; omega⟩
  · have e : slotOf q = 2 := Fin.ext h
    have e' : slotOf (q + 1) = 0 := Fin.ext (by show (q + 1) % 3 = 0; omega)
    rw [e, e']
    refine ⟨rfl, ?_⟩
    show (k + 1).toNat = _
    rw [BitVec.toNat_add]
    simp
    omega

/-- The rest of a frame, from the first path of byte `q` to the hold, `r` bytes being left after it. -/
theorem frame_run (r : Nat) : ∀ {s : State} {tt : Timing} {cnt q : Nat},
    AtByte s tt cnt q → q + r + 1 = 3 * cnt →
    ∃ k u, Reaches k s u ∧ FrameSent s u (8 * (r + 1) * tt.tbit)
      (frameTrace s.cfg s.ncmd s.mem s.base tt.tbit r s.cyc q) := by
  induction r with
  | zero =>
    intro s tt cnt q h hq
    obtain ⟨k, u, hk, hu⟩ := byte_run 7 (s := s) (tt := tt) (x := sentBytes s.cfg s.mem s.base q)
      ⟨h.run, h.host, h.pc, h.data.built, h.data.timing, h.bytes⟩ (by rw [h.biti]; rfl)
    have hsame := hu.same
    have hstep := step_end_boundary (u := u) (by rw [hsame]; exact h.run)
      (by rw [hsame]; exact h.host) hu.atEnd (by rw [hsame])
    have hcnt : cnt < 2 ^ 16 := by rw [← h.data.count]; exact s.count.isLt
    have hnext := nextSlot_slotOf (k := s.k) h.color (by omega) hcnt
    have hkc : u.closeByte.k = u.closeByte.count := by
      rw [hsame]
      apply BitVec.eq_of_toNat_eq
      show (nextSlot s.slot s.k).2.toNat = s.count.toNat
      rw [h.slot, hnext.2, h.data.count]
      omega
    have hexit : nextByte u.closeByte = frameExit u.closeByte := by rw [nextByte, if_pos hkc]
    rw [hexit] at hstep
    refine ⟨k + 1, _, hk.trans (Reaches.one hstep), ?_, hu.outLen, hu.low, hu.quiet⟩
    rw [hsame]
    simp [frameExit, State.releaseInterrupts, State.emit, State.closeByte, State.exitFlag,
      State.schedule, frameTrace, Nat.add_assoc]
  | succ r ih =>
    intro s tt cnt q h hq
    obtain ⟨k, u, hk, hu⟩ := byte_run 7 (s := s) (tt := tt) (x := sentBytes s.cfg s.mem s.base q)
      ⟨h.run, h.host, h.pc, h.data.built, h.data.timing, h.bytes⟩ (by rw [h.biti]; rfl)
    have hsame := hu.same
    have hstep := step_end_boundary (u := u) (by rw [hsame]; exact h.run)
      (by rw [hsame]; exact h.host) hu.atEnd (by rw [hsame])
    have hcnt : cnt < 2 ^ 16 := by rw [← h.data.count]; exact s.count.isLt
    obtain ⟨hn1, hn2⟩ := nextSlot_slotOf (k := s.k) h.color (by omega) hcnt
    rw [← h.slot] at hn1 hn2
    have c1 : u.closeByte.cfg = s.cfg := by rw [hsame]; rfl
    have c2 : u.closeByte.ncmd = s.ncmd := by rw [hsame]; rfl
    have c3 : u.closeByte.mem = s.mem := by rw [hsame]; rfl
    have c4 : u.closeByte.buf = s.buf := by rw [hsame]; rfl
    have c5 : u.closeByte.slot = slotOf (q + 1) := by rw [hsame]; exact hn1
    have c6 : u.closeByte.k.toNat = (q + 1) / 3 := by rw [hsame]; exact hn2
    have c7 : u.closeByte.count = s.count := by rw [hsame]; rfl
    have c8 : u.closeByte.cyc = s.cyc + 8 * tt.tbit := by rw [hsame]; rfl
    have hkc : u.closeByte.k ≠ u.closeByte.count := by
      intro e
      have : u.closeByte.k.toNat = u.closeByte.count.toNat := by rw [e]
      rw [c6, c7, h.data.count] at this
      omega
    obtain ⟨sh, hl, hl1, hl2⟩ := loadBytes_readable (base := s.base)
      (off := sentOffset s.cfg (q + 1)) u.closeByte.ncmd.chans (s := u.closeByte)
      (ChanCount.chans_nodup _)
      (by
        intro c _
        rw [State.byteAddr, c4, c6, c1, c5, State.base, sentOffset]
        omega)
      (by
        intro c hc
        rw [c3]
        exact h.data.readable c (by rw [← c2]; exact hc) (q + 1) (by omega))
    have hnb : nextByte u.closeByte = { u.closeByte with
        sh := sh, pc := 0
        trace := u.closeByte.trace ++ loadTrace u.closeByte.mem s.base (sentOffset s.cfg (q + 1))
          u.closeByte.cyc u.closeByte.ncmd.chans } := by
      rw [nextByte, if_neg hkc, hl]
    rw [hnb] at hstep
    obtain ⟨s1, hs1⟩ : ∃ s1, s1 = { u.closeByte with
        sh := sh, pc := 0
        trace := u.closeByte.trace ++ loadTrace u.closeByte.mem s.base (sentOffset s.cfg (q + 1))
          u.closeByte.cyc u.closeByte.ncmd.chans } := ⟨_, rfl⟩
    rw [← hs1] at hstep
    have d1 : s1.cfg = s.cfg := by rw [hs1]; exact c1
    have d2 : s1.ncmd = s.ncmd := by rw [hs1]; exact c2
    have d3 : s1.mem = s.mem := by rw [hs1]; exact c3
    have d4 : s1.buf = s.buf := by rw [hs1]; exact c4
    have d5 : s1.base = s.base := by unfold State.base; rw [d4]
    have d6 : s1.out = u.out := by rw [hs1]; rfl
    have d7 : s1.cyc = s.cyc + 8 * tt.tbit := by rw [hs1]; exact c8
    have hat : AtByte s1 tt cnt (q + 1) := by
      refine ⟨⟨?_, ⟨?_, ?_⟩, ?_, ?_⟩, ?_, ?_, ?_, ?_, ?_, ?_, ?_⟩
      · rw [hs1]; show u.closeByte.count.toNat = cnt; rw [c7]; exact h.data.count
      · rw [d1]; exact h.data.built.1
      · rw [d6, d1, hu.outLen]; exact h.data.built.2
      · rw [d1]; exact h.data.timing
      · intro c hc q' hq'
        rw [d4, d1, d3]
        exact h.data.readable c (by rw [← d2]; exact hc) q' hq'
      · rw [hs1, hsame]; exact h.run
      · rw [hs1, hsame]; exact h.host
      · rw [hs1]
      · rw [hs1]; rfl
      · rw [hs1]; exact c5
      · rw [hs1]; exact c6
      · intro c hc
        rw [d1, d3, d5, hs1]
        show sh.get c = _
        rw [hl1 c (by rw [c2, ← d2]; exact hc), c3]
        rfl
    obtain ⟨k', u', hk', hu'⟩ := ih hat (by omega)
    refine ⟨k + (k' + 1), u', hk.trans (Reaches.head hstep hk'), ?_, ?_, ?_, ?_⟩
    · have h1 := hu'.same
      have e : s1.cyc + 8 * (r + 1) * tt.tbit = s.cyc + 8 * (r + 1 + 1) * tt.tbit := by
        rw [d7, show 8 * (r + 1 + 1) = 8 + 8 * (r + 1) by omega, Nat.add_mul]
        omega
      have f : s1.exitFlag = s.exitFlag := by rw [hs1, hsame]; rfl
      rw [e, d1, d2, d3, d5, d7, f] at h1
      rw [h1, hs1, hsame]
      simp [State.closeByte, State.schedule, frameTrace]
    · rw [hu'.outLen, d6, hu.outLen]
    · intro c hc; exact hu'.low c (by rw [d2]; exact hc)
    · intro c hc
      rw [hu'.quiet c (by rw [d2]; exact hc), line?_eq_outBit, d6, d1]
      have := hu.quiet c hc
      rw [line?_eq_outBit, show u.cfg = s.cfg by rw [hsame]] at this
      exact this

end Sys2Proof.Machine
end

