-- ==== Sys2Proof/Laws/Command.lean ====
section
/-! SUPPORT. A whole command of a host that keeps its duties: it reaches Done, at a known cycle, with
a known trace (44_frame_transmitter.md R167 to R180, R188). -/
namespace Sys2Proof.Machine

/-- The events of the frame of a command, empty for a count of 0. -/
def wholeFrame (cfg : Config) (n : ChanCount) (mem : Memory) (base : Chan → Nat) (tbit count p0 : Nat) :
    List Event :=
  match count with
  | 0 => []
  | c + 1 => loadTrace mem base (sentOffset cfg 0) p0 n.chans ++
      frameTrace cfg n mem base tbit (3 * c + 2) p0 0

/-- The cycle at which a command accepted at `t0` leaves the critical section. -/
def exitCycle (cfg : Config) (tt : Timing) (count t0 : Nat) : Nat :=
  t0 + cfg.tStart + 24 * count * tt.tbit + cfg.tExit

/-- The events of a command accepted at cycle `t0` with the flag at `ie`. -/
def commandTrace (cfg : Config) (n : ChanCount) (mem : Memory) (bufs : PerChan Nat) (tt : Timing)
    (count t0 : Nat) (ie : Bool) : List Event :=
  .ie t0 false ::
    (wholeFrame cfg n mem bufs.get tt.tbit count (t0 + cfg.tStart) ++
      [.ie (exitCycle cfg tt count t0) (restoredIe cfg ie),
       .done (exitCycle cfg tt count t0 + cfg.holdOf n)])

/-- The state at the Done of a command launched in `s`. -/
structure CommandDone (s u : State) (n : ChanCount) (count : Nat) (bufs : PerChan Nat) (tt : Timing) :
    Prop where
  same : u = { s with
    pc := u.pc, cyc := exitCycle s.cfg tt count s.cyc + s.cfg.holdOf n, sh := u.sh, t := u.t
    biti := u.biti, slot := u.slot, k := u.k, ncmd := n, count := BitVec.ofNat 16 count
    buf := u.buf, ieSaved := s.ie, ie := restoredIe s.cfg s.ie, out := u.out
    holdEnd := exitCycle s.cfg tt count s.cyc + s.cfg.holdOf n, host := []
    trace := s.trace ++ commandTrace s.cfg n s.mem bufs tt count s.cyc s.ie }
  outLen : u.out.length = s.out.length
  low : ∀ c ∈ n.chans, u.line? c = some false
  quiet : ∀ c, c ∉ n.chans → u.line? c = s.line? c

theorem operandsFit_iff {n : ChanCount} {count : Nat} {bufs : PerChan Nat} :
    operandsFit n count bufs = true ↔
      count < 2 ^ 16 ∧ ∀ c ∈ n.chans, bufs.get c < 2 ^ 16 := by
  rw [operandsFit, Bool.and_eq_true, decide_eq_true_eq, List.all_eq_true]
  simp only [decide_eq_true_eq]
  exact Iff.rfl

theorem latchBuffers_get (cs : List Chan) (buf : PerChan Addr) (bufs : PerChan Nat)
    (c : Chan) : (latchBuffers buf bufs cs).get c =
      if c ∈ cs then BitVec.ofNat 16 (bufs.get c) else buf.get c := by
  induction cs generalizing buf with
  | nil => simp [latchBuffers]
  | cons d cs ih =>
    rw [latchBuffers, ih]
    by_cases hc : c ∈ cs
    · simp [hc]
    · rw [if_neg hc]
      refine (PerChan.get_set ..).trans ?_
      by_cases hd : c = d
      · subst hd; simp [addrWidth]
      · simp [hc, hd]

theorem slotOf_lt (q : Nat) : q % 3 < 3 := Nat.mod_lt _ (by decide)

/-- The component sent in a slot of a built instance is 0, 1 or 2. -/
theorem order_lt {order : PerChan (BitVec 2)} (h : orderOk order = true) (j : Fin 3) :
    (order.get j).toNat < 3 := by
  obtain ⟨a, b, c⟩ := order
  simp only [orderOk, List.all_cons, List.all_nil, Bool.and_true, Bool.and_eq_true,
    decide_eq_true_eq] at h
  have ha := a.isLt
  have hb := b.isLt
  have hc := c.isLt
  simp only [List.mem_cons, List.not_mem_nil, or_false] at h
  match j with
  | 0 => show a.toNat < 3; omega
  | 1 => show b.toNat < 3; omega
  | 2 => show c.toNat < 3; omega

theorem Built.order {s : State} (h : Built s) : orderOk s.cfg.order = true := by
  obtain ⟨tt, -, -, -, ho, -⟩ := buildRefusal_none h.1
  exact ho

/-- A command of a host that keeps its duties runs to Done. -/
theorem command_run {s : State} {n : ChanCount} {count : Nat} {bufs : PerChan Nat} {tt : Timing}
    (h : Launch s n count bufs tt) :
    ∃ k u, Reaches k s u ∧ CommandDone s u n count bufs tt := by
  obtain ⟨hcount, hbufs⟩ := operandsFit_iff.1 h.fit
  obtain ⟨hidle, hflt, href⟩ := h.idle
  obtain ⟨s0, hs0⟩ : ∃ s0 : State, s0 = { s with host := [] } := ⟨_, rfl⟩
  have hstep : step s = .next (startFrame (acceptCommand n count bufs s0)) := by
    rw [step_transmit hidle h.host, ← hs0]
    show execTransmit n.toNat count bufs s0 = _
    rw [execTransmit, if_pos (by rw [hs0]; exact hidle), ChanCount.ofNat?_toNat]
    simp only [h.fit, if_true]
  obtain ⟨a, ha⟩ : ∃ a, a = acceptCommand n count bufs s0 := ⟨_, rfl⟩
  rw [← ha] at hstep
  have a1 : a.cfg = s.cfg := by rw [ha, hs0]; rfl
  have a2 : a.ncmd = n := by rw [ha]; rfl
  have a3 : a.mem = s.mem := by rw [ha, hs0]; rfl
  have a4 : a.cyc = s.cyc + s.cfg.tStart := by rw [ha, hs0]; rfl
  have a5 : a.count = BitVec.ofNat 16 count := by rw [ha]; rfl
  have a6 : a.count.toNat = count := by
    rw [a5, BitVec.toNat_ofNat]; exact Nat.mod_eq_of_lt hcount
  have a7 : ∀ c ∈ n.chans, a.base c = bufs.get c := by
    intro c hc
    show (a.buf.get c).toNat = _
    rw [ha]
    show ((latchBuffers s0.buf bufs n.chans).get c).toNat = _
    rw [latchBuffers_get, if_pos hc, BitVec.toNat_ofNat]
    exact Nat.mod_eq_of_lt (hbufs c hc)
  have a8 : a.exitFlag = restoredIe s.cfg s.ie := by rw [ha, hs0]; rfl
  have a9 : a.trace = s.trace ++ [.ie s.cyc false] := by rw [ha, hs0]; rfl
  cases count with
  | zero =>
    have hz : a.count = 0 := a5
    rw [startFrame, if_pos hz] at hstep
    refine ⟨1 + 1, holdDone (frameExit a), (Reaches.one hstep).trans
      (Reaches.one (step_hold rfl (by rw [ha, hs0]; rfl))), ?_, ?_, ?_, ?_⟩
    · rw [ha, hs0]
      simp [holdDone, frameExit, State.releaseInterrupts, State.emit, State.exitFlag, acceptCommand,
        State.maskInterrupts, exitCycle, commandTrace, wholeFrame, restoredIe, hidle, countWidth]
      all_goals rfl
    · rw [ha, hs0]; rfl
    · intro c hc; rw [ha, hs0]; exact h.low c hc
    · intro c _; rw [ha, hs0]; rfl
  | succ m =>
    have hz : a.count ≠ 0 := by
      intro e
      rw [e] at a6
      simp at a6
    have hread : ∀ c ∈ n.chans, ∀ q, q < 3 * (m + 1) →
        bufs.get c + sentOffset s.cfg q < 2 ^ addrWidth ∧
          (s.mem.read (bufs.get c + sentOffset s.cfg q)).isSome = true := by
      intro c hc q hq
      have := h.readable c hc (q / 3) (by omega) _ (order_lt h.built.order (slotOf q))
      rw [sentOffset, ← Nat.add_assoc]
      exact this
    obtain ⟨sh, hl, hl1, hl2⟩ := loadBytes_readable (base := a.base) (off := sentOffset s.cfg 0)
      a.ncmd.chans (s := a) (ChanCount.chans_nodup _)
      (by
        intro c _
        rw [State.byteAddr, a1, show a.k = 0 by rw [ha]; rfl, show a.slot = 0 by rw [ha]; rfl,
          State.base, sentOffset]
        simp
        rfl)
      (by
        intro c hc
        rw [a2] at hc
        rw [a7 c hc, a3]
        exact hread c hc 0 (by omega))
    rw [startFrame, if_neg hz, hl] at hstep
    obtain ⟨s1, hs1⟩ : ∃ s1, s1 = { a with
        sh := sh, phase := .run
        trace := a.trace ++ loadTrace a.mem a.base (sentOffset s.cfg 0) a.cyc a.ncmd.chans } :=
      ⟨_, rfl⟩
    replace hstep : step s = .next s1 := by rw [hs1]; exact hstep
    have d1 : s1.cfg = s.cfg := by rw [hs1]; exact a1
    have d2 : s1.ncmd = n := by rw [hs1]; exact a2
    have d3 : s1.mem = s.mem := by rw [hs1]; exact a3
    have d4 : s1.out = s.out := by rw [hs1, ha, hs0]; rfl
    have d5 : s1.base = a.base := by rw [hs1]; rfl
    have hat : AtByte s1 tt (m + 1) 0 := by
      refine ⟨⟨?_, ⟨?_, ?_⟩, ?_, ?_⟩, ?_, ?_, ?_, ?_, ?_, ?_, ?_⟩
      · rw [hs1]; exact a6
      · rw [d1]; exact h.built.1
      · rw [d4, d1]; exact h.built.2
      · rw [d1]; exact h.timing
      · intro c hc q hq
        rw [d2] at hc
        show s1.base c + _ < _ ∧ (s1.mem.read (s1.base c + _)).isSome = true
        rw [d5, d1, d3, a7 c hc]
        exact hread c hc q hq
      · rw [hs1]
      · rw [hs1, ha, hs0]; rfl
      · rw [hs1, ha]; rfl
      · rw [hs1, ha]; rfl
      · rw [hs1, ha]; rfl
      · rw [hs1, ha]; rfl
      · intro c hc
        rw [hs1]
        show sh.get c = some (byteAt a.mem (a.base c + sentOffset a.cfg 0))
        rw [a1, hl1 c (by rw [a2, ← d2]; exact hc)]
    obtain ⟨k, u, hk, hu⟩ := frame_run (3 * m + 2) hat (by omega)
    have hsame := hu.same
    have hhold : step u = .next (holdDone u) := step_hold (by rw [hsame])
      (by rw [hsame, hs1, ha, hs0]; rfl)
    have htrace : loadTrace a.mem a.base (sentOffset s.cfg 0) a.cyc a.ncmd.chans ++
        frameTrace s1.cfg s1.ncmd s1.mem s1.base tt.tbit (3 * m + 2) s1.cyc 0 =
        wholeFrame s.cfg n s.mem bufs.get tt.tbit (m + 1) (s.cyc + s.cfg.tStart) := by
      have hload : ∀ off p, loadTrace s.mem a.base off p n.chans =
          loadTrace s.mem bufs.get off p n.chans := by
        intro off p
        exact List.map_congr_left fun c hc => by rw [a7 c hc]
      have hbits : ∀ (sched : List Word) (tbit j p : Nat) (x y : Chan → Byte),
          (∀ c ∈ n.chans, x c = y c) →
          bitsTrace sched n tbit j p x = bitsTrace sched n tbit j p y := by
        intro sched tbit j
        induction j with
        | zero => intro p x y _; rfl
        | succ j ih =>
          intro p x y hxy
          have hm : maskBits n (fun c => testBit (x c)) = maskBits n fun c => testBit (y c) := by
            cases n
            · simp [maskBits, hxy 0 (by decide)]
            · simp [maskBits, hxy 0 (by decide), hxy 1 (by decide)]
            · simp [maskBits, hxy 0 (by decide), hxy 1 (by decide), hxy 2 (by decide)]
          rw [bitsTrace, bitsTrace, bitTrace, bitTrace, hm]
          rw [ih (p + tbit) (fun c => shiftOut (x c)) (fun c => shiftOut (y c))
            fun c hc => by rw [hxy c hc]]
      have hframe : ∀ r p q, frameTrace s.cfg n s.mem a.base tt.tbit r p q =
          frameTrace s.cfg n s.mem bufs.get tt.tbit r p q := by
        intro r
        induction r with
        | zero =>
          intro p q
          exact hbits _ _ _ _ _ _ fun c hc => by rw [sentBytes, sentBytes, a7 c hc]
        | succ r ih =>
          intro p q
          rw [frameTrace, frameTrace, ih, hload]
          rw [hbits _ _ _ _ _ _ fun c hc => by
            show sentBytes s.cfg s.mem a.base q c = sentBytes s.cfg s.mem bufs.get q c
            rw [sentBytes, sentBytes, a7 c hc]]
      rw [d1, d2, d3, d5, a2, a3, show s1.cyc = s.cyc + s.cfg.tStart by rw [hs1]; exact a4, a4,
        hload, hframe]
      rfl
    have hcyc : s1.cyc + 8 * (3 * m + 2 + 1) * tt.tbit + s1.cfg.tExit =
        exitCycle s.cfg tt (m + 1) s.cyc := by
      rw [d1, show s1.cyc = s.cyc + s.cfg.tStart by rw [hs1]; exact a4, exitCycle,
        show 8 * (3 * m + 2 + 1) = 24 * (m + 1) by omega]
    have hflag : s1.exitFlag = restoredIe s.cfg s.ie := by rw [hs1]; exact a8
    rw [hcyc, hflag] at hsame
    refine ⟨1 + (k + 1), holdDone u, (Reaches.one hstep).trans (hk.trans (Reaches.one hhold)),
      ?_, ?_, ?_, ?_⟩
    · have htr : s1.trace = s.trace ++ ([.ie s.cyc false] ++
          loadTrace a.mem a.base (sentOffset s.cfg 0) a.cyc a.ncmd.chans) := by
        rw [hs1]
        show a.trace ++ _ = _
        rw [a9, List.append_assoc]
      rw [htr, d1, d2] at hsame
      rw [hsame]
      simp only [holdDone, State.emit, commandTrace, ← htrace]
      rw [hs1, ha, hs0]
      simp [acceptCommand, State.maskInterrupts, State.emit, hidle, countWidth]
    · show u.out.length = _
      rw [hu.outLen, d4]
    · intro c hc; exact hu.low c (by rw [d2]; exact hc)
    · intro c hc
      show u.line? c = _
      rw [hu.quiet c (by rw [d2]; exact hc), line?_eq_outBit, d4, d1]
      rfl

end Sys2Proof.Machine
end

