-- ==== Sys2Proof/Laws/Encoding.lean ====
section
/-! SUPPORT. The fields of a formatted word, for the round trips of decoder and encoder. -/
namespace Sys2Proof

theorem formatWord_toNat {opc low : Nat} (ho : opc < 16) (hl : low < 4096) :
    (formatWord opc low).toNat = opc * 4096 + low := by
  simp only [formatWord, BitVec.toNat_ofNat]
  omega

/-- The opcode field of a formatted word. -/
theorem field_opcode {opc low : Nat} (ho : opc < 16) (hl : low < 4096) :
    field (formatWord opc low) 15 12 = opc := by
  simp only [field, formatWord_toNat ho hl]
  omega

/-- The low twelve bits of a formatted word. -/
theorem field_low {opc low : Nat} (ho : opc < 16) (hl : low < 4096) :
    field (formatWord opc low) 11 0 = low := by
  simp only [field, formatWord_toNat ho hl]
  omega

/-- The middle field of a formatted word. -/
theorem field_middle {opc low : Nat} (ho : opc < 16) (hl : low < 4096) :
    field (formatWord opc low) 11 2 = low / 4 := by
  simp only [field, formatWord_toNat ho hl]
  omega

/-- The channel field of a formatted word. -/
theorem field_chan {opc low : Nat} (ho : opc < 16) (hl : low < 4096) :
    field (formatWord opc low) 1 0 = low % 4 := by
  simp only [field, formatWord_toNat ho hl]
  omega

/-- The channel of a format C word. -/
theorem decodeChan_formatWord {opc mid : Nat} (c : Chan) (ho : opc < 16) (hm : mid < 1024) :
    decodeChan (formatWord opc (mid * 4 + c.val)) = some c := by
  have hl : mid * 4 + c.val < 4096 := by omega
  have hf : field (formatWord opc (mid * 4 + c.val)) 1 0 = c.val := by
    rw [field_chan ho hl]; omega
  unfold decodeChan
  rw [dif_pos (by rw [hf]; exact c.isLt)]
  simp only [hf, Fin.eta]

/-- A word is its opcode and its low twelve bits. -/
theorem formatWord_fields (w : Word) : formatWord (field w 15 12) (field w 11 0) = w := by
  have := w.isLt
  apply BitVec.eq_of_toNat_eq
  rw [formatWord_toNat (by unfold field; omega) (by unfold field; omega)]
  simp only [field]
  omega

end Sys2Proof
end

