-- ==== Sys2Proof/Laws/Decoding.lean ====
section
/-! SUPPORT. The decoder by the value of the opcode field, and the fields of a word as slices of it
(30_encoding.md R83, R91). -/
namespace Sys2Proof

theorem toNat_extractLsb' (w : Word) (lo len : Nat) :
    (w.extractLsb' lo len).toNat = w.toNat / 2 ^ lo % 2 ^ len := by
  simp [BitVec.extractLsb'_toNat, Nat.shiftRight_eq_div_pow]

theorem slice_opcode (w : Word) : (w.extractLsb' 12 4).toNat = field w 15 12 := by
  rw [toNat_extractLsb']; rfl

theorem slice_low (w : Word) : (w.extractLsb' 0 12).toNat = field w 11 0 := by
  rw [toNat_extractLsb']; rfl

theorem slice_middle (w : Word) : (w.extractLsb' 2 10).toNat = field w 11 2 := by
  rw [toNat_extractLsb']; rfl

theorem slice_chan (w : Word) : (w.extractLsb' 0 2).toNat = field w 1 0 := by
  rw [toNat_extractLsb']; rfl

/-- The ranges of the fields, and the low twelve bits from their two parts. -/
theorem field_lt (w : Word) : field w 15 12 < 16 ∧ field w 11 0 < 4096 ∧ field w 11 2 < 1024 ∧
    field w 1 0 < 4 ∧ field w 11 0 = field w 11 2 * 4 + field w 1 0 := by
  simp only [field]
  exact ⟨Nat.mod_lt _ (by decide), Nat.mod_lt _ (by decide), Nat.mod_lt _ (by decide),
    Nat.mod_lt _ (by decide), by omega⟩

/-- The decoder of the words of one opcode. -/
def decodeAt (opc : Nat) (w : Word) : Option Instr :=
  match opc with
  | 0 => some (.nop (field w 11 0 + 1))
  | 1 => decodeFormatC .seth w
  | 2 => decodeFormatC .setl w
  | 3 => decodeFormatC .rot w
  | 4 => (decodeChan w).map fun c => .bt c (field w 11 2)
  | 5 => if field w 11 0 = 0 then some .endPath else none
  | _ => none

theorem decode_eq_decodeAt {w : Word} {opc : Nat} (h : field w 15 12 = opc) :
    decode w = decodeAt opc w := by
  subst h; unfold decode decodeAt; rfl

theorem decodeChan_some {w : Word} {c : Chan} (h : field w 1 0 = c.val) :
    decodeChan w = some c := by
  unfold decodeChan
  rw [dif_pos (by rw [h]; exact c.isLt)]
  congr 1; exact Fin.ext h

theorem decodeChan_none {w : Word} (h : field w 1 0 = 3) : decodeChan w = none := by
  unfold decodeChan; rw [dif_neg (by omega)]

theorem decodeChan_val {w : Word} {c : Chan} (h : decodeChan w = some c) :
    field w 1 0 = c.val := by
  unfold decodeChan at h
  split at h
  · cases h; rfl
  · cases h

/-- An opcode and low bits, put together by addition or by `|||`. -/
theorem or_eq_formatWord {opc low : Nat} (ho : opc < 16) (hl : low < 4096) :
    BitVec.ofNat 16 (opc * 4096) ||| BitVec.ofNat 16 low = formatWord opc low := by
  refine BitVec.eq_of_toNat_eq ?_
  rw [formatWord_toNat ho hl, BitVec.toNat_or, BitVec.toNat_ofNat, BitVec.toNat_ofNat,
    Nat.mod_eq_of_lt (by omega), Nat.mod_eq_of_lt (by omega), Nat.mul_comm]
  exact (Nat.two_pow_add_eq_or_of_lt (i := 12) (b := low) hl opc).symm

end Sys2Proof
end

