-- ==== Sys2Proof/Laws/Loads.lean ====
section
/-! SUPPORT. Byte boundaries: the counters, the loads that complete and the load that stops
(42_bit_encoder.md R131; 44_frame_transmitter.md R167; 60_exceptions.md R196, R203). -/
namespace Sys2Proof.Machine

theorem lastBit_iff (b : BitVec 3) : lastBit b = true ↔ b = 7 := by
  unfold lastBit
  rw [decide_eq_true_eq]
  exact ⟨fun h => BitVec.eq_of_toNat_eq (show b.toNat = 7 by omega), fun h => by rw [h]; rfl⟩

/-- The counters after a byte of slot 0 or 1, and after a byte of slot 2. -/
theorem closeByte_eq {s : State} {j : Fin 3} {k : BitVec 16}
    (h : s.slot.val + 1 = j.val ∧ k = s.k ∨ s.slot = 2 ∧ j = 0 ∧ k = s.k + 1) :
    s.closeByte = { s with biti := 0, slot := j, k := k } := by
  have : nextSlot s.slot s.k = (j, k) := by
    rcases h with ⟨h1, rfl⟩ | ⟨h1, rfl, rfl⟩
    · match hs : s.slot, j, h1 with
      | 0, 1, _ => rfl
      | 1, 2, _ => rfl
    · rw [h1]; rfl
  simp only [State.closeByte, this]

theorem exec_end_boundary {s : State} (h : s.biti = 7) :
    exec .endPath s = .next (nextByte s.closeByte) := by
  show execEndPath s = _
  rw [execEndPath_next, if_pos ((lastBit_iff _).2 h)]

theorem loadBytes_append (a b : List Chan) (s : State) :
    loadBytes (a ++ b) s =
      match loadBytes a s with
      | .error t => .error t
      | .ok t => loadBytes b t := by
  induction a generalizing s with
  | nil => rfl
  | cons c a ih =>
    simp only [List.cons_append, loadBytes]
    cases memRead s (s.byteAddr c) with
    | error t => rfl
    | ok p => obtain ⟨t, x⟩ := p; exact ih _

/-- Loads of which the first that is not admitted is channel c's raise OOB_READ there, and the loads
before it stay. -/
theorem loadBytes_stops {base : Chan → Nat} {off : Nat} {pre post : List Chan} {c : Chan} {s : State}
    (hnd : (pre ++ c :: post).Nodup) (ha : ∀ d ∈ pre ++ c :: post, s.byteAddr d = base d + off)
    (hp : ∀ d ∈ pre, admitted s.mem (base d + off)) (hc : ¬ admitted s.mem (base c + off)) :
    ∃ sh, loadBytes (pre ++ c :: post) s = .error (State.raise
        { s with sh := sh, trace := s.trace ++ loadTrace s.mem base off s.cyc pre }
        (.oobRead (base c + off))) ∧
      (∀ d ∈ pre, sh.get d = some (byteAt s.mem (base d + off))) ∧
      ∀ d, d ∉ pre → sh.get d = s.sh.get d := by
  obtain ⟨sh, h1, h2, h3⟩ := loadBytes_readable pre (s := s) (base := base) (off := off)
    (List.nodup_append.1 hnd).1 (fun d hd => ha d (List.mem_append_left _ hd)) hp
  have hread : ∀ t : State, t.mem = s.mem →
      memRead t (base c + off) = .error (t.raise (.oobRead (base c + off))) := by
    intro t ht
    unfold memRead
    split
    · next hlt =>
      split
      · next b hb => exact absurd ⟨hlt, by rw [← ht, hb]; rfl⟩ hc
      · rfl
    · rfl
  refine ⟨sh, ?_, h2, h3⟩
  rw [loadBytes_append, h1]
  simp only [loadBytes]
  rw [show State.byteAddr
      { s with sh := sh, trace := s.trace ++ loadTrace s.mem base off s.cyc pre } c =
      base c + off from ha c (by simp)]
  rw [hread { s with sh := sh, trace := s.trace ++ loadTrace s.mem base off s.cyc pre } rfl]

/-- Loads that stop leave the shift registers of the other channels. -/
theorem loadBytes_error_sh {cs : List Chan} {s t : State} (h : loadBytes cs s = .error t) :
    ∀ c, c ∉ cs → t.sh.get c = s.sh.get c := by
  induction cs generalizing s with
  | nil => cases h
  | cons c rest ih =>
    unfold loadBytes at h
    split at h
    · next s' hr =>
      cases h
      obtain ⟨-, rfl⟩ := memRead_error hr
      exact fun _ _ => rfl
    · next s' b hr =>
      obtain ⟨-, -, rfl⟩ := memRead_ok hr
      intro d hd
      simp only [List.mem_cons, not_or] at hd
      rw [ih h d hd.2]
      simp [PerChan.get_set, hd.1]

/-- An accepted TRANSMIT. -/
theorem exec_transmit_accepted {s : State} {n : ChanCount} {count : Nat} {bufs : PerChan Nat}
    (hp : s.phase = .idle) (hc : count < 2 ^ 16) (hb : ∀ c ∈ n.chans, bufs.get c < 2 ^ 16) :
    exec (.transmit n.toNat count bufs) s = .next (startFrame (acceptCommand n count bufs s)) := by
  show execTransmit _ _ _ _ = _
  rw [execTransmit, if_pos hp, ChanCount.ofNat?_toNat]
  simp only [operandsFit_iff.2 ⟨hc, hb⟩, if_true]

/-- The first addresses of an accepted command. -/
theorem byteAddr_accept {n : ChanCount} {count : Nat} {bufs : PerChan Nat} {s : State}
    (h : ∀ c ∈ n.chans, bufs.get c < 2 ^ 16) : ∀ c ∈ n.chans,
    (acceptCommand n count bufs s).byteAddr c = bufs.get c + (s.cfg.order.get 0).toNat := by
  intro c hc
  show ((latchBuffers s.buf bufs n.chans).get c).toNat + 3 * (0 : BitVec 16).toNat + _ = _
  rw [latchBuffers_get, if_pos hc, BitVec.toNat_ofNat, Nat.mod_eq_of_lt (h c hc)]
  rfl

end Sys2Proof.Machine
end

