-- ==== Sys2Proof/Laws/Steps.lean ====
section
/-! SUPPORT. What a step can be, and how the operations of the block move in time and keep the trace
in order. -/
namespace Sys2Proof.Machine

/-- While the host has nothing it can do, the step is the block's own. -/
theorem step_waits {s : State} (h : hostWaits s = true) : step s = blockStep s.tick := by
  unfold hostWaits at h
  unfold step systemStep
  cases hh : s.host with
  | nil => rw [State.tick_no_host hh]
  | cons a r =>
    rw [hh] at h
    simp only [Bool.not_eq_true'] at h
    simp [h]

/-- A step that answers a next state is the block's own, or a host action that may be done. -/
theorem step_next {s t : State} (h : step s = .next t) : blockStep s.tick = .next t ∨
    ∃ a rest, s.host = a :: rest ∧ a.mayStep s.phase = true ∧
      hostStep a { s with host := rest } = .next t := by
  unfold step systemStep at h
  split at h
  · next hh => rw [State.tick_no_host hh]; exact .inl h
  · next a rest hh =>
    split at h
    · next hm => exact .inr ⟨a, rest, hh, hm, h⟩
    · exact .inl h

/-- A step of phase RUN raises a fault of the fetch or runs the micro-op at `pc`. -/
theorem runStep_next {s t : State} (h : runStep s = .next t) :
    (∃ f, (∀ a, f ≠ .oobRead a) ∧ t = s.raise f) ∨
    ∃ w i, s.schedule[s.pc]? = some w ∧ decode w = some i ∧ i.isMicroOp = true ∧
      exec i s = .next t := by
  unfold runStep fetch at h
  split at h
  · cases h; exact .inl ⟨_, by simp, rfl⟩
  · cases h; exact .inl ⟨_, by simp, rfl⟩
  · next i hf =>
    split at hf
    · cases hf
    · next w hw =>
      split at hf
      · cases hf
      · next i' hi => cases hf; exact .inr ⟨w, _, hw, hi, decode_isMicroOp hi, h⟩

theorem exitFlag_eq (s : State) : s.exitFlag = restoredIe s.cfg s.ieSaved := rfl

/-! Shifts in time -/

theorem raise_later (s : State) (f : FaultRec) (d : Nat) :
    (s.later d).raise f = (s.raise f).later d := by
  simp [State.later, State.raise, State.emit, State.releaseInterrupts, Event.shift, State.exitFlag]

theorem frameExit_later (s : State) (d : Nat) : frameExit (s.later d) = (frameExit s).later d := by
  have e : s.cyc + d + s.cfg.tExit = s.cyc + s.cfg.tExit + d := by omega
  have e' : s.cyc + s.cfg.tExit + d + s.cfg.holdOf s.ncmd =
      s.cyc + s.cfg.tExit + s.cfg.holdOf s.ncmd + d := by omega
  simp only [State.later, frameExit, State.emit, State.releaseInterrupts, Event.shift,
    State.exitFlag, List.map_append, List.map_cons, List.map_nil, e, e']

theorem loadBytes_later (cs : List Chan) (d : Nat) : ∀ s : State,
    loadBytes cs (s.later d) =
      match loadBytes cs s with
      | .ok t => .ok (t.later d)
      | .error t => .error (t.later d) := by
  induction cs with
  | nil => intro s; rfl
  | cons c cs ih =>
    intro s
    have hm : memRead (s.later d) (s.byteAddr c) =
        match memRead s (s.byteAddr c) with
        | .ok (t, b) => .ok (t.later d, b)
        | .error t => .error (t.later d) := by
      unfold memRead
      split
      · show (match s.mem.read (s.byteAddr c) with | some b => _ | none => _) = _
        cases s.mem.read (s.byteAddr c) with
        | some b => simp [State.later, State.emit, Event.shift]
        | none => simp only []; rw [raise_later]
      · rw [raise_later]
    simp only [loadBytes]
    rw [show (s.later d).byteAddr c = s.byteAddr c from rfl, hm]
    cases memRead s (s.byteAddr c) with
    | error t => rfl
    | ok p =>
      obtain ⟨t, b⟩ := p
      exact ih { t with sh := t.sh.set c (some b) }

/-! Traces in order of time -/

theorem timeOrdered_append {tr evs : List Event} {a b : Nat} (h : timeOrdered tr a) (hab : a ≤ b)
    (ho : (evs.map Event.time).Pairwise (· ≤ ·))
    (h1 : ∀ e ∈ evs, a ≤ e.time ∧ e.time ≤ b) : timeOrdered (tr ++ evs) b := by
  obtain ⟨hp, hle⟩ := h
  refine ⟨?_, ?_⟩
  · rw [List.map_append, List.pairwise_append]
    refine ⟨hp, ho, ?_⟩
    intro x hx y hy
    obtain ⟨e, he, rfl⟩ := List.mem_map.1 hx
    obtain ⟨e', he', rfl⟩ := List.mem_map.1 hy
    have := hle e he
    have := (h1 e' he').1
    omega
  · intro e he
    rcases List.mem_append.1 he with he | he
    · have := hle e he; omega
    · exact (h1 e he).2

/-- Events of the present cycle. -/
theorem timeOrdered_same {tr evs : List Event} {a : Nat} (h : timeOrdered tr a)
    (h1 : ∀ e ∈ evs, e.time = a) : timeOrdered (tr ++ evs) a := by
  refine timeOrdered_append h (Nat.le_refl _) ?_ fun e he => by
    rw [h1 e he]; exact ⟨Nat.le_refl _, Nat.le_refl _⟩
  rw [List.pairwise_map]
  exact List.pairwise_iff_forall_sublist.2 fun hab =>
    Nat.le_of_eq ((h1 _ (hab.subset (by simp))).trans (h1 _ (hab.subset (by simp))).symm)

/-- One event. -/
theorem timeOrdered_one {tr : List Event} {e : Event} {a b : Nat} (h : timeOrdered tr a)
    (hab : a ≤ e.time) (hb : e.time ≤ b) : timeOrdered (tr ++ [e]) b :=
  timeOrdered_append h (by omega) (by simp) fun e' he => by
    rw [List.mem_singleton] at he; subst he; exact ⟨hab, hb⟩

theorem timeOrdered_mono {tr : List Event} {a b : Nat} (h : timeOrdered tr a) (hab : a ≤ b) :
    timeOrdered tr b :=
  ⟨h.1, fun e he => by have := h.2 e he; omega⟩

end Sys2Proof.Machine
end

