-- ==== Sys2Proof/Laws/OnPath.lean ====
section
/-! SUPPORT. Where a sequencer that is on a path stands: the micro-op at `pc`, and what WF says of it
(30_encoding.md R95, R97). -/
namespace Sys2Proof.Machine

theorem pathTest_get (i : Instr) (v tb : PerChan Bool) (c : Chan)
    (h : tb.get c = v.get c ∨ i = .rot c) : (pathTest i v tb).get c = v.get c := by
  cases i with
  | rot d =>
    show (tb.set d (v.get d)).get c = _
    rw [PerChan.get_set]
    split
    · next e => rw [e]
    · next e =>
      rcases h with h | h
      · exact h
      · cases h; exact absurd rfl e
  | nop => rcases h with h | h; exact h; cases h
  | seth => rcases h with h | h; exact h; cases h
  | setl => rcases h with h | h; exact h; cases h
  | bt => rcases h with h | h; exact h; cases h
  | endPath => rcases h with h | h; exact h; cases h
  | transmit => rcases h with h | h; exact h; cases h

/-- The rest of a walk is a walk, in which the test bits of the channels rotated so far are those of
the path. -/
theorem walk_split {s : List Word} {v : PerChan Bool} :
    ∀ {f p t : Nat} {tb : PerChan Bool} {done : List PathOp} {o : PathOp} {rest : List PathOp},
    walk s v f p t tb = some (done ++ o :: rest) →
    ∃ f' t' tb', walk s v (f' + 1) o.index t' tb' = some (o :: rest) ∧
      ∀ c, (tb.get c = v.get c ∨ ∃ x ∈ done, x.op = .rot c) → tb'.get c = v.get c := by
  intro f
  induction f with
  | zero => intro p t tb done o rest h; cases h
  | succ f ih =>
    intro p t tb done o rest h
    obtain ⟨w, i, hw, hi, ⟨rfl, e⟩ | ⟨he, r, hr, e⟩⟩ := walk_cases h
    · cases done with
      | nil =>
        simp only [List.nil_append] at e h
        cases e
        exact ⟨f, t, tb, h, by simp⟩
      | cons d done => simp at e
    · cases done with
      | nil =>
        simp only [List.nil_append] at e h
        cases e
        exact ⟨f, t, tb, h, by simp⟩
      | cons d done =>
        simp only [List.cons_append, List.cons.injEq] at e
        obtain ⟨rfl, rfl⟩ := e
        obtain ⟨f', t', tb', h1, h2⟩ := ih hr
        refine ⟨f', t', tb', h1, fun c hc => h2 c ?_⟩
        rcases hc with hc | ⟨x, hx, hxc⟩
        · exact .inl (pathTest_get i v tb c (.inl hc))
        · rcases List.mem_cons.1 hx with rfl | hx
          · exact .inl (pathTest_get i v tb c (.inr hxc))
          · exact .inr ⟨x, hx, hxc⟩

theorem walk_head {s : List Word} {v : PerChan Bool} {f p t : Nat} {tb : PerChan Bool}
    {ops : List PathOp} (h : walk s v f p t tb = some ops) :
    ops.head?.map PathOp.index = some p := by
  cases f with
  | zero => cases h
  | succ f => obtain ⟨w, i, -, -, ⟨-, rfl⟩ | ⟨-, rest, -, rfl⟩⟩ := walk_cases h <;> rfl

/-- At the start of a path, with a byte in every channel of the command. -/
theorem onPath_start {s : State} (hb : Built s) (hpc : s.pc = 0)
    (hs : ∀ c ∈ s.ncmd.chans, s.sh.get c ≠ none) : OnPath s := by
  obtain ⟨tt, htt, -⟩ := buildRefusal_none hb.1
  let f : Chan → Bool := fun c => testBit ((s.sh.get c).getD 0)
  obtain ⟨ops, hg⟩ := goodPath_of_wf (hb.schedule_wf htt s.ncmd) (maskBits_mem s.ncmd f)
  refine ⟨_, maskBits_mem s.ncmd f, [], ops, hg.path, ?_, ?_⟩
  · rw [hpc]; exact walk_head hg.path
  · intro c hc
    rw [if_neg (by simp)]
    obtain ⟨x, hx⟩ := Option.ne_none_iff_exists'.1 (hs c hc)
    refine ⟨x, hx, ?_⟩
    rw [maskBits_get hc]; simp [f, hx]

theorem occurrences_append (i : Instr) (a b : List PathOp) :
    occurrences i (a ++ b) = occurrences i a + occurrences i b := by
  simp [occurrences]

theorem occurrences_pos {i : Instr} {a : List PathOp} (h : ∃ x ∈ a, x.op = i) :
    0 < occurrences i a := by
  obtain ⟨x, hx, hi⟩ := h
  exact List.length_pos_of_mem (List.mem_filter.2 ⟨hx, by simp [hi]⟩)

theorem before_append {i : Instr} {a b : List PathOp} (h : ¬ ∃ x ∈ a, x.op = i) :
    before i (a ++ b) = a ++ before i b := by
  unfold before
  rw [List.takeWhile_append_of_pos]
  intro x hx
  simp
  exact fun e => h ⟨x, hx, e⟩

/-- The sequencer stands at micro-op `o` of the path of `v`, the micro-ops of `done` behind it. -/
structure PathStep (s : State) (v : PerChan Bool) (done : List PathOp) (o : PathOp)
    (rest : List PathOp) : Prop where
  mem : v ∈ vectors s.ncmd
  path : path s.schedule v = some (done ++ o :: rest)
  index : o.index = s.pc
  bits : ∀ c ∈ s.ncmd.chans,
    if ∃ x ∈ done, x.op = .rot c then s.t.get c = some (v.get c)
    else ∃ x, s.sh.get c = some x ∧ testBit x = v.get c
  word : ∃ w, s.schedule[s.pc]? = some w ∧ decode w = some o.op
  next : o.op ≠ .endPath → rest.head?.map PathOp.index = some (match o.op with
    | .bt c off => if v.get c then s.pc + 1 + off else s.pc + 1
    | _ => s.pc + 1)
  rot : ∀ c ∈ s.ncmd.chans, o.op = .rot c → ¬ ∃ x ∈ done, x.op = .rot c
  bt : ∀ c ∈ s.ncmd.chans, ∀ off, o.op = .bt c off → ∃ x ∈ done, x.op = .rot c
  chan : ∀ c, o.op.channel? = some c → c ∈ s.ncmd.chans

/-- A built instance on a path stands at a micro-op of it. -/
theorem onPath_step {s : State} (hb : Built s) (h : OnPath s) :
    ∃ v done o rest, PathStep s v done o rest := by
  obtain ⟨v, hv, done, rest, hp, hpc, hc⟩ := h
  obtain ⟨tt, htt, -⟩ := buildRefusal_none hb.1
  have hwf := hb.schedule_wf htt s.ncmd
  obtain ⟨ops, hg⟩ := goodPath_of_wf hwf hv
  have e : ops = done ++ rest := by
    have := hg.path
    rw [show path (s.cfg.schedOf s.ncmd) v = _ from hp] at this
    exact (Option.some.inj this).symm
  subst e
  cases rest with
  | nil => cases hpc
  | cons o rest =>
    have hidx : o.index = s.pc := by simpa using hpc
    obtain ⟨f', t', tb', h1, h2⟩ := walk_split hp
    obtain ⟨w, i, hw, hi, hcase⟩ := walk_cases h1
    have hoi : o.op = i := by
      rcases hcase with ⟨-, e⟩ | ⟨-, r, -, e⟩ <;> rw [(List.cons.inj e).1]
    have hmem : w ∈ s.schedule := List.mem_of_getElem? hw
    have hchan : ∀ c, o.op.channel? = some c → c ∈ s.ncmd.chans := by
      intro c hc
      have := List.all_eq_true.1 (scheduleWf_conditions hwf).2.1 w hmem
      rw [hoi] at hc
      simp only [wordLegal, hi, hc, decide_eq_true_eq] at this
      exact (s.ncmd.mem_chans c).2 this
    have hbt : ∀ c ∈ s.ncmd.chans, ∀ off, o.op = .bt c off → ∃ x ∈ done, x.op = .rot c := by
      intro c hcc off ho
      apply Classical.byContradiction
      intro hn
      have := hg.rotFirst c hcc o (by
        rw [before_append hn, before_cons, if_neg (by rw [ho]; simp)]
        simp)
      rw [ho] at this
      simp [isBranchOn] at this
    refine ⟨v, done, o, rest, hv, hp, hidx, hc, ⟨w, by rw [← hidx]; exact hw, by rw [hoi]; exact hi⟩,
      ?_, ?_, hbt, hchan⟩
    · intro hne
      rcases hcase with ⟨e, -⟩ | ⟨-, r, hr, e⟩
      · rw [hoi] at hne; exact absurd e hne
      · rw [(List.cons.inj e).2, walk_head hr, hoi]
        cases i with
        | bt c off =>
          have := h2 c (.inr (hbt c (hchan c (by rw [hoi]; rfl)) off hoi))
          simp only [pathNext, this, hidx]
        | nop => simp [pathNext, hidx]
        | seth => simp [pathNext, hidx]
        | setl => simp [pathNext, hidx]
        | rot => simp [pathNext, hidx]
        | endPath => exact absurd hoi hne
        | transmit => simp [pathNext, hidx]
    · intro c hcc ho hx
      have := hg.rotOnce c hcc
      rw [occurrences_append, occurrences_cons, if_pos ho] at this
      have := occurrences_pos hx
      omega

end Sys2Proof.Machine
end

