-- ==== Sys2Proof/Laws/PerInstr.lean ====
section
/-! SUPPORT. One lemma for each instruction about its encoding as syntax (30_encoding.md R83 to R91,
R94). -/
namespace Sys2Proof.Laws.F

/-- A micro-op is one word, whose channel field holds its channel; TRANSMIT has no word. -/
def Statement (i : Instr) : Prop :=
  (encode i).length = (if i.isMicroOp then 1 else 0) ∧
  ∀ w ∈ encode i, ∀ c, i.channel? = some c → decodeChan w = some c

theorem chanWord {opc mid : Nat} (c : Chan) :
    decodeChan (formatWord opc (mid * 4 + c.val)) = some c := by
  apply decodeChan_some
  simp only [field, formatWord, BitVec.toNat_ofNat]
  omega

theorem nop (n : Nat) : Statement (.nop n) := ⟨rfl, fun _ _ _ h => by cases h⟩

theorem seth (c : Chan) : Statement (.seth c) := ⟨rfl, fun w h d hd => by
  cases hd
  rw [List.mem_singleton.1 h]
  simpa [wordSeth] using chanWord (opc := 1) (mid := 0) c⟩

theorem setl (c : Chan) : Statement (.setl c) := ⟨rfl, fun w h d hd => by
  cases hd
  rw [List.mem_singleton.1 h]
  simpa [wordSetl] using chanWord (opc := 2) (mid := 0) c⟩

theorem rot (c : Chan) : Statement (.rot c) := ⟨rfl, fun w h d hd => by
  cases hd
  rw [List.mem_singleton.1 h]
  simpa [wordRot] using chanWord (opc := 3) (mid := 0) c⟩

theorem bt (c : Chan) (off : Nat) : Statement (.bt c off) := ⟨rfl, fun w h d hd => by
  cases hd
  rw [List.mem_singleton.1 h]
  exact chanWord (opc := 4) (mid := off) c⟩

theorem endPath : Statement .endPath := ⟨rfl, fun _ _ _ h => by cases h⟩

theorem transmit (n count : Nat) (bufs : PerChan Nat) : Statement (.transmit n count bufs) :=
  ⟨rfl, fun _ h => by cases h⟩

end Sys2Proof.Laws.F
end

