-- ==== Sys2Proof/Laws/Waveform.lean ====
section
/-! SUPPORT. What the trace of a command shows: each line's waveform, the reads, the interrupt flag
(30_encoding.md R80, R82; 20_memory.md R66; 44_frame_transmitter.md R175, R176, R186). -/
namespace Sys2Proof.Machine

/-- The address of the byte number `q` of a buffer's frame, in the order sent. -/
theorem frameAddrs_eq (cfg : Config) (base count : Nat) :
    frameAddrs cfg base count =
      (List.range (3 * count)).map fun q => base + sentOffset cfg q := by
  unfold frameAddrs
  induction count with
  | zero => rfl
  | succ c ih =>
    rw [List.range_succ, List.flatMap_append, ih, show 3 * (c + 1) = 3 * c + 1 + 1 + 1 by omega,
      List.range_succ, List.range_succ, List.range_succ]
    have h0 : slotOf (3 * c) = 0 := Fin.ext (by show 3 * c % 3 = 0; omega)
    have h1 : slotOf (3 * c + 1) = 1 := Fin.ext (by show (3 * c + 1) % 3 = 1; omega)
    have h2 : slotOf (3 * c + 1 + 1) = 2 := Fin.ext (by show (3 * c + 1 + 1) % 3 = 2; omega)
    have k0 : 3 * c / 3 = c := by omega
    have k1 : (3 * c + 1) / 3 = c := by omega
    have k2 : (3 * c + 1 + 1) / 3 = c := by omega
    simp only [List.map_append, List.append_assoc, List.map_cons, List.map_nil, List.cons_append,
      List.nil_append, List.flatMap_cons, List.flatMap_nil, List.append_nil, colorAddrs, slotOrder,
      sentOffset, h0, h1, h2, k0, k1, k2, PerChan.get, Nat.add_assoc]

/-- The bits of the bytes from number `q` on, `r` bytes following it. -/
def bitsFrom (cfg : Config) (mem : Memory) (base : Nat) : Nat → Nat → List Bool
  | 0, q => byteBits (byteAt mem (base + sentOffset cfg q))
  | r + 1, q => byteBits (byteAt mem (base + sentOffset cfg q)) ++ bitsFrom cfg mem base r (q + 1)

theorem bitsFrom_eq (cfg : Config) (mem : Memory) (base r q : Nat) :
    bitsFrom cfg mem base r q =
      (List.range' q (r + 1)).flatMap fun i => byteBits (byteAt mem (base + sentOffset cfg i)) := by
  induction r generalizing q with
  | zero => simp [bitsFrom]
  | succ r ih =>
    rw [bitsFrom, ih, List.range'_succ (n := r + 1), List.flatMap_cons]

/-- The frame of a channel, byte by byte. -/
theorem frameBits_eq (cfg : Config) (mem : Memory) (base c : Nat) :
    frameBits cfg mem base (c + 1) = bitsFrom cfg mem base (3 * c + 2) 0 := by
  rw [frameBits, frameAddrs_eq, bitsFrom_eq, List.flatMap_map, List.range_eq_range']
  rfl

theorem byteBits_length (b : Byte) : (byteBits b).length = 8 := rfl

theorem lineEvents_loadTrace (c : Chan) (mem : Memory) (base : Chan → Nat) (off p : Nat)
    (cs : List Chan) : lineEvents c (loadTrace mem base off p cs) = [] := by
  induction cs with
  | nil => rfl
  | cons d cs ih => exact ih

theorem ieEvents_loadTrace (mem : Memory) (base : Chan → Nat) (off p : Nat) (cs : List Chan) :
    ieEvents (loadTrace mem base off p cs) = [] := by
  induction cs with
  | nil => rfl
  | cons d cs ih => exact ih

theorem readEvents_loadTrace (mem : Memory) (base : Chan → Nat) (off p : Nat) (cs : List Chan) :
    readEvents (loadTrace mem base off p cs) = cs.map fun c => (p, base c + off) := by
  induction cs with
  | nil => rfl
  | cons d cs ih => exact congrArg ((p, base d + off) :: ·) ih

/-- The waveform of a channel of the command over the rest of a frame. -/
theorem lineEvents_frameTrace {cfg : Config} {n : ChanCount} {tt : Timing}
    (hwf : scheduleWf (cfg.schedOf n) n tt = true) {c : Chan} (hc : c ∈ n.chans) {φ : Nat}
    (hφ : phase? (cfg.schedOf n) c = some φ) (mem : Memory) (base : Chan → Nat) (r p q : Nat) :
    lineEvents c (frameTrace cfg n mem base tt.tbit r p q) =
      bitWaveform tt (p + φ) (bitsFrom cfg mem (base c) r q) := by
  have hbyte : ∀ p q, lineEvents c (bitsTrace (cfg.schedOf n) n tt.tbit 8 p
      (sentBytes cfg mem base q)) =
      bitWaveform tt (p + φ) (byteBits (byteAt mem (base c + sentOffset cfg q))) := fun p q => by
    rw [lineEvents_bitsTrace hwf hc hφ, leadingBits_eight]; rfl
  induction r generalizing p q with
  | zero => exact hbyte p q
  | succ r ih =>
    rw [frameTrace, lineEvents_append, lineEvents_append, lineEvents_loadTrace, hbyte, ih, bitsFrom,
      bitWaveform_append, byteBits_length, List.append_nil,
      show p + 8 * tt.tbit + φ = p + φ + 8 * tt.tbit by omega]

theorem lineEvents_frameTrace_quiet {cfg : Config} {n : ChanCount} {tt : Timing}
    (hwf : scheduleWf (cfg.schedOf n) n tt = true) {c : Chan} (hc : c ∉ n.chans) (mem : Memory)
    (base : Chan → Nat) (r p q : Nat) :
    lineEvents c (frameTrace cfg n mem base tt.tbit r p q) = [] := by
  induction r generalizing p q with
  | zero => exact lineEvents_bitsTrace_quiet hwf hc ..
  | succ r ih =>
    rw [frameTrace, lineEvents_append, lineEvents_append, lineEvents_loadTrace, ih,
      lineEvents_bitsTrace_quiet hwf hc]
    rfl

/-- The line of a channel of the command over a whole command: its frame's waveform, from
`P0 + phi(c)` on. -/
theorem lineEvents_commandTrace {cfg : Config} {n : ChanCount} {tt : Timing}
    (hwf : scheduleWf (cfg.schedOf n) n tt = true) {c : Chan} (hc : c ∈ n.chans) {φ : Nat}
    (hφ : phase? (cfg.schedOf n) c = some φ) (mem : Memory) (bufs : PerChan Nat)
    (count t0 : Nat) (ie : Bool) :
    lineEvents c (commandTrace cfg n mem bufs tt count t0 ie) =
      bitWaveform tt (t0 + cfg.tStart + φ) (frameBits cfg mem (bufs.get c) count) := by
  have hframe : lineEvents c (wholeFrame cfg n mem bufs.get tt.tbit count (t0 + cfg.tStart)) =
      bitWaveform tt (t0 + cfg.tStart + φ) (frameBits cfg mem (bufs.get c) count) := by
    cases count with
    | zero => rfl
    | succ m =>
      rw [wholeFrame, lineEvents_append, lineEvents_loadTrace,
        lineEvents_frameTrace hwf hc hφ, frameBits_eq]
      rfl
  rw [commandTrace, ← List.singleton_append, lineEvents_append, lineEvents_append, hframe]
  show [] ++ (_ ++ []) = _
  simp

/-- The line of a channel that is not of the command. -/
theorem lineEvents_commandTrace_quiet {cfg : Config} {n : ChanCount} {tt : Timing}
    (hwf : scheduleWf (cfg.schedOf n) n tt = true) {c : Chan} (hc : c ∉ n.chans) (mem : Memory)
    (bufs : PerChan Nat) (count t0 : Nat) (ie : Bool) :
    lineEvents c (commandTrace cfg n mem bufs tt count t0 ie) = [] := by
  have hframe : lineEvents c (wholeFrame cfg n mem bufs.get tt.tbit count (t0 + cfg.tStart)) = [] := by
    cases count with
    | zero => rfl
    | succ m =>
      rw [wholeFrame, lineEvents_append, lineEvents_loadTrace,
        lineEvents_frameTrace_quiet hwf hc]
      rfl
  rw [commandTrace, ← List.singleton_append, lineEvents_append, lineEvents_append, hframe]
  rfl

theorem ieEvents_frameTrace (cfg : Config) (n : ChanCount) (mem : Memory) (base : Chan → Nat)
    (tbit r p q : Nat) : ieEvents (frameTrace cfg n mem base tbit r p q) = [] := by
  induction r generalizing p q with
  | zero => exact (bitsTrace_lines ..).2
  | succ r ih =>
    rw [frameTrace, ieEvents_append, ieEvents_append, ieEvents_loadTrace, ih, (bitsTrace_lines ..).2]
    rfl

/-- The interrupt flag over a command: cleared at acceptance, set at the exit. -/
theorem ieEvents_commandTrace (cfg : Config) (n : ChanCount) (mem : Memory) (bufs : PerChan Nat)
    (tt : Timing) (count t0 : Nat) (ie : Bool) :
    ieEvents (commandTrace cfg n mem bufs tt count t0 ie) =
      [(t0, false), (exitCycle cfg tt count t0, restoredIe cfg ie)] := by
  have hframe : ieEvents (wholeFrame cfg n mem bufs.get tt.tbit count (t0 + cfg.tStart)) = [] := by
    cases count with
    | zero => rfl
    | succ m =>
      rw [wholeFrame, ieEvents_append, ieEvents_loadTrace, ieEvents_frameTrace]
      rfl
  rw [commandTrace, ← List.singleton_append, ieEvents_append, ieEvents_append, hframe]
  rfl

/-- The reads of the byte number `q` at cycle `p`. -/
def readsAt (cfg : Config) (n : ChanCount) (base : Chan → Nat) (p q : Nat) : List (Nat × Nat) :=
  n.chans.map fun c => (p, base c + sentOffset cfg q)

/-- The reads over the rest of a frame: each later byte at its start. -/
theorem readEvents_frameTrace (cfg : Config) (n : ChanCount) (mem : Memory) (base : Chan → Nat)
    (tbit r p q : Nat) : readEvents (frameTrace cfg n mem base tbit r p q) =
      (List.range' 1 r).flatMap fun i => readsAt cfg n base (p + 8 * i * tbit) (q + i) := by
  induction r generalizing p q with
  | zero => exact (bitsTrace_lines ..).1
  | succ r ih =>
    rw [frameTrace, readEvents_append, readEvents_append, readEvents_loadTrace, ih,
      (bitsTrace_lines ..).1, List.range'_succ, List.flatMap_cons, List.nil_append]
    congr 1
    rw [List.range'_eq_map_range, List.range'_eq_map_range, List.flatMap_map, List.flatMap_map]
    refine congrArg List.flatten (List.map_congr_left fun i _ => ?_)
    rw [show 8 * (1 + 1 + i) = 8 + 8 * (1 + i) by omega, Nat.add_mul, ← Nat.add_assoc p,
      show q + (1 + 1 + i) = q + 1 + (1 + i) by omega]

/-- The reads of a command, byte by byte. -/
theorem readEvents_commandTrace (cfg : Config) (n : ChanCount) (mem : Memory) (bufs : PerChan Nat)
    (tt : Timing) (count t0 : Nat) (ie : Bool) :
    readEvents (commandTrace cfg n mem bufs tt count t0 ie) =
      (List.range (3 * count)).flatMap fun q =>
        readsAt cfg n bufs.get (t0 + cfg.tStart + 8 * q * tt.tbit) q := by
  have hframe : readEvents (wholeFrame cfg n mem bufs.get tt.tbit count (t0 + cfg.tStart)) =
      (List.range (3 * count)).flatMap fun q =>
        readsAt cfg n bufs.get (t0 + cfg.tStart + 8 * q * tt.tbit) q := by
    cases count with
    | zero => rfl
    | succ m =>
      rw [wholeFrame, readEvents_append, readEvents_loadTrace, readEvents_frameTrace,
        List.range_eq_range', show 3 * (m + 1) = 3 * m + 2 + 1 by omega,
        List.range'_succ (n := 3 * m + 2), List.flatMap_cons]
      simp [readsAt]
  rw [commandTrace, ← List.singleton_append, readEvents_append, readEvents_append, hframe]
  show [] ++ (_ ++ []) = _
  simp

/-- The same reads, color by color and slot by slot. -/
theorem frameReads_eq (cfg : Config) (n : ChanCount) (bufs : PerChan Nat) (tbit p0 count : Nat) :
    (List.range (3 * count)).flatMap (fun q => readsAt cfg n bufs.get (p0 + 8 * q * tbit) q) =
      frameReads cfg n bufs tbit p0 count := by
  simp only [frameReads, slotReads]
  induction count with
  | zero => rfl
  | succ c ih =>
    have h0 : slotOf (3 * c) = 0 := Fin.ext (by show 3 * c % 3 = 0; omega)
    have h1 : slotOf (3 * c + 1) = 1 := Fin.ext (by show (3 * c + 1) % 3 = 1; omega)
    have h2 : slotOf (3 * c + 1 + 1) = 2 := Fin.ext (by show (3 * c + 1 + 1) % 3 = 2; omega)
    have k0 : 3 * c / 3 = c := by omega
    have k1 : (3 * c + 1) / 3 = c := by omega
    have k2 : (3 * c + 1 + 1) / 3 = c := by omega
    have m0 : 8 * (3 * c) = 24 * c := by omega
    have m1 : 8 * (3 * c + 1) = 24 * c + 8 := by omega
    have m2 : 8 * (3 * c + 1 + 1) = 24 * c + 16 := by omega
    rw [List.range_succ (n := c), List.flatMap_append, ← ih,
      show 3 * (c + 1) = 3 * c + 1 + 1 + 1 by omega, List.range_succ, List.range_succ,
      List.range_succ]
    simp [List.range_succ, List.flatMap_append, readsAt, sentOffset, h0, h1, h2, k0, k1, k2, m0, m1,
      m2, slotOrder, PerChan.get]

/-- The reference decoder reads back the bits of a waveform whose low intervals are shorter than
`treset` (44_frame_transmitter.md R186). -/
theorem decodeLevels_bitWaveform {tt : Timing} (h1 : tt.t0h < tt.t1h)
    (h3 : tt.tbit < tt.treset + tt.t0h) (bits : List Bool) :
    ∀ (start : Nat) (low : Option Nat), (∀ f, low = some f → start < f + tt.treset) →
      decodeLevels tt (bitWaveform tt start bits) none low = some bits := by
  induction bits with
  | nil => intro start low _; rfl
  | cons x bits ih =>
    intro start low hlow
    have hc : classify tt (start + highTime tt x - start) = some x := by
      rw [Nat.add_sub_cancel_left]
      cases x
      · simp [classify, highTime]
      · simp [classify, highTime, show tt.t1h ≠ tt.t0h by omega]
    have hrest := ih (start + tt.tbit) (some (start + highTime tt x)) (by
      intro f hf
      cases hf
      cases x <;> simp only [highTime, Bool.false_eq_true, if_false, if_true] <;> omega)
    cases low with
    | none => simp only [bitWaveform, decodeLevels, hc, hrest, Option.map_some]
    | some f =>
      have := hlow f rfl
      simp only [bitWaveform, decodeLevels, hc, hrest, Option.map_some,
        if_neg (show ¬ f + tt.treset ≤ start by omega)]

end Sys2Proof.Machine
end

