-- ==== Sys2Proof/Laws/Table.lean ====
section
/-! SUPPORT. The dispatch table of a schedule, and that the trace of a command is the one read off it
(30_encoding.md R99). -/
namespace Sys2Proof.Machine

theorem dispatchTable_length (s : List Word) (n : ChanCount) :
    (dispatchTable s n).length = 2 ^ n.toNat := by
  simp [dispatchTable]

/-- The entry of a bit-value vector is its path. -/
theorem dispatchTable_get (s : List Word) {n : ChanCount} {v : PerChan Bool} (hv : v ∈ vectors n) :
    (dispatchTable s n)[tableIndex v]? = some (path s v) := by
  have h : tableIndex v < 2 ^ n.toNat ∧ tableVector (tableIndex v) = v := by
    revert v
    cases n <;> decide
  rw [dispatchTable, List.getElem?_map, List.getElem?_range h.1, Option.map_some, h.2]

theorem dispatch_eq (s : List Word) {n : ChanCount} {v : PerChan Bool} (hv : v ∈ vectors n) :
    dispatch (dispatchTable s n) v = (path s v).getD [] := by
  rw [dispatch, dispatchTable_get s hv, Option.getD_some]

/-- The line events of one bit position, by the table. -/
theorem bitTrace_eq_dispatch (s : List Word) (n : ChanCount) (p : Nat) (f : Chan → Bool) :
    pathEvents p (dispatch (dispatchTable s n) (maskBits n f)) = bitTrace s n p f := by
  rw [bitTrace, dispatch_eq s (maskBits_mem n f)]

theorem maskBits_congr {n : ChanCount} {f g : Chan → Bool} (h : ∀ c ∈ n.chans, f c = g c) :
    maskBits n f = maskBits n g := by
  cases n
  · simp [maskBits, h 0 (by decide)]
  · simp [maskBits, h 0 (by decide), h 1 (by decide)]
  · simp [maskBits, h 0 (by decide), h 1 (by decide), h 2 (by decide)]

/-- The line events of `m` bit positions, by the table. -/
theorem bitsTrace_eq_range (s : List Word) (n : ChanCount) (tbit m p : Nat) (x : Chan → Byte) :
    bitsTrace s n tbit m p x = (List.range m).flatMap fun j =>
      bitTrace s n (p + j * tbit) fun c => (leadingBits m (x c)).getD j false := by
  induction m generalizing p x with
  | zero => rfl
  | succ m ih =>
    rw [bitsTrace, ih, List.range_succ_eq_map, List.flatMap_cons, List.flatMap_map]
    simp [leadingBits, Nat.succ_mul, Nat.add_assoc, Nat.add_comm tbit]

theorem frameBits_byte (cfg : Config) (mem : Memory) (base : Nat) {count q j : Nat}
    (hq : q < 3 * count) (hj : j < 8) :
    (frameBits cfg mem base count).getD (8 * q + j) false =
      (byteBits (byteAt mem (base + sentOffset cfg q))).getD j false := by
  have key : ∀ (l : List Nat) (q : Nat) (a : Nat), l[q]? = some a →
      (l.flatMap fun a => byteBits (byteAt mem a))[8 * q + j]? = (byteBits (byteAt mem a))[j]? := by
    intro l
    induction l with
    | nil => intro q a h; cases h
    | cons b l ih =>
      intro q a h
      rw [List.flatMap_cons]
      cases q with
      | zero =>
        cases h
        rw [List.getElem?_append_left (by rw [byteBits_length]; omega), Nat.mul_zero, Nat.zero_add]
      | succ q =>
        rw [List.getElem?_append_right (by rw [byteBits_length]; omega), byteBits_length,
          show 8 * (q + 1) + j - 8 = 8 * q + j by omega]
        exact ih q a h
  rw [List.getD_eq_getElem?_getD, List.getD_eq_getElem?_getD, frameBits, frameAddrs_eq]
  rw [key _ q _ (by rw [List.getElem?_map, List.getElem?_range hq, Option.map_some])]

theorem slotOrder_getD (cfg : Config) (q : Nat) :
    (slotOrder cfg).getD (q % 3) 0 = (cfg.order.get (slotOf q)).toNat := by
  have h3 : q % 3 = 0 ∨ q % 3 = 1 ∨ q % 3 = 2 := by omega
  rcases h3 with h | h | h
  · rw [h, show slotOf q = 0 from Fin.ext h]; rfl
  · rw [h, show slotOf q = 1 from Fin.ext h]; rfl
  · rw [h, show slotOf q = 2 from Fin.ext h]; rfl

/-- The reads of a byte are the loads the block makes. -/
theorem byteLoads_eq (cfg : Config) (n : ChanCount) (mem : Memory) (bufs : PerChan Nat) (p q : Nat) :
    byteLoads cfg n mem bufs p q = loadTrace mem bufs.get (sentOffset cfg q) p n.chans := by
  simp only [byteLoads, loadTrace, slotOrder_getD, sentOffset, Nat.add_assoc]

/-- The paths of a byte are those its bits take. -/
theorem tablePaths_eq (cfg : Config) (n : ChanCount) (mem : Memory) (bufs : PerChan Nat)
    (tbit p0 : Nat) {count q : Nat} (hq : q < 3 * count) :
    tablePaths (dispatchTable (cfg.schedOf n) n) n tbit p0
        (fun c i => (frameBits cfg mem (bufs.get c) count).getD i false) q =
      bitsTrace (cfg.schedOf n) n tbit 8 (p0 + 8 * q * tbit) (sentBytes cfg mem bufs.get q) := by
  rw [tablePaths, bitsTrace_eq_range]
  refine congrArg List.flatten (List.map_congr_left fun j hj => ?_)
  rw [bitTrace_eq_dispatch, Nat.add_mul, Nat.add_assoc]
  congr 1
  funext c
  rw [frameBits_byte cfg mem (bufs.get c) hq (List.mem_range.1 hj), leadingBits_eight]
  rfl

/-- The rest of a frame, byte by byte. -/
theorem frameTrace_eq_range (cfg : Config) (n : ChanCount) (mem : Memory) (base : Chan → Nat)
    (tbit r p q : Nat) :
    loadTrace mem base (sentOffset cfg q) p n.chans ++ frameTrace cfg n mem base tbit r p q =
      (List.range (r + 1)).flatMap fun i =>
        loadTrace mem base (sentOffset cfg (q + i)) (p + 8 * i * tbit) n.chans ++
          bitsTrace (cfg.schedOf n) n tbit 8 (p + 8 * i * tbit) (sentBytes cfg mem base (q + i)) := by
  induction r generalizing p q with
  | zero => simp [frameTrace]
  | succ r ih =>
    rw [frameTrace, List.append_assoc, ih, List.range_succ_eq_map (n := r + 1), List.flatMap_cons,
      List.flatMap_map, Nat.mul_zero, Nat.zero_mul, Nat.add_zero, Nat.add_zero, List.append_assoc]
    congr 2
    refine congrArg List.flatten (List.map_congr_left fun i _ => ?_)
    rw [Nat.succ_eq_add_one, show q + 1 + i = q + (i + 1) by omega,
      show p + 8 * tbit + 8 * i * tbit = p + 8 * (i + 1) * tbit by
        rw [show 8 * (i + 1) = 8 + 8 * i by omega, Nat.add_mul, Nat.add_assoc]]

/-- The events of a whole frame are those the dispatch table gives. -/
theorem tableFrame_eq (cfg : Config) (n : ChanCount) (mem : Memory) (bufs : PerChan Nat)
    (tbit p0 count : Nat) :
    tableFrame (dispatchTable (cfg.schedOf n) n) cfg n mem bufs tbit p0 count =
      wholeFrame cfg n mem bufs.get tbit count p0 := by
  cases count with
  | zero => rfl
  | succ m =>
    rw [wholeFrame, frameTrace_eq_range, tableFrame, show 3 * (m + 1) = 3 * m + 2 + 1 by omega]
    refine congrArg List.flatten (List.map_congr_left fun q hq => ?_)
    rw [tablePaths_eq _ _ _ _ _ _ (by have := List.mem_range.1 hq; omega), byteLoads_eq, Nat.zero_add]

end Sys2Proof.Machine
end

