-- ==== Sys2Proof/Laws/Times.lean ====
section
/-! SUPPORT. The times of a command's events: bounds, and shifts in time (30_encoding.md R79;
44_frame_transmitter.md R187). -/
namespace Sys2Proof.Machine

theorem loadTrace_time {mem : Memory} {base : Chan → Nat} {off p : Nat} {cs : List Chan} {e : Event}
    (h : e ∈ loadTrace mem base off p cs) : e.time = p := by
  simp only [loadTrace, List.mem_map] at h
  obtain ⟨c, -, rfl⟩ := h
  rfl

/-- Every micro-op of a walk ends by the end of the walk. -/
theorem walk_time {s : List Word} {v : PerChan Bool} {f p t : Nat} {tb : PerChan Bool}
    {ops : List PathOp} (h : walk s v f p t tb = some ops) :
    ∀ o ∈ ops, o.start + cost o.op ≤ t + pathCost ops := by
  induction f generalizing p t tb ops with
  | zero => cases h
  | succ f ih =>
    obtain ⟨w, i, hw, hi, ⟨rfl, rfl⟩ | ⟨-, rest, hrest, rfl⟩⟩ := walk_cases h
    · intro o ho
      rw [List.mem_singleton] at ho
      subst ho
      simp [pathCost]
    · intro o ho
      rw [pathCost_cons]
      rcases List.mem_cons.1 ho with rfl | ho
      · simp
      · have := ih hrest o ho
        simp only; omega

theorem bitTrace_time {s : List Word} {n : ChanCount} {tt : Timing}
    (hwf : scheduleWf s n tt = true) {p : Nat} {f : Chan → Bool} {e : Event}
    (he : e ∈ bitTrace s n p f) : e.time ≤ p + tt.tbit := by
  obtain ⟨ops, hg⟩ := goodPath_of_wf hwf (maskBits_mem n f)
  rw [bitTrace, hg.path] at he
  have ht := walk_time hg.path
  rw [hg.cost] at ht
  simp only [pathEvents, Option.getD_some, List.mem_filterMap] at he
  obtain ⟨o, ho, he⟩ := he
  have := ht o ho
  obtain ⟨t, i, op⟩ := o
  cases op <;> simp only [opEvent, reduceCtorEq, Option.some.injEq] at he <;> subst he <;>
    simp [Event.time, cost] at this ⊢ <;> omega

theorem bitsTrace_time {s : List Word} {n : ChanCount} {tt : Timing}
    (hwf : scheduleWf s n tt = true) {e : Event} (m : Nat) : ∀ {p : Nat} {x : Chan → Byte},
    e ∈ bitsTrace s n tt.tbit m p x → e.time ≤ p + m * tt.tbit := by
  induction m with
  | zero => intro p x h; cases h
  | succ m ih =>
    intro p x h
    rw [bitsTrace, List.mem_append] at h
    rw [Nat.succ_mul]
    rcases h with h | h
    · have := bitTrace_time hwf h; omega
    · have := ih h; omega

theorem frameTrace_time {cfg : Config} {n : ChanCount} {tt : Timing}
    (hwf : scheduleWf (cfg.schedOf n) n tt = true) {mem : Memory} {base : Chan → Nat} {e : Event}
    (r : Nat) : ∀ {p q : Nat}, e ∈ frameTrace cfg n mem base tt.tbit r p q →
    e.time ≤ p + 8 * (r + 1) * tt.tbit := by
  induction r with
  | zero => intro p q h; exact bitsTrace_time hwf 8 h
  | succ r ih =>
    intro p q h
    rw [frameTrace, List.mem_append, List.mem_append] at h
    have e1 : 8 * (r + 1 + 1) * tt.tbit = 8 * tt.tbit + 8 * (r + 1) * tt.tbit := by
      rw [← Nat.add_mul]; congr 1; omega
    rcases h with (h | h) | h
    · have := bitsTrace_time hwf 8 h; omega
    · have := loadTrace_time h; omega
    · have := ih h; omega

/-- No event of a frame is later than its last path's end. -/
theorem wholeFrame_time {cfg : Config} {n : ChanCount} {tt : Timing}
    (hwf : scheduleWf (cfg.schedOf n) n tt = true) {mem : Memory} {base : Chan → Nat} {e : Event}
    {count p : Nat} (h : e ∈ wholeFrame cfg n mem base tt.tbit count p) :
    e.time ≤ p + 24 * count * tt.tbit := by
  cases count with
  | zero => cases h
  | succ m =>
    rw [wholeFrame, List.mem_append] at h
    rcases h with h | h
    · have := loadTrace_time h; omega
    · have := frameTrace_time hwf _ h
      rw [show 8 * (3 * m + 2 + 1) = 24 * (m + 1) by omega] at this
      exact this

theorem bitTrace_shift (s : List Word) (n : ChanCount) (p d : Nat) (f : Chan → Bool) :
    (bitTrace s n p f).map (Event.shift d) = bitTrace s n (p + d) f := by
  rw [bitTrace, bitTrace, pathEvents, pathEvents, List.map_filterMap]
  congr 1
  funext o
  obtain ⟨t, i, op⟩ := o
  cases op <;> simp [opEvent, Event.shift] <;> omega

theorem bitsTrace_shift (s : List Word) (n : ChanCount) (tbit d m : Nat) :
    ∀ (p : Nat) (x : Chan → Byte),
    (bitsTrace s n tbit m p x).map (Event.shift d) = bitsTrace s n tbit m (p + d) x := by
  induction m with
  | zero => intro p x; rfl
  | succ m ih =>
    intro p x
    rw [bitsTrace, bitsTrace, List.map_append, ih, bitTrace_shift, Nat.add_right_comm]

theorem loadTrace_shift (mem : Memory) (base : Chan → Nat) (off p d : Nat) (cs : List Chan) :
    (loadTrace mem base off p cs).map (Event.shift d) = loadTrace mem base off (p + d) cs := by
  simp [loadTrace, Event.shift]

theorem frameTrace_shift (cfg : Config) (n : ChanCount) (mem : Memory) (base : Chan → Nat)
    (tbit d r : Nat) : ∀ p q : Nat,
    (frameTrace cfg n mem base tbit r p q).map (Event.shift d) =
      frameTrace cfg n mem base tbit r (p + d) q := by
  induction r with
  | zero => intro p q; exact bitsTrace_shift ..
  | succ r ih =>
    intro p q
    rw [frameTrace, frameTrace, List.map_append, List.map_append, ih, bitsTrace_shift,
      loadTrace_shift, Nat.add_right_comm p]

end Sys2Proof.Machine
end

