-- ==== Sys2Proof/Tests/Slice0.lean ====
section
/-! SUPPORT. Tests of the model against values worked out from the spec: the vectors of
95_test_vectors.md, the listings of 42_bit_encoder.md R140 and 43_interleaver.md R159, R161, and the
encodings of 30_encoding.md. -/
namespace Sys2Proof.Tests
open Sys2Proof.Machine

/-! WellFormed: an ill-formed term for each check. -/

theorem test_wf_nop_zero_refused : (Instr.nop 0).wellFormed = false := by decide
theorem test_wf_nop_4097_refused : (Instr.nop 4097).wellFormed = false := by decide
theorem test_wf_bt_1024_refused : (Instr.bt 0 1024).wellFormed = false := by decide
theorem test_wf_transmit_n0_refused :
    (Instr.transmit 0 1 ⟨0, 0, 0⟩).wellFormed = false := by decide
theorem test_wf_transmit_n4_refused :
    (Instr.transmit 4 1 ⟨0, 0, 0⟩).wellFormed = false := by decide
theorem test_wf_transmit_count_refused :
    (Instr.transmit 1 65536 ⟨0, 0, 0⟩).wellFormed = false := by decide
theorem test_wf_transmit_buffer_refused :
    (Instr.transmit 2 1 ⟨0, 65536, 0⟩).wellFormed = false := by decide
theorem test_wf_transmit_unused_buffer_accepted :
    (Instr.transmit 1 65535 ⟨65535, 65536, 0⟩).wellFormed = true := by decide

/-! Decode: V-DEC of 95_test_vectors.md; words written out from 30_encoding.md R83. -/

theorem test_decode_nop :
    [0x0000, 0x0005, 0x0FFF].map decode =
      [some (.nop 1), some (.nop 6), some (.nop 4096)] := by decide
theorem test_decode_seth :
    [0x1000, 0x1002, 0x1003, 0x1004, 0x13FC].map decode =
      [some (.seth 0), some (.seth 2), none, none, none] := by decide
theorem test_decode_setl : decode 0b0010000000000001 = some (.setl 1) := by decide
theorem test_decode_rot :
    [0x3002, 0x3003].map decode = [some (.rot 2), none] := by decide
theorem test_decode_bt :
    [0x4000, 0x4010, 0x4FFE, 0x4003].map decode =
      [some (.bt 0 0), some (.bt 0 4), some (.bt 2 1023), none] := by decide
theorem test_decode_end :
    [0x5000, 0x5001, 0x5800].map decode = [some .endPath, none, none] := by decide
theorem test_decode_reserved :
    [0x6000, 0x7FFF, 0xF000, 0xFFFF].map decode = [none, none, none, none] := by decide
theorem test_encode :
    encode (.nop 6) = [0x0005] ∧ encode (.seth 2) = [0x1002] ∧ encode (.setl 1) = [0x2001] ∧
    encode (.rot 2) = [0x3002] ∧ encode (.bt 0 4) = [0x4010] ∧ encode .endPath = [0x5000] := by
  decide

/-! A small state: EX20 in phase RUN on a one-word schedule, as V-NOP, V-LINE, V-ROT, V-BT and
V-END of 95_test_vectors.md set it up. -/

/-- EX20 running the given words as SCHED[1]. -/
def running (words : List Word) : State :=
  { State.reset with
    phase := .run
    cfg := { Config.ex20 with sched := { Config.ex20.sched with c0 := words } } }

/-- A three-channel command in progress. -/
def running3 : State := { running [] with ncmd := .three }

/-- The next state of an outcome, or the given state if there is none. -/
def nextOr (d : State) : Result → State
  | .next s => s
  | .fault _ => d
  | .refused _ => d

/-- V-NOP, third row. -/
theorem test_nop_largest :
    let s := nextOr State.reset (exec (.nop 4096) { running [] with cyc := 10, pc := 5 })
    s.cyc = 4106 ∧ s.pc = 6 ∧ s.trace = [] := by decide

/-- V-LINE, first row. -/
theorem test_seth_shared_register :
    let s := nextOr State.reset (exec (.seth 0)
      { running [] with
        cyc := 100
        out := [0b00000001]
        cfg := { Config.ex20 with pin := ⟨⟨0, 3⟩, ⟨0, 1⟩, ⟨0, 2⟩⟩ } })
    s.out = [0b00001001] ∧ s.cyc = 101 ∧ s.trace = [.line 101 0 true] := by decide

/-- V-LINE, fifth row: PIN[2] = (1, 7). -/
theorem test_seth_second_register :
    let s := nextOr State.reset (exec (.seth 2)
      { running3 with
        cyc := 7
        out := [0, 0]
        cfg := { Config.ex20 with pin := ⟨⟨0, 0⟩, ⟨0, 1⟩, ⟨1, 7⟩⟩ } })
    s.out = [0x00, 0x80] ∧ s.trace = [.line 8 2 true] := by decide

/-- V-LINE, second row. -/
theorem test_setl_keeps_other_bit :
    let s := nextOr State.reset (exec (.setl 0)
      { running [] with
        cyc := 109
        out := [0b00001001]
        cfg := { Config.ex20 with pin := ⟨⟨0, 3⟩, ⟨0, 1⟩, ⟨0, 2⟩⟩ } })
    s.out = [0b00000001] ∧ s.cyc = 110 ∧ s.trace = [.line 110 0 false] := by decide

/-- V-LINE, fourth row: the bit is already low and the event is still recorded. -/
theorem test_setl_already_low :
    let s := nextOr State.reset (exec (.setl 0) { running [] with cyc := 5 })
    s.out = [0x00] ∧ s.cyc = 6 ∧ s.trace = [.line 6 0 false] := by decide

/-- V-ROT, first row. -/
theorem test_rot_one :
    let s := nextOr State.reset (exec (.rot 1) { running3 with sh := ⟨none, some 0xA5, none⟩ })
    s.t.c1 = some true ∧ s.sh.c1 = some 0x4A := by decide

/-- V-ROT, last row. -/
theorem test_rot_no_value :
    let s := nextOr State.reset (exec (.rot 0) { running [] with pc := 1 })
    s.phase = .fault ∧ s.flt = some (.noValue 1 0) := by decide

/-- V-BT, first row. -/
theorem test_bt_taken :
    let s := nextOr State.reset (exec (.bt 0 4)
      { running [] with pc := 2, cyc := 2, t := ⟨some true, none, none⟩ })
    s.pc = 7 ∧ s.cyc = 3 := by decide

/-- V-BT, second row. -/
theorem test_bt_not_taken :
    let s := nextOr State.reset (exec (.bt 0 4)
      { running [] with pc := 2, cyc := 2, t := ⟨some false, none, none⟩ })
    s.pc = 3 ∧ s.cyc = 3 := by decide

/-- V-DEC, last paragraph: a channel at or above NCMD. -/
theorem test_channel_not_in_command :
    let s := nextOr State.reset (step (running [0x4011]))
    s.phase = .fault ∧ s.flt = some (.illegalOp 0 0x4011) := by decide

/-- V-BT, last row: the fetch past the schedule. -/
theorem test_pc_range :
    let s := nextOr State.reset (step { running ref1Ex20 with pc := 15 })
    s.flt = some (.pcRange 15) ∧ s.phase = .fault := by decide

/-- The state of V-END. -/
def ending : State :=
  { running [0x5000] with
    count := 2
    buf := ⟨0x0100, 0, 0⟩
    ieSaved := true
    biti := 7
    mem := [(0x100, 0x11), (0x101, 0x22), (0x102, 0x33), (0x103, 0x44), (0x104, 0x55),
      (0x105, 0x66)] }

/-- V-END, second row. -/
theorem test_end_next_byte :
    let s := nextOr State.reset (step { ending with cyc := 200 })
    s.biti = 0 ∧ s.slot = 1 ∧ s.k = 0 ∧ s.sh.c0 = some 0x22 ∧
    s.trace = [.read 200 0x101 0x22] ∧ s.pc = 0 := by decide

/-- V-END, fourth row. -/
theorem test_end_of_frame :
    let s := nextOr State.reset (step { ending with slot := 2, k := 1, cyc := 1200 })
    s.k = 2 ∧ s.trace = [.ie 1200 true] ∧ s.holdEnd = 2200 ∧ s.phase = .hold := by decide

/-- V-CMD, first row. -/
theorem test_transmit_starts :
    let s := nextOr State.reset (exec (.transmit 1 1 ⟨0x100, 0, 0⟩)
      { State.reset with ie := true, mem := [(0x100, 1)] })
    s.ieSaved = true ∧ s.ie = false ∧ s.sh.c0 = some 1 ∧ s.pc = 0 ∧ s.phase = .run ∧
    s.trace = [.ie 0 false, .read 0 0x100 1] := by decide

/-- P5: the fault in the first load of the second channel; V-CMD: the three command refusals. -/
theorem test_transmit_faults_and_refusals :
    (let s := nextOr State.reset (exec (.transmit 2 1 ⟨0x100, 0x300, 0⟩)
      { State.reset with ie := true, mem := [(0x100, 0x80), (0x101, 1), (0x102, 0xFF)] })
    s.sh = ⟨some 0x80, none, none⟩ ∧ s.phase = .fault ∧
    s.trace = [.ie 0 false, .read 0 0x100 0x80, .fault 0 (.oobRead 0x300), .ie 0 true]) ∧
    (nextOr State.reset (exec (.transmit 4 1 ⟨0, 0, 0⟩) State.reset)).refused = some .cmdN ∧
    (nextOr State.reset (exec (.transmit 1 65536 ⟨0x100, 0, 0⟩) State.reset)).refused =
      some .cmdOperand ∧
    (nextOr State.reset (exec (.transmit 1 1 ⟨0x100, 0, 0⟩) (running []))).refused =
      some .cmdBusy := by decide

/-- V-CMD: the hold step. -/
theorem test_hold_done :
    let s := nextOr State.reset (step { State.reset with phase := .hold, holdEnd := 2200, cyc := 1200 })
    s.cyc = 2200 ∧ s.trace = [.done 2200] ∧ s.phase = .idle := by decide

/-- Only block reset leaves FAULT (70_reset_and_hazards.md R220). -/
theorem test_block_reset_leaves_fault :
    let s := nextOr State.reset
      (step { State.reset with phase := .fault, flt := some (.pcRange 3), host := [.blockReset] })
    s.phase = .idle ∧ s.flt = none := by decide

/-- A block reset part-way through the first path of a command, its line high and IE 0
(70_reset_and_hazards.md R221): both stay, and there is no Done. -/
theorem test_reset_mid_frame :
    let s := { State.reset with
      ie := true
      host := [.writeMem 0x100 0x80, .transmit 1 1 ⟨0x100, 0, 0⟩, .letRun 1, .blockReset] }
    (let u := nextOr State.reset (core.run 3 s)
     u.phase = .run ∧ u.pc = 1 ∧ u.line? 0 = some true ∧ u.host = [.letRun 0, .blockReset]) ∧
    let u := nextOr State.reset (core.run 5 s)
    u.phase = .idle ∧ u.line? 0 = some true ∧ u.ie = false ∧ u.trace = [] ∧ u.host = [] := by decide

/-! The reference schedules, WF and the build checks. -/

theorem test_ref1_listing : refSchedule .one timingEx20 = ref1Ex20 := by decide
theorem test_ref2_listing : refSchedule .two timingEx20 = ref2Ex20 := by decide
theorem test_ref3_listing : refSchedule .three timingEx20 = ref3Ex20 := by decide

/-- 43_interleaver.md R159, R161: 29 and 65 words. -/
theorem test_ref_lengths : ref2Ex20.length = 29 ∧ ref3Ex20.length = 65 := by decide

/-- 43_interleaver.md R160, row 01. -/
theorem test_ref2_path_01 :
    let p := (path ref2Ex20 ⟨false, true, false⟩).getD []
    pathCost p = 25 ∧ rise 0 p = some 1 ∧ rise 1 p = some 2 ∧ fall 0 p = some 10 ∧
    fall 1 p = some 19 ∧ p.map PathOp.index = [0, 1, 2, 3, 4, 5, 11, 12, 13, 14, 15, 16] := by
  decide

/-- 30_encoding.md R99: the index of 01 is 2, and the table's entry there is that path. -/
theorem test_dispatch_index :
    (vectors .three).map tableIndex = [0, 4, 2, 6, 1, 5, 3, 7] ∧
    (dispatchTable ref2Ex20 .two)[2]? = some (path ref2Ex20 ⟨false, true, false⟩) := by decide

/-- V-WF: the first condition that fails, row by row. -/
theorem test_wf_rows :
    [ref1Ex20,
     [0x1000, 0x3000, 0x4010, 0x0005, 0x2000, 0x000D, 0x5000, 0x000D, 0x2000, 0x0006, 0x5000],
     [0x1000, 0x3000, 0x4010, 0x0004, 0x2000, 0x000F, 0x5000, 0x000D, 0x2000, 0x0006, 0x5000],
     [0x1000, 0x4010, 0x3000, 0x0005, 0x2000, 0x000E, 0x5000, 0x000D, 0x2000, 0x0006, 0x5000],
     [0x1001, 0x3000, 0x4010, 0x0005, 0x2000, 0x000E, 0x5000, 0x000D, 0x2000, 0x0006, 0x5000],
     [0x1000, 0x3000, 0x4010, 0x0005, 0x2000, 0x6000, 0x5000, 0x000D, 0x2000, 0x0006, 0x5000],
     [0x1000, 0x3000, 0x4030, 0x0005, 0x2000, 0x000E, 0x5000, 0x000D, 0x2000, 0x0006, 0x5000],
     [0x1000, 0x3000, 0x4010, 0x0005, 0x2000, 0x000E, 0x5000, 0x000D, 0x2000, 0x0006],
     [],
     [0x3000, 0x4014, 0x1000, 0x0007, 0x2000, 0x000C, 0x5000, 0x0000, 0x1000, 0x000F, 0x2000,
      0x0003, 0x5000]].map (fun s => firstFailure s .one timingEx20) =
    [none, some 6, some 7, some 5, some 2, some 2, some 3, some 4, some 1, some 8] := by decide

/-- EX20 with another timing entry. -/
def withTiming (tt : Timing) : Config := { Config.ex20 with table := [⟨20000000, tt⟩] }

/-- V-TT: build refusals. -/
theorem test_build_refusals :
    [Config.ex20, withTiming ⟨17, 9, 25, 1000⟩, withTiming ⟨9, 17, 17, 1000⟩,
     withTiming ⟨0, 17, 25, 1000⟩, withTiming ⟨9, 17, 25, 0⟩, { Config.ex20 with fCpu := 1 },
     { Config.ex20 with pin := ⟨⟨0, 0⟩, ⟨0, 0⟩, ⟨0, 2⟩⟩ }, { Config.ex20 with order := ⟨0, 0, 2⟩ },
     { Config.ex20 with hold := ⟨1000, 999, 1000⟩ },
     withTiming ⟨5, 17, 25, 1000⟩].map buildRefusal =
    [none, some .buildTable, some .buildTable, some .buildTable, some .buildTable, some .buildFreq,
     some .buildPin, some .buildOrder, some .buildHold, some .buildSched] := by decide

/-- EX20 with a row of another frequency, never selected, that breaks R106: `t0h = t1h`. -/
def badOtherRow : Config :=
  { Config.ex20 with table := [⟨20000000, timingEx20⟩, ⟨16000000, ⟨9, 9, 25, 1000⟩⟩] }

/-- 40_timing_model.md R106: every entry. -/
theorem test_build_checks_every_entry :
    buildRefusal badOtherRow = some .buildTable ∧
    selectedTiming badOtherRow = some timingEx20 := by decide

/-! The assembler. -/

/-- P1 of 95_test_vectors.md section 4. -/
theorem test_assemble_ref1 :
    assemble ("  SETH 0\n ROT 0\n BT 0, one\nzero: NOP 6\n SETL 0\n NOP 15\n END\n" ++
      "one: NOP 14 ; 1-bit leaf\n SETL 0\n NOP 7\n END\n").toList = some ref1Ex20 := by decide

/-! The strip. -/

/-- 44_frame_transmitter.md R186: a 1-bit, a 0-bit, then a low of treset. -/
theorem test_decode_levels :
    decodeTrace timingEx20 0
      [.line 1 0 true, .line 2 1 true, .line 18 0 false, .line 26 0 true, .line 35 0 false] =
      some [true, false] ∧
    decodeTrace timingEx20 0 [.line 1 0 true, .line 9 0 false] = none := by decide

/-- 42_bit_encoder.md R137. -/
theorem test_bit_states :
    [0, 8, 9, 10, 24, 25].map (bitStateAt timingEx20) =
      [.drivingHigh, .drivingHigh, .maybeDropEarly, .drivingLowOrContinuing,
       .drivingLowOrContinuing, .periodEnd] := by decide

/-! Placing an instruction word. -/

theorem test_fetch_word :
    step (State.reset.withFetchWord 16 0x0005) =
      exec (.nop 6) (State.reset.withFetchWord 16 0x0005) := by rfl

theorem test_decode_table_word :
    decodeTableWord 16 0x4010 = some (.bt 0 4) ∧ decodeTableWord 16 0x6000 = none := by decide

/-! Witnesses: for each statement of Sys2Proof/Certificates/Slice0/Obligations.lean that has
hypotheses, a state and operands that meet them, clause by clause. -/

theorem test_meets_stepRuns :
    let s := { running [0x4FFC] with host := [.transmit 1 1 ⟨0, 0, 0⟩] }
    s.phase = .run ∧ hostWaits s = true ∧ s.schedule[s.pc]? = some 0x4FFC ∧
    decode 0x4FFC = some (.bt 0 1023) ∧
    hostWaits { s with host := [.letRun 1, .blockReset] } = true ∧
    (∀ n rest, s.host ≠ .letRun (n + 1) :: rest) ∧
    ({ State.reset with host := [.transmit 3 65535 ⟨0, 0, 0⟩, .blockReset] }).phase = .idle :=
  ⟨by decide, by decide, by decide, by decide, by decide, (fun n rest h => by cases h), by decide⟩

theorem test_meets_decoderFollowsTheTable :
    ((0x0FFF#16).extractLsb' 12 4 = 0) ∧
    ((0x1002#16).extractLsb' 12 4 = 1 ∧ ((0x1002#16).extractLsb' 0 2).toNat = 2) ∧
    ((0x2001#16).extractLsb' 12 4 = 2 ∧ ((0x2001#16).extractLsb' 0 2).toNat = 1) ∧
    ((0x3FFC#16).extractLsb' 12 4 = 3 ∧ ((0x3FFC#16).extractLsb' 0 2).toNat = 0) ∧
    ((0x4FFE#16).extractLsb' 12 4 = 4 ∧ ((0x4FFE#16).extractLsb' 0 2).toNat = 2) ∧
    ((0x1003#16).extractLsb' 0 2 = 3 ∧ 1 ≤ ((0x1003#16).extractLsb' 12 4).toNat) ∧
    ((0x4003#16).extractLsb' 0 2 = 3 ∧ ((0x4003#16).extractLsb' 12 4).toNat ≤ 4) ∧
    ((0x5001#16).extractLsb' 12 4 = 5) ∧ 6 ≤ ((0x6000#16).extractLsb' 12 4).toNat ∧
    decode 0x4FFE = some (.bt 2 1023) := by decide

theorem test_meets_decodingUndoesEncoding :
    [Instr.nop 1, .nop 4096, .seth 2, .setl 2, .rot 2, .bt 2 1023, .endPath].all
      (fun i => i.wellFormed && i.isMicroOp) = true ∧
    (Instr.transmit 3 65535 ⟨65535, 65535, 65535⟩).wellFormed = true ∧
    (Instr.transmit 3 65535 ⟨65535, 65535, 65535⟩).isMicroOp = false := by decide

/-- EX20 with an illegal word as its only schedule for one channel. -/
def illegalSchedule : Config :=
  { Config.ex20 with sched := { Config.ex20.sched with c0 := [0x5001] } }

theorem test_meets_illegalWords :
    decode 0x5001 = none ∧ 0x5001 ∈ illegalSchedule.schedOf .one ∧
    selectedTiming illegalSchedule = some timingEx20 ∧
    (∀ row ∈ illegalSchedule.table, timingOk row.entry = true) ∧
    pinsOk illegalSchedule.nReg illegalSchedule.pin = true ∧
    orderOk illegalSchedule.order = true ∧
    holdsOk illegalSchedule.hold timingEx20.treset = true ∧
    hostWaits (running [0x5001]) = true ∧
    (running [0x5001]).schedule[(running [0x5001]).pc]? = some 0x5001 := by decide

/-- PAD of 4096 and of 4097 cycles (30_encoding.md R93). -/
theorem test_pad_boundary :
    pad 4096 = [.nop 4096] ∧ pad 4097 = [.nop 4096, .nop 1] := by decide

/-- A three-channel command whose channel 2 drives bit 7 of the second of two registers. -/
def twoRegisters : State :=
  { running3 with
    out := [0xFF, 0x80]
    cfg := { Config.ex20 with nReg := 2, pin := ⟨⟨0, 0⟩, ⟨0, 1⟩, ⟨1, 7⟩⟩ }
    sh := ⟨some 0x80, some 0, some 0xFF⟩
    t := ⟨some true, some false, none⟩ }

theorem test_meets_lineMicroOps :
    (2 : Chan).val < twoRegisters.ncmd.toNat ∧
    twoRegisters.out[(twoRegisters.cfg.pin.get 2).reg]? = some 0x80 ∧
    (twoRegisters.cfg.pin.get 2).bit < 8 ∧
    (twoRegisters.cfg.pin.get 2).reg < twoRegisters.out.length := by decide

theorem test_ex20_is_built : buildRefusal Config.ex20 = none := by decide

theorem test_meets_sharedRegisters :
    ({ State.reset with ncmd := .three }).cfg = Config.ex20 ∧ (0 : Chan) ≠ 2 ∧
    (Config.ex20.pin.get 0).reg = (Config.ex20.pin.get 2).reg ∧
    (∃ t, exec (.seth 0) { State.reset with ncmd := .three } = .next t) ∧
    ∃ t, exec (.setl 2) { State.reset with ncmd := .three } = .next t :=
  ⟨rfl, by decide, rfl, ⟨_, rfl⟩, ⟨_, rfl⟩⟩

theorem test_meets_rot_and_bt :
    (2 : Chan).val < twoRegisters.ncmd.toNat ∧ twoRegisters.sh.get 2 = some 0xFF ∧
    twoRegisters.t.get 0 = some true ∧ twoRegisters.t.get 1 = some false ∧
    twoRegisters.t.get 2 = none ∧ running3.sh.get 2 = none := by decide

theorem test_meets_fetchFaults :
    let s := { running ref1Ex20 with pc := 11 }
    s.phase = .run ∧ hostWaits s = true ∧ s.schedule.length ≤ s.pc ∧
    (running [0x4003]).schedule[0]? = some 0x4003 ∧ decode 0x4003 = none ∧
    (running [0x1001]).schedule[0]? = some 0x1001 ∧ decode 0x1001 = some (.seth 1) ∧
    (Instr.seth 1).channel? = some 1 ∧ (running [0x1001]).ncmd.toNat ≤ (1 : Chan).val ∧
    scheduleWf ref1Ex20 .one timingEx20 = true := by decide

theorem test_meets_endInsideAByte : ({ ending with biti := 6 }).biti ≠ 7 := by decide

/-- Slot 1 goes on to slot 2, and slot 2 to slot 0 of the next color. -/
theorem test_meets_endAtAByteBoundary :
    let s := { ending with slot := 1 }
    let s' := { ending with slot := 2 }
    s.biti = 7 ∧ s.slot.val + 1 = (2 : Fin 3).val ∧ s.k ≠ s.count ∧
    (∀ c ∈ s.ncmd.chans, admitted s.mem
      ((s.buf.get c).toNat + 3 * (0 : BitVec 16).toNat + (s.cfg.order.get 2).toNat)) ∧
    s'.biti = 7 ∧ s'.slot = 2 ∧ s'.k + 1 ≠ s'.count ∧
    ∀ c ∈ s'.ncmd.chans, admitted s'.mem
      ((s'.buf.get c).toNat + 3 * (1 : BitVec 16).toNat + (s'.cfg.order.get 0).toNat) := by
  unfold admitted; decide

theorem test_meets_frameExit :
    let s := { ending with slot := 2, k := 1 }
    s.biti = 7 ∧ s.slot = 2 ∧ s.k + 1 = s.count ∧
    (let s' := { ending with k := 2 }; s'.slot.val + 1 = (1 : Fin 3).val ∧ s'.k = s'.count) ∧
    State.reset.phase = .idle ∧
    ∀ c ∈ ChanCount.three.chans, (⟨65535, 65535, 65535⟩ : PerChan Nat).get c < 2 ^ 16 := by decide

theorem test_meets_frames_and_costs :
    (∃ t, exec (.nop 4096) twoRegisters = .next t) ∧ (∃ t, exec (.seth 2) twoRegisters = .next t) ∧
    (∃ t, exec (.setl 2) twoRegisters = .next t) ∧ (∃ t, exec (.rot 2) twoRegisters = .next t) ∧
    twoRegisters.sh.get 2 ≠ none ∧ (∃ t, exec (.bt 0 1023) twoRegisters = .next t) ∧
    twoRegisters.t.get 0 ≠ none ∧ (∃ t, exec .endPath ending = .next t) ∧
    (∃ t, exec .endPath { ending with slot := 2, k := 1 } = .next t) ∧
    (∃ t, exec .endPath { ending with biti := 6 } = .next t) ∧
    ∃ t, exec (.transmit 2 1 ⟨0, 0, 0⟩) State.reset = .next t :=
  ⟨⟨_, rfl⟩, ⟨_, rfl⟩, ⟨_, rfl⟩, ⟨_, rfl⟩, by decide, ⟨_, rfl⟩, by decide, ⟨_, rfl⟩, ⟨_, rfl⟩,
    ⟨_, rfl⟩, ⟨_, rfl⟩⟩

/-- IDLE at EX20, the three highest bytes of memory admitted. -/
def topOfMemory : State :=
  { State.reset with ie := true, mem := [(0xFFFD, 0x80), (0xFFFE, 0x01), (0xFFFF, 0xA5)] }

theorem test_meets_transmitCompletes :
    topOfMemory.phase = .idle ∧ 0 < 65535 ∧ 65535 < 2 ^ 16 ∧
    (∀ c ∈ ChanCount.three.chans, (⟨0xFFFD, 0xFFFE, 0xFFFF⟩ : PerChan Nat).get c < 2 ^ 16) ∧
    ∀ c ∈ ChanCount.three.chans, admitted topOfMemory.mem
      ((⟨0xFFFD, 0xFFFE, 0xFFFF⟩ : PerChan Nat).get c + (topOfMemory.cfg.order.get 0).toNat) := by
  unfold admitted; decide

theorem test_meets_transmitRefusals :
    (running []).phase ≠ .idle ∧ ({ State.reset with phase := .fault }).phase ≠ .idle ∧
    State.reset.phase = .idle ∧ (0 ≠ 1 ∧ 0 ≠ 2 ∧ 0 ≠ 3) ∧ (3 = ChanCount.three.toNat) ∧
    2 ^ 16 ≤ 65536 ∧ (∃ c ∈ ChanCount.two.chans, 2 ^ 16 ≤ (⟨0, 65536, 0⟩ : PerChan Nat).get c) ∧
    ∀ c ∈ ChanCount.one.chans, (⟨65535, 65536, 0⟩ : PerChan Nat).get c < 2 ^ 16 := by decide

/-- Two channels at a byte boundary: the first can be read, the second cannot. -/
theorem test_meets_firstUnreadableByte :
    let s := { ending with ncmd := .two, slot := 2, buf := ⟨0x100, 0xFFFD, 0⟩ }
    s.biti = 7 ∧ s.slot = 2 ∧ s.k + 1 ≠ s.count ∧ s.ncmd.chans = [0] ++ 1 :: [] ∧
    (∀ d ∈ [(0 : Chan)], admitted s.mem
      ((s.buf.get d).toNat + 3 * (1 : BitVec 16).toNat + (s.cfg.order.get 0).toNat)) ∧
    (¬ admitted s.mem
      ((s.buf.get 1).toNat + 3 * (1 : BitVec 16).toNat + (s.cfg.order.get 0).toNat)) ∧
    topOfMemory.phase = .idle ∧ ChanCount.two.chans = [0] ++ 1 :: [] ∧
    (∀ d ∈ ChanCount.two.chans, (⟨0xFFFF, 0, 0⟩ : PerChan Nat).get d < 2 ^ 16) ∧
    (∀ d ∈ [(0 : Chan)], admitted topOfMemory.mem
      ((⟨0xFFFF, 0, 0⟩ : PerChan Nat).get d + (topOfMemory.cfg.order.get 0).toNat)) ∧
    ¬ admitted topOfMemory.mem
      ((⟨0xFFFF, 0, 0⟩ : PerChan Nat).get 1 + (topOfMemory.cfg.order.get 0).toNat) := by
  unfold admitted; decide

theorem test_meets_emptyFrame :
    let s := { State.reset with host := [.transmit ChanCount.three.toNat 0 ⟨65535, 0, 65535⟩] }
    s.phase = .idle ∧
    ∀ c ∈ ChanCount.three.chans, (⟨65535, 0, 65535⟩ : PerChan Nat).get c < 2 ^ 16 := by decide

theorem test_meets_holdCompletion :
    let s := { State.reset with
      phase := .hold, cyc := 1200, holdEnd := 2200, host := [.transmit 1 1 ⟨0, 0, 0⟩] }
    s.phase = .hold ∧ hostWaits s = true := by decide

theorem test_meets_hostActs :
    State.reset.phase = .idle ∧ State.reset.host = [] ∧
    ({ State.reset with host := [.setIe true] }).phase = .idle ∧
    ({ State.reset with host := [.writeOut 0 0xFF] }).phase = .idle ∧ 0 < State.reset.out.length ∧
    ({ State.reset with host := [.writeMem 0xFFFF 0] }).phase = .idle ∧
    ({ running [] with host := [.writeMem 0 0] }).phase = .run ∧
    ({ State.reset with phase := .hold, host := [.setIe true] }).phase = .hold ∧
    ({ running [] with host := [.letRun 0, .blockReset] }).host = .letRun 0 :: [.blockReset] ∧
    ({ State.reset with host := [.letRun 7] }).phase = .idle ∧
    ({ State.reset with phase := .fault, host := [.letRun 7] }).phase = .fault ∧
    ({ running [] with host := [.letRun 1] }).host = .letRun (0 + 1) :: [] ∧
    ({ State.reset with phase := .hold, host := [.letRun 2] }).phase = .hold := by decide

theorem test_meets_faultIsAbsorbing :
    let s := { State.reset with phase := .fault, flt := some (.pcRange 11) }
    s.phase = .fault ∧ hostWaits s = true ∧
    (∃ t, step { s with host := [.transmitAtOnce 1 1 ⟨0, 0, 0⟩] } = .next t) ∧
    ∃ t, step { s with host := [.blockReset] } = .next t :=
  ⟨rfl, rfl, ⟨_, rfl⟩, ⟨_, rfl⟩⟩

theorem test_meets_blockReset :
    ({ running [] with host := [.blockReset, .setIe true] }).host = .blockReset :: [.setIe true] := by
  decide

/-- The way out by the frame exit, by a fault in RUN, and by a fault in TRANSMIT. -/
theorem test_meets_exclusiveAttention :
    (∃ t, blockStep { ending with slot := 2, k := 1 } = .next t ∧ t.phase ≠ .run) ∧
    (∃ t, blockStep (running []) = .next t ∧ t.phase ≠ .run) ∧
    (∃ t, exec (.transmit 1 1 ⟨0, 0, 0⟩) State.reset = .next t ∧ t.phase ≠ .idle ∧
      t.phase ≠ .run) ∧
    ∃ t, exec (.transmit 1 0 ⟨0, 0, 0⟩) State.reset = .next t ∧ t.phase ≠ .idle ∧
      t.phase ≠ .run :=
  ⟨⟨_, rfl, by decide⟩, ⟨_, rfl, by decide⟩, ⟨_, rfl, by decide, by decide⟩,
    ⟨_, rfl, by decide, by decide⟩⟩

theorem test_meets_what_no_step_does :
    (∃ t, step (running [0x0005]) = .next t) ∧ (∃ t, blockStep (running [0x0005]) = .next t) ∧
    (∃ t, exec (.rot 0) twoRegisters = .next t ∧ t.t.get 0 ≠ State.reset.t.get 0) ∧
    (∃ t, exec (.rot 1) { twoRegisters with t := ⟨none, none, none⟩ } = .next t ∧
      t.t.get 1 ≠ none) ∧
    (∃ t, exec (.transmit 3 1 ⟨0, 0, 0⟩) State.reset = .next t ∧ t.ncmd ≠ State.reset.ncmd) ∧
    (∃ t, exec (.setl 2) twoRegisters = .next t ∧
      (t.out[1]?).map (fun x => x.getLsbD 7) ≠
        (twoRegisters.out[1]?).map fun x => x.getLsbD 7) ∧
    ∃ t, blockStep { State.reset with phase := .hold } = .next t :=
  ⟨⟨_, rfl⟩, ⟨_, rfl⟩, ⟨_, rfl, by decide⟩, ⟨_, rfl, by decide⟩, ⟨_, rfl, by decide⟩,
    ⟨_, rfl, by decide⟩, ⟨_, rfl⟩⟩

/-- EX20 sending the first bit, a 1, of a one-color frame: at the BT, the line high. -/
def midPath : State :=
  { State.reset with
    phase := .run
    pc := 2
    cyc := 2
    sh := ⟨some 0x02, none, none⟩
    t := ⟨some true, none, none⟩
    count := 1
    buf := ⟨0x100, 0, 0⟩
    out := [0x01]
    mem := [(0x100, 0x81)]
    trace := [.ie 0 false, .read 0 0x100 0x81, .line 1 0 true] }

theorem test_midPath_coherent : Coherent midPath := by
  refine ⟨rfl, by decide, fun _ => rfl, fun _ => by decide, fun _ => by decide,
    fun h => absurd h (by decide), ?_⟩
  unfold timeOrdered
  decide

theorem test_midPath_certified : Certified midPath where
  coherent := test_midPath_coherent
  built := ⟨test_ex20_is_built, rfl⟩
  path := fun _ => ⟨⟨true, false, false⟩, by decide, [⟨0, 0, .seth 0⟩, ⟨1, 1, .rot 0⟩],
    [⟨2, 2, .bt 0 4⟩, ⟨3, 7, .nop 14⟩, ⟨17, 8, .setl 0⟩, ⟨18, 9, .nop 7⟩, ⟨25, 10, .endPath⟩],
    by decide, by decide, by
      intro c hc
      rw [List.mem_singleton.1 (show c ∈ [0] from hc)]
      rw [if_pos ⟨⟨1, 1, .rot 0⟩, by decide, rfl⟩]
      rfl⟩
  fault := fun f h => by cases h

theorem test_meets_invariants :
    (∃ t, step midPath = .next t) ∧ (∀ rest, midPath.host ≠ .blockReset :: rest) ∧
    (lineTimes midPath.trace).Pairwise (· < ·) ∧ midPath.phase ≠ .fault ∧
    ∀ r v rest, midPath.host = .writeOut r v :: rest → r < midPath.out.length :=
  ⟨⟨_, rfl⟩, (by intro rest h; cases h), by decide, by decide, by intro r v rest h; cases h⟩

/-- A coherent state of a configuration that no build accepts, in HOLD. -/
theorem test_ill_formed_coherent :
    Coherent { running [] with phase := .hold, holdEnd := 7, cyc := 7 } := by
  refine ⟨rfl, by decide, fun h => absurd h (by decide), fun h => absurd h (by decide),
    fun h => absurd h (by decide), fun _ => by decide, ?_⟩
  unfold timeOrdered
  decide

theorem test_meets_schedules :
    scheduleWf ref1Ex20 .one timingEx20 = true ∧ scheduleWf ref2Ex20 .two timingEx20 = true ∧
    scheduleWf ref3Ex20 .three timingEx20 = true ∧
    (∃ ops, path ref1Ex20 ⟨true, false, false⟩ = some ops) ∧ ref1Ex20.length ≤ 11 ∧
    (∀ row ∈ ({ Config.ex20 with fCpu := 1 }).table, row.freq ≠ 1) ∧
    selectedTiming (withTiming ⟨9, 17, 17, 1000⟩) = some ⟨9, 17, 17, 1000⟩ ∧
    ¬ (1 ≤ 9 ∧ 9 < 17 ∧ 17 < 17 ∧ 1 ≤ 1000) ∧
    (∃ row ∈ badOtherRow.table, ¬ row.entry.t0h < row.entry.t1h) ∧
    ∃ s, boot Config.ex20 [0] false [] [] = .ok s := by
  refine ⟨by decide, by decide, by decide, ⟨_, rfl⟩, by decide, by decide, by decide, by decide,
    by decide, ?_⟩
  rw [boot, test_ex20_is_built]
  exact ⟨_, rfl⟩

/-- One configuration for each clause of the build checks, in their order. -/
theorem test_meets_buildChecks :
    selectedTiming Config.ex20 = some timingEx20 ∧
    (∀ row ∈ Config.ex20.table, timingOk row.entry = true) ∧
    (¬ ∀ c, (Config.ex20.pin.get c).reg < 0 ∧ (Config.ex20.pin.get c).bit < 8) ∧
    ((∀ c, (Config.ex20.pin.get c).reg < 1 ∧ (Config.ex20.pin.get c).bit < 8) ∧
      ∀ c d, c ≠ d → Config.ex20.pin.get c ≠ Config.ex20.pin.get d) ∧
    (∃ i, i < 3 ∧ ∀ j, ((⟨0, 3, 2⟩ : PerChan (BitVec 2)).get j).toNat ≠ i) ∧
    (∀ i, i < 3 → ∃ j, (Config.ex20.order.get j).toNat = i) ∧
    (∃ n, ({ Config.ex20 with hold := ⟨1000, 999, 1000⟩ }).holdOf n < 1000) ∧
    (∀ n, 1000 ≤ Config.ex20.holdOf n) ∧
    (∃ n, scheduleWf (illegalSchedule.schedOf n) n timingEx20 = false) ∧
    ∀ n, scheduleWf (Config.ex20.schedOf n) n timingEx20 = true := by
  refine ⟨by decide, by decide, by decide, by decide, ⟨1, by decide, by decide⟩, by decide,
    ⟨.two, by decide⟩, fun n => by cases n <;> decide, ⟨.one, by decide⟩,
    fun n => by cases n <;> decide⟩

theorem test_meets_everyPath :
    let s := { midPath with pc := 0 }
    s.phase = .run ∧ s.host = [] ∧ s.pc = 0 ∧ s.cfg = Config.ex20 ∧ s.out.length = s.cfg.nReg ∧
    selectedTiming s.cfg = some timingEx20 ∧ (∀ c ∈ s.ncmd.chans, s.sh.get c ≠ none) ∧
    ⟨false, true, false⟩ ∈ vectors .two := by decide

/-- A launch of one color on all three channels, all from the three highest bytes of memory. -/
def launching : State :=
  { topOfMemory with host := [.transmit 3 1 ⟨0xFFFD, 0xFFFD, 0xFFFD⟩] }

theorem test_meets_launch :
    Launch launching .three 1 ⟨0xFFFD, 0xFFFD, 0xFFFD⟩ timingEx20 where
  idle := ⟨rfl, rfl, rfl⟩
  host := rfl
  built := ⟨test_ex20_is_built, rfl⟩
  timing := rfl
  fit := rfl
  low := by unfold linesLow; decide
  readable := by unfold buffersReadable bufferReadable admitted; decide

/-- A launch of an empty frame, which needs no readable byte. -/
theorem test_meets_launch_empty :
    Launch { State.reset with host := [.transmit 1 0 ⟨65535, 0, 0⟩] } .one 0 ⟨65535, 0, 0⟩
      timingEx20 where
  idle := ⟨rfl, rfl, rfl⟩
  host := rfl
  built := ⟨test_ex20_is_built, rfl⟩
  timing := rfl
  fit := rfl
  low := by unfold linesLow; decide
  readable := by unfold buffersReadable bufferReadable admitted; decide

/-- The same command later, on an instance whose registers hold other values. -/
def launchingLater : State :=
  { launching with cyc := 5000, sh := ⟨some 1, some 2, none⟩, k := 7, pc := 3 }

theorem test_meets_launch_later :
    Launch launchingLater .three 1 ⟨0xFFFD, 0xFFFD, 0xFFFD⟩ timingEx20 where
  idle := ⟨rfl, rfl, rfl⟩
  host := rfl
  built := ⟨test_ex20_is_built, rfl⟩
  timing := rfl
  fit := rfl
  low := by unfold linesLow; decide
  readable := by unfold buffersReadable bufferReadable admitted; decide

theorem test_meets_commandsRepeat :
    launching.cfg = launchingLater.cfg ∧ launching.mem = launchingLater.mem ∧
    launching.ie = launchingLater.ie ∧ launching.cyc ≤ launchingLater.cyc := by decide

/-- A launch that gives channel 0 the same bits, and the other channels others. -/
def launchingOthers : State :=
  { launching with
    mem := [(0x10, 1), (0x11, 2), (0x12, 3), (0xFFFD, 0x80), (0xFFFE, 0x01), (0xFFFF, 0xA5)]
    host := [.transmit 3 1 ⟨0xFFFD, 0x10, 0x10⟩] }

theorem test_meets_launch_others :
    Launch launchingOthers .three 1 ⟨0xFFFD, 0x10, 0x10⟩ timingEx20 where
  idle := ⟨rfl, rfl, rfl⟩
  host := rfl
  built := ⟨test_ex20_is_built, rfl⟩
  timing := rfl
  fit := rfl
  low := by unfold linesLow; decide
  readable := by unfold buffersReadable bufferReadable admitted; decide

theorem test_meets_noCrossTalk :
    launching.cfg = launchingOthers.cfg ∧ launching.cyc = launchingOthers.cyc ∧
    0 ∈ ChanCount.three.chans ∧
    frameBits launching.cfg launching.mem 0xFFFD 1 =
      frameBits launchingOthers.cfg launchingOthers.mem 0xFFFD 1 := by decide

theorem test_meets_decodingReadsBack : timingEx20.tbit < timingEx20.treset + timingEx20.t0h := by
  decide

/-- The last bit of a one-color frame, bit 0 of its third byte (30_encoding.md R80). -/
theorem test_last_frame_bit :
    23 < 24 * 1 ∧ (frameBits Config.ex20 topOfMemory.mem 0xFFFD 1)[23]? = some true := by decide

/-- One state for each clause of the encoder states: the first and last cycles of each range. -/
theorem test_meets_encoderStates :
    timingOk timingEx20 = true ∧ midPath.phase = .run ∧ bitStart 0 midPath.trace = some 1 ∧
    bitStart 1 midPath.trace = none ∧
    [1, 9, 10, 11, 25, 26].map (fun t => encoderState timingEx20 { midPath with cyc := t } 0) =
      [.drivingHigh, .drivingHigh, .maybeDropEarly, .drivingLowOrContinuing,
       .drivingLowOrContinuing, .periodEnd] := by decide

end Sys2Proof.Tests
end

/-! SUPPORT. What loading and starting a frame leave unchanged, and that nothing the block or its host
does writes the configuration (00_scope.md R11; 10_state.md R41). -/
namespace Sys2Proof.Machine

/-- Going on at a byte boundary writes shift registers, `pc`, and what an exit or a fault writes. -/
theorem nextByte_same (s : State) : nextByte s = { s with
    sh := (nextByte s).sh, pc := (nextByte s).pc, cyc := (nextByte s).cyc
    phase := (nextByte s).phase, holdEnd := (nextByte s).holdEnd, flt := (nextByte s).flt
    trace := (nextByte s).trace, ie := (nextByte s).ie } := by
  obtain ⟨-, h⟩ | ⟨-, t, hl, h⟩ | ⟨-, t, hl, h⟩ := nextByte_cases s
  · rw [h]; rfl
  · obtain ⟨sh, tr, rfl, -⟩ := loadBytes_ok hl
    rw [h]
  · obtain ⟨sh, tr, a, rfl, -⟩ := loadBytes_error hl
    rw [h]; rfl

/-- Starting a frame writes shift registers, the phase, and what an exit or a fault writes. -/
theorem startFrame_same (s : State) : startFrame s = { s with
    sh := (startFrame s).sh, cyc := (startFrame s).cyc, phase := (startFrame s).phase
    holdEnd := (startFrame s).holdEnd, flt := (startFrame s).flt
    trace := (startFrame s).trace, ie := (startFrame s).ie } := by
  obtain ⟨-, h⟩ | ⟨-, t, hl, h⟩ | ⟨-, t, hl, h⟩ := startFrame_cases s
  · rw [h]; rfl
  · obtain ⟨sh, tr, rfl, -⟩ := loadBytes_ok hl
    rw [h]
  · obtain ⟨sh, tr, a, rfl, -⟩ := loadBytes_error hl
    rw [h]; rfl

@[simp] theorem nextByte_cfg (s : State) : (nextByte s).cfg = s.cfg := by rw [nextByte_same]

@[simp] theorem startFrame_cfg (s : State) : (startFrame s).cfg = s.cfg := by rw [startFrame_same]

@[simp] theorem acceptCommand_cfg (n : ChanCount) (count : Nat) (bufs : PerChan Nat) (s : State) :
    (acceptCommand n count bufs s).cfg = s.cfg := rfl

/-- Every next state of a micro-op other than END keeps the configuration. -/
theorem MicroNext.cfg_eq {s t : State} {i : Instr} (h : MicroNext s i t) : t.cfg = s.cfg := by
  cases h <;> rfl

theorem execEndPath_cfg {s t : State} (h : execEndPath s = .next t) : t.cfg = s.cfg := by
  rw [execEndPath_next] at h
  cases next_inj h
  split
  · simp
  · rfl

theorem execTransmit_cfg {n count : Nat} {bufs : PerChan Nat} {s t : State}
    (h : execTransmit n count bufs s = .next t) : t.cfg = s.cfg := by
  obtain ⟨-, e⟩ | ⟨-, -, e⟩ | ⟨m, -, -, -, e⟩ | ⟨m, -, -, -, e⟩ := execTransmit_cases n count bufs s <;>
    cases next_inj (e.symm.trans h) <;> simp

/-- No instruction changes a parameter. -/
theorem exec_cfg {i : Instr} {s t : State} (h : exec i s = .next t) : t.cfg = s.cfg := by
  cases i with
  | endPath => exact execEndPath_cfg h
  | transmit n count bufs => exact execTransmit_cfg h
  | _ => exact (exec_micro_next rfl (by simp) h).cfg_eq

theorem runStep_cfg {s t : State} (h : runStep s = .next t) : t.cfg = s.cfg := by
  obtain ⟨f, -, rfl⟩ | ⟨w, i, -, -, -, h⟩ := runStep_next h
  · simp
  · exact exec_cfg h

/-- The block's own step changes no parameter, in any phase. -/
theorem blockStep_cfg {s t : State} (h : blockStep s = .next t) : t.cfg = s.cfg := by
  unfold blockStep at h
  split at h
  · rw [next_inj h]
  · exact runStep_cfg h
  · rw [← next_inj h, holdDone_cfg]
  · cases h

theorem hostWriteOut_cfg {s t : State} {r : Nat} {v : Byte} (h : hostWriteOut s r v = .next t) :
    t.cfg = s.cfg := by
  unfold hostWriteOut at h
  split at h
  · cases next_inj h; rfl
  · cases h

/-- No host action changes a parameter. -/
theorem hostStep_cfg {a : HostAction} {s t : State} (h : hostStep a s = .next t) :
    t.cfg = s.cfg := by
  cases a with
  | transmit n count bufs => exact exec_cfg (i := .transmit n count bufs) h
  | transmitAtOnce n count bufs => exact exec_cfg (i := .transmit n count bufs) h
  | writeOut r v => exact hostWriteOut_cfg h
  | _ => cases next_inj h; rfl

/-- Settles O35: a step is the block's own after the host's countdown, or a host action, and neither
writes the configuration. -/
theorem parametersAreFixed : Obligations.ParametersAreFixed := by
  intro s t h
  obtain h | ⟨a, rest, -, -, h⟩ := step_next h
  · rw [blockStep_cfg h, State.tick_cfg]
  · exact (hostStep_cfg h :)

end Sys2Proof.Machine

/-! SUPPORT. Every step keeps coherence and, but for block reset, sets no time back (10_state.md
R29, R32, R38, R39, R42, R44; 44_frame_transmitter.md R169). -/
namespace Sys2Proof.Machine

/-- What holds inside the critical section at a byte boundary, before the next bytes are loaded:
everything that coherence asks of phase RUN, but for the color, which may be past the last one, and
the bytes, which the loads bring. -/
structure AtLoad (s : State) : Prop where
  mem : s.mem.wf = true
  flt : s.flt = none
  ie : s.ie = false
  trace : timeOrdered s.trace s.cyc

/-- Coherence does not speak of these fields. -/
theorem Coherent.of_unread {s : State} (h : Coherent s) (pc : Nat) (t : PerChan (Option Bool))
    (biti : BitVec 3) (slot : Fin 3) (refused : Option RefusalCode) (out : List Byte)
    (host : List HostAction) :
    Coherent { s with
      pc := pc, t := t, biti := biti, slot := slot, refused := refused, out := out
      host := host } :=
  ⟨h.mem, h.flt, h.ie, h.color, h.bytes, h.hold, h.trace⟩

theorem Coherent.refuse {s : State} (h : Coherent s) (r : RefusalCode) : Coherent (s.refuse r) :=
  h.of_unread _ _ _ _ _ _ _

theorem Coherent.tick {s : State} (h : Coherent s) : Coherent s.tick := by
  rw [State.tick_same]
  exact h.of_unread _ _ _ _ _ _ _

/-- Outside FAULT no fault is recorded. -/
theorem Coherent.flt_none {s : State} (h : Coherent s) (hp : s.phase ≠ .fault) : s.flt = none :=
  Classical.not_not.1 fun hf => hp (h.flt.2 hf)

/-- Raising a fault writes FLT with phase FAULT and two events of the present cycle. -/
theorem coherent_raise {s : State} (hm : s.mem.wf = true) (ht : timeOrdered s.trace s.cyc)
    (f : FaultRec) : Coherent (s.raise f) where
  mem := hm
  flt := by simp
  ie := by simp
  color := by simp
  bytes := by simp
  hold := by simp
  trace := by
    rw [State.raise_trace, State.raise_cyc, List.append_assoc]
    exact timeOrdered_same ht (by simp [Event.time])

/-- The exit of a frame starts the hold and shows the flag at its last cycle. -/
theorem AtLoad.coherent_frameExit {s : State} (h : AtLoad s) : Coherent (frameExit s) where
  mem := h.mem
  flt := by simp [h.flt]
  ie := by simp
  color := by simp
  bytes := by simp
  hold := by simp
  trace := by
    rw [frameExit_trace, frameExit_cyc]
    exact timeOrdered_one h.trace (Nat.le_add_right _ _) (Nat.le_refl _)

/-- Loads that complete while a color is left bring phase RUN every byte it needs. -/
theorem AtLoad.coherent_loaded {s t : State} (h : AtLoad s) (hk : s.k.toNat < s.count.toNat)
    (hl : loadBytes s.ncmd.chans s = .ok t) : Coherent { t with phase := .run } := by
  obtain ⟨sh, tr, rfl, hread, hbytes, -, -⟩ := loadBytes_ok hl
  exact {
    mem := h.mem
    flt := by simp [h.flt]
    ie := fun _ => h.ie
    color := fun _ => hk
    bytes := fun _ => hbytes
    hold := by simp
    trace := timeOrdered_same h.trace fun e he => (hread e he).1 }

/-- Loads that stop leave a fault, after the reads that were made. -/
theorem AtLoad.coherent_stopped {s t : State} {cs : List Chan} (h : AtLoad s)
    (hl : loadBytes cs s = .error t) : Coherent t := by
  obtain ⟨sh, tr, a, rfl, hread⟩ := loadBytes_error hl
  have hall : timeOrdered (s.trace ++ tr) s.cyc :=
    timeOrdered_same h.trace fun e he => (hread e he).1
  exact coherent_raise (s := { s with sh := sh, trace := s.trace ++ tr }) h.mem hall _

/-! Time moves forward -/

theorem loadBytes_ok_cyc {cs : List Chan} {s t : State} (h : loadBytes cs s = .ok t) :
    t.cyc = s.cyc := by
  obtain ⟨sh, tr, rfl, -⟩ := loadBytes_ok h
  rfl

theorem loadBytes_error_cyc {cs : List Chan} {s t : State} (h : loadBytes cs s = .error t) :
    t.cyc = s.cyc := by
  obtain ⟨sh, tr, a, rfl, -⟩ := loadBytes_error h
  rfl

theorem cyc_le_nextByte (s : State) : s.cyc ≤ (nextByte s).cyc := by
  obtain ⟨-, e⟩ | ⟨-, t, hl, e⟩ | ⟨-, t, hl, e⟩ := nextByte_cases s <;> rw [e]
  · exact Nat.le_add_right _ _
  · exact Nat.le_of_eq (loadBytes_ok_cyc hl).symm
  · exact Nat.le_of_eq (loadBytes_error_cyc hl).symm

theorem cyc_le_startFrame (s : State) : s.cyc ≤ (startFrame s).cyc := by
  obtain ⟨-, e⟩ | ⟨-, t, hl, e⟩ | ⟨-, t, hl, e⟩ := startFrame_cases s <;> rw [e]
  · exact Nat.le_add_right _ _
  · exact Nat.le_of_eq (loadBytes_ok_cyc hl).symm
  · exact Nat.le_of_eq (loadBytes_error_cyc hl).symm

/-! END and TRANSMIT -/

/-- Going on at a byte boundary of phase RUN, K at most COUNT. -/
theorem AtLoad.coherent_nextByte {s : State} (h : AtLoad s) (hp : s.phase = .run)
    (hk : s.k.toNat ≤ s.count.toNat) : Coherent (nextByte s) := by
  obtain ⟨-, e⟩ | ⟨hne, t, hl, e⟩ | ⟨-, t, hl, e⟩ := nextByte_cases s <;> rw [e]
  · exact h.coherent_frameExit
  · have hlt : s.k.toNat < s.count.toNat :=
      Nat.lt_of_le_of_ne hk fun heq => hne (BitVec.eq_of_toNat_eq heq)
    have hrun : t.phase = .run := by
      obtain ⟨sh, tr, rfl, -⟩ := loadBytes_ok hl
      exact hp
    have hc := (h.coherent_loaded hlt hl).of_unread 0 t.t t.biti t.slot t.refused t.out t.host
    rwa [← hrun] at hc
  · exact h.coherent_stopped hl

/-- Starting a frame whose first color is color 0. -/
theorem AtLoad.coherent_startFrame {s : State} (h : AtLoad s) (hk : s.k = 0) :
    Coherent (startFrame s) := by
  obtain ⟨-, e⟩ | ⟨hne, t, hl, e⟩ | ⟨-, t, hl, e⟩ := startFrame_cases s <;> rw [e]
  · exact h.coherent_frameExit
  · refine h.coherent_loaded ?_ hl
    rw [hk]
    exact Nat.pos_of_ne_zero fun h0 => hne (BitVec.eq_of_toNat_eq h0)
  · exact h.coherent_stopped hl

/-- A completed byte of a color before COUNT leaves K at most COUNT: K + 1 does not wrap. -/
theorem closeByte_k_le {s : State} (h : s.k.toNat < s.count.toNat) :
    s.closeByte.k.toNat ≤ s.count.toNat := by
  have hsucc : (s.k + 1).toNat ≤ s.count.toNat := by bv_omega
  show (nextSlot s.slot s.k).2.toNat ≤ s.count.toNat
  match s.slot with
  | 0 | 1 => exact Nat.le_of_lt h
  | 2 => exact hsucc

theorem Coherent.atLoad {s : State} (h : Coherent s) (hp : s.phase = .run) : AtLoad s :=
  ⟨h.mem, h.flt_none (by simp [hp]), h.ie hp, h.trace⟩

/-- END in phase RUN. -/
theorem Coherent.of_execEndPath {s t : State} (h : Coherent s) (hp : s.phase = .run)
    (he : execEndPath s = .next t) : Coherent t ∧ s.cyc ≤ t.cyc := by
  rw [execEndPath_next] at he
  cases next_inj he
  split
  · have hload : AtLoad s.closeByte := ⟨h.mem, (h.atLoad hp).flt, h.ie hp, h.trace⟩
    have hk := closeByte_k_le (h.color hp)
    exact ⟨hload.coherent_nextByte hp hk, cyc_le_nextByte s.closeByte⟩
  · exact ⟨h.of_unread _ _ _ _ _ _ _, Nat.le_refl _⟩

/-- A next state of TRANSMIT is that of a refusal, or of an accepted command of `n` channels. -/
theorem execTransmit_next {n count : Nat} {bufs : PerChan Nat} {s t : State}
    (h : execTransmit n count bufs s = .next t) :
    (∃ r, t = s.refuse r) ∨
    ∃ m, s.phase = .idle ∧ m.toNat = n ∧ t = startFrame (acceptCommand m count bufs s) := by
  obtain ⟨-, e⟩ | ⟨-, -, e⟩ | ⟨m, -, -, -, e⟩ | ⟨m, hp, hm, -, e⟩ :=
      execTransmit_cases n count bufs s <;>
    have ht := next_inj (h.symm.trans e)
  · exact .inl ⟨_, ht⟩
  · exact .inl ⟨_, ht⟩
  · exact .inl ⟨_, ht⟩
  · exact .inr ⟨m, hp, ChanCount.toNat_of_ofNat? hm, ht⟩

/-- Accepting a command masks the flag at the present cycle and takes T_START cycles. -/
theorem Coherent.atLoad_acceptCommand {s : State} (h : Coherent s) (hp : s.phase = .idle)
    (n : ChanCount) (count : Nat) (bufs : PerChan Nat) : AtLoad (acceptCommand n count bufs s) where
  mem := h.mem
  flt := h.flt_none (by simp [hp])
  ie := rfl
  trace := timeOrdered_one h.trace (Nat.le_refl _) (Nat.le_add_right _ _)

/-- TRANSMIT in any phase. -/
theorem Coherent.of_execTransmit {s t : State} {n count : Nat} {bufs : PerChan Nat} (h : Coherent s)
    (he : execTransmit n count bufs s = .next t) : Coherent t ∧ s.cyc ≤ t.cyc := by
  obtain ⟨r, rfl⟩ | ⟨m, hp, -, rfl⟩ := execTransmit_next he
  · exact ⟨h.refuse r, Nat.le_refl _⟩
  · exact ⟨(h.atLoad_acceptCommand hp m count bufs).coherent_startFrame rfl,
      Nat.le_trans (Nat.le_add_right _ _) (cyc_le_startFrame (acceptCommand m count bufs s))⟩

/-! The other micro-ops, and the steps -/

/-- What coherence asks of a micro-op of phase RUN that raises no fault: it empties no shift register
and keeps the trace in order. -/
theorem Coherent.goOn {s : State} (h : Coherent s) (hp : s.phase = .run) (pc cyc : Nat)
    (sh : PerChan (Option Byte)) (t : PerChan (Option Bool)) (tr : List Event) (out : List Byte)
    (hsh : ∀ c, s.sh.get c ≠ none → sh.get c ≠ none) (ht : timeOrdered tr cyc) :
    Coherent { s with pc := pc, cyc := cyc, sh := sh, t := t, trace := tr, out := out } where
  mem := h.mem
  flt := h.flt
  ie := h.ie
  color := h.color
  bytes := fun hr c hc => hsh c (h.bytes hr c hc)
  hold := fun hh => by rw [show s.phase = .hold from hh] at hp; cases hp
  trace := ht

/-- Moving `cyc` and `pc` on in phase RUN. -/
theorem Coherent.advance {s : State} (h : Coherent s) (hp : s.phase = .run) (n pc : Nat) :
    Coherent (s.advance n pc) :=
  h.goOn hp _ _ _ _ _ _ (fun _ hc => hc) (timeOrdered_mono h.trace (Nat.le_add_right _ _))

/-- A line write takes effect at the cycle the micro-op ends. -/
theorem Coherent.lineWrite {s : State} (h : Coherent s) (hp : s.phase = .run) (c : Chan) (v : Bool)
    (out : List Byte) : Coherent { s with
      out := out, trace := s.trace ++ [.line (s.cyc + 1) c v], cyc := s.cyc + 1, pc := s.pc + 1 } :=
  h.goOn hp _ _ _ _ _ _ (fun _ hc => hc)
    (timeOrdered_one h.trace (Nat.le_succ _) (Nat.le_refl _))

/-- A rotated shift register still holds a byte. -/
theorem Coherent.rotate {s : State} (h : Coherent s) (hp : s.phase = .run) (c : Chan) (x : Byte) :
    Coherent (rotate c x s) := by
  refine h.goOn hp _ _ _ _ _ _ (fun d hd => ?_) (timeOrdered_mono h.trace (Nat.le_succ _))
  rw [PerChan.get_set]
  split
  · exact Option.some_ne_none _
  · exact hd

theorem MicroNext.cyc_le {s t : State} {i : Instr} (h : MicroNext s i t) : s.cyc ≤ t.cyc := by
  cases h <;> simp

theorem MicroNext.coherent {s t : State} {i : Instr} (hm : MicroNext s i t) (h : Coherent s)
    (hp : s.phase = .run) : Coherent t := by
  cases hm with
  | nop n => exact h.advance hp _ _
  | seth c | setl c => exact h.lineWrite hp c _ _
  | rot c x => exact h.rotate hp c x
  | bt c off b => exact h.advance hp _ _
  | illegal | noShift | noTest => exact coherent_raise h.mem h.trace _

/-- One instruction in phase RUN. -/
theorem Coherent.of_exec {i : Instr} {s t : State} (h : Coherent s) (hp : s.phase = .run)
    (he : exec i s = .next t) : Coherent t ∧ s.cyc ≤ t.cyc := by
  cases i with
  | endPath => exact h.of_execEndPath hp he
  | transmit n count bufs => exact h.of_execTransmit he
  | _ =>
    have hm := exec_micro_next rfl (by simp) he
    exact ⟨hm.coherent h hp, hm.cyc_le⟩

theorem Coherent.of_runStep {s t : State} (h : Coherent s) (hp : s.phase = .run)
    (he : runStep s = .next t) : Coherent t ∧ s.cyc ≤ t.cyc := by
  obtain ⟨f, -, rfl⟩ | ⟨w, i, -, -, -, he⟩ := runStep_next he
  · exact ⟨coherent_raise h.mem h.trace f, Nat.le_refl _⟩
  · exact h.of_exec hp he

/-- The end of the hold is not past, so completing it moves time forward. -/
theorem Coherent.of_holdDone {s : State} (h : Coherent s) (hp : s.phase = .hold) :
    Coherent (holdDone s) ∧ s.cyc ≤ (holdDone s).cyc where
  left := {
    mem := h.mem
    flt := by simp [h.flt_none (by simp [hp])]
    ie := by simp
    color := by simp
    bytes := by simp
    hold := by simp
    trace := timeOrdered_one h.trace (h.hold hp) (Nat.le_refl _) }
  right := h.hold hp

theorem Coherent.of_blockStep {s t : State} (h : Coherent s) (he : blockStep s = .next t) :
    Coherent t ∧ s.cyc ≤ t.cyc := by
  unfold blockStep at he
  split at he
  · cases next_inj he
    exact ⟨h, Nat.le_refl _⟩
  · next hp => exact h.of_runStep hp he
  · next hp =>
    cases next_inj he
    exact h.of_holdDone hp
  · cases he

/-- Block reset clears everything that coherence asks about, and keeps memory. -/
theorem coherent_powerOn {cfg : Config} {out : List Byte} {ie : Bool} {mem : Memory}
    {host : List HostAction} (hm : mem.wf = true) :
    Coherent (State.powerOn cfg out ie mem host) where
  mem := hm
  flt := by simp [State.powerOn]
  ie := by simp [State.powerOn]
  color := by simp [State.powerOn]
  bytes := by simp [State.powerOn]
  hold := by simp [State.powerOn]
  trace := by simp [State.powerOn, timeOrdered]

/-- The host sets its flag in IDLE only, where coherence does not bind it. -/
theorem Coherent.setIe {s : State} (h : Coherent s) (hp : s.phase = .idle) (v : Bool) :
    Coherent { s with ie := v } :=
  ⟨h.mem, h.flt, by simp [hp], h.color, h.bytes, h.hold, h.trace⟩

theorem Coherent.hostWriteMem {s : State} (h : Coherent s) (a : Addr) (b : Byte) :
    Coherent { s with mem := s.mem.write a.toNat b } :=
  ⟨Memory.wf_write a b h.mem, h.flt, h.ie, h.color, h.bytes, h.hold, h.trace⟩

theorem hostWriteOut_next {s t : State} {r : Nat} {v : Byte} (h : hostWriteOut s r v = .next t) :
    r < s.out.length ∧ t = { s with out := s.out.set r v } := by
  unfold hostWriteOut at h
  split at h
  · next hr => exact ⟨hr, (next_inj h).symm⟩
  · cases h

/-- A host action in a phase in which it may be done; block reset alone sets time back. -/
theorem Coherent.of_hostStep {a : HostAction} {s t : State} (h : Coherent s)
    (ha : a.mayStep s.phase = true) (he : hostStep a s = .next t) :
    Coherent t ∧ (a ≠ .blockReset → s.cyc ≤ t.cyc) := by
  cases a with
  | transmit n count bufs | transmitAtOnce n count bufs =>
    obtain ⟨hc, hle⟩ := h.of_execTransmit he
    exact ⟨hc, fun _ => hle⟩
  | blockReset =>
    cases next_inj he
    exact ⟨coherent_powerOn h.mem, fun hne => absurd rfl hne⟩
  | letRun n =>
    cases next_inj he
    exact ⟨h, fun _ => Nat.le_refl _⟩
  | setIe v =>
    cases next_inj he
    exact ⟨h.setIe (of_decide_eq_true ha) v, fun _ => Nat.le_refl _⟩
  | writeOut r v =>
    obtain ⟨-, rfl⟩ := hostWriteOut_next he
    exact ⟨h.of_unread _ _ _ _ _ _ _, fun _ => Nat.le_refl _⟩
  | writeMem a b =>
    cases next_inj he
    exact ⟨h.hostWriteMem a b, fun _ => Nat.le_refl _⟩

/-- Settles O40: a step is the block's own after the host's countdown, or a host action; each keeps
coherence, and of them block reset alone sets time back. -/
theorem everyStepKeepsCoherence : Obligations.EveryStepKeepsCoherence := by
  intro s t h he
  obtain he | ⟨a, rest, hh, ha, he⟩ := step_next he
  · obtain ⟨hc, hle⟩ := h.tick.of_blockStep he
    rw [State.tick_cyc] at hle
    exact ⟨hc, fun _ => hle⟩
  · have h' : Coherent { s with host := rest } := h.of_unread _ _ _ _ _ _ _
    obtain ⟨hc, hle⟩ := h'.of_hostStep ha he
    refine ⟨hc, fun hno => hle ?_⟩
    rintro rfl
    exact hno rest hh

/-- Settles O39: reset is a power-on state with empty memory, and EX20 passes every build check. -/
theorem resetMeetsTheInvariants : Obligations.ResetMeetsTheInvariants := by
  have hc : Coherent State.reset := coherent_powerOn reset_memory_wf
  have hb : Built State.reset := ⟨by decide, rfl⟩
  exact ⟨hc, hc, hb, (by intro hp; cases hp), by intro f hf; cases hf⟩

end Sys2Proof.Machine

/-! SUPPORT. What each instruction leaves unchanged (10_state.md R28, R33, R37, R47, R48;
20_memory.md R59; 60_exceptions.md R196, R197). -/
namespace Sys2Proof.Machine

/-! The micro-ops other than END -/

theorem MicroNext.mem_eq {s t : State} {i : Instr} (h : MicroNext s i t) : t.mem = s.mem := by
  cases h <;> rfl

/-- They write no command latch and no IE_SAVED. -/
theorem MicroNext.latches_eq {s t : State} {i : Instr} (h : MicroNext s i t) :
    t.ncmd = s.ncmd ∧ t.count = s.count ∧ t.buf = s.buf ∧ t.ieSaved = s.ieSaved := by
  cases h <;> exact ⟨rfl, rfl, rfl, rfl⟩

/-- The one of them that writes a test bit is ROT of its channel. -/
theorem MicroNext.rot_of_test_ne {s t : State} {i : Instr} {c : Chan} (h : MicroNext s i t)
    (hne : t.t.get c ≠ s.t.get c) : i = .rot c := by
  cases h with
  | rot d x hd hx =>
    by_cases hcd : c = d
    · rw [hcd]
    · exact absurd (PerChan.get_set_of_ne _ _ hcd) hne
  | _ => exact absurd rfl hne

/-- NOP and BT write `pc` and `cyc`, or raise a fault. -/
theorem MicroNext.nop_bt_frame {s t : State} {i : Instr} {n off : Nat} {c : Chan}
    (h : MicroNext s i t) (hi : i = .nop n ∨ i = .bt c off) :
    (∃ f, t = s.raise f) ∨ t = { s with pc := t.pc, cyc := t.cyc } := by
  cases h with
  | nop | bt => exact .inr rfl
  | seth | setl | rot => simp at hi
  | illegal | noShift | noTest => exact .inl ⟨_, rfl⟩

/-- A write of the bit of a channel's pin leaves every other output bit. -/
theorem outBit_pin_write {s : State} {c : Chan} {x : Byte} (v : Bool)
    (h1 : s.out[(s.cfg.pin.get c).reg]? = some x) (h2 : (s.cfg.pin.get c).bit < outWidth)
    {r b : Nat} (hrb : (r, b) ≠ ((s.cfg.pin.get c).reg, (s.cfg.pin.get c).bit)) :
    outBit (s.out.set (s.cfg.pin.get c).reg (setBit x (s.cfg.pin.get c).bit v)) r b =
      outBit s.out r b := by
  rw [outBit_set v h1 h2, if_neg]
  rintro ⟨rfl, rfl⟩
  exact hrb rfl

/-- SETH and SETL write `pc`, `cyc`, the trace and the bit of the channel's pin, or raise a fault. -/
theorem MicroNext.seth_setl_frame {s t : State} {i : Instr} {c : Chan} (h : MicroNext s i t)
    (hi : i = .seth c ∨ i = .setl c) :
    (∃ f, t = s.raise f) ∨
      (t = { s with pc := t.pc, cyc := t.cyc, trace := t.trace, out := t.out } ∧
        ∀ r b, (r, b) ≠ ((s.cfg.pin.get c).reg, (s.cfg.pin.get c).bit) →
          outBit t.out r b = outBit s.out r b) := by
  cases h with
  | nop | rot | bt => simp at hi
  | seth d x hd h1 h2 | setl d x hd h1 h2 =>
    obtain rfl : d = c := by simpa using hi
    exact .inr ⟨rfl, fun _ _ hrb => outBit_pin_write _ h1 h2 hrb⟩
  | illegal | noShift | noTest => exact .inl ⟨_, rfl⟩

/-- ROT writes `pc`, `cyc` and its channel's shift register and test bit, or raises a fault. -/
theorem MicroNext.rot_frame {s t : State} {c : Chan} (h : MicroNext s (.rot c) t) :
    (∃ f, t = s.raise f) ∨
      (t = { s with pc := t.pc, cyc := t.cyc, sh := t.sh, t := t.t } ∧
        ∀ d, d ≠ c → t.sh.get d = s.sh.get d ∧ t.t.get d = s.t.get d) := by
  cases h with
  | rot _ x hc hx =>
    have others : ∀ d, d ≠ c → (rotate c x s).sh.get d = s.sh.get d ∧
        (rotate c x s).t.get d = s.t.get d :=
      fun d hd => ⟨PerChan.get_set_of_ne _ _ hd, PerChan.get_set_of_ne _ _ hd⟩
    exact .inr ⟨rfl, others⟩
  | illegal | noShift => exact .inl ⟨_, rfl⟩

/-- Settles O20: each instruction the statement names is a micro-op other than END, so its next
state is one of the cases of `MicroNext`, whose frames stand above. -/
theorem microOpFrames : Obligations.MicroOpFrames := by
  intro i s t h
  have next : i.isMicroOp = true → i ≠ .endPath → MicroNext s i t :=
    fun hm he => exec_micro_next hm he h
  have reads : MicroNext s i t → ∀ a, t.mem.read a = s.mem.read a :=
    fun hm a => by rw [hm.mem_eq]
  refine ⟨fun n c off hi => ?_, fun c hi => ?_, fun c hi => ?_⟩
  · have hm : MicroNext s i t := by obtain rfl | rfl := hi <;> exact next rfl (by simp)
    exact ⟨hm.nop_bt_frame hi, reads hm⟩
  · have hm : MicroNext s i t := by obtain rfl | rfl := hi <;> exact next rfl (by simp)
    exact ⟨hm.seth_setl_frame hi, reads hm⟩
  · subst hi
    have hm := next rfl (by simp)
    exact ⟨hm.rot_frame, reads hm⟩

/-! END -/

@[simp] theorem nextByte_mem (s : State) : (nextByte s).mem = s.mem := by rw [nextByte_same]

/-- Going on at a byte boundary leaves the shift registers of channels outside the command. -/
theorem nextByte_sh_of_not_mem {s : State} {c : Chan} (hc : c ∉ s.ncmd.chans) :
    (nextByte s).sh.get c = s.sh.get c := by
  obtain ⟨-, e⟩ | ⟨-, t, hl, e⟩ | ⟨-, t, hl, e⟩ := nextByte_cases s <;> rw [e]
  · rfl
  · obtain ⟨sh, tr, rfl, -, -, hout, -⟩ := loadBytes_ok hl
    exact hout c hc
  · exact loadBytes_error_sh hl c hc

/-- The next state of END inside a byte. -/
theorem exec_end_inside {s : State} (h : s.biti ≠ 7) :
    exec .endPath s = .next { s with biti := s.biti + 1, pc := 0 } := by
  show execEndPath s = _
  rw [execEndPath_next, if_neg (mt (lastBit_iff _).1 h)]

/-- Settles O21: inside a byte END writes BITI and `pc`; at a byte boundary it moves the counters
and goes on as `nextByte` does. -/
theorem endFrame : Obligations.EndFrame := by
  intro s t h
  by_cases hb : s.biti = 7
  · obtain rfl := next_inj ((exec_end_boundary hb).symm.trans h)
    refine ⟨?_, fun c hc => nextByte_sh_of_not_mem (s := s.closeByte) hc,
      fun hne => absurd hb hne, fun a => ?_⟩
    · rw [nextByte_same]
      rfl
    · rw [nextByte_mem, State.closeByte_mem]
  · obtain rfl := next_inj ((exec_end_inside hb).symm.trans h)
    exact ⟨rfl, fun _ _ => rfl, fun _ => rfl, fun _ => rfl⟩

/-! TRANSMIT -/

@[simp] theorem startFrame_t (s : State) : (startFrame s).t = s.t := by rw [startFrame_same]
@[simp] theorem startFrame_buf (s : State) : (startFrame s).buf = s.buf := by rw [startFrame_same]
@[simp] theorem startFrame_out (s : State) : (startFrame s).out = s.out := by rw [startFrame_same]
@[simp] theorem startFrame_mem (s : State) : (startFrame s).mem = s.mem := by rw [startFrame_same]
@[simp] theorem startFrame_host (s : State) : (startFrame s).host = s.host := by
  rw [startFrame_same]

/-- Starting a frame leaves the shift registers of channels outside the command. -/
theorem startFrame_sh_of_not_mem {s : State} {c : Chan} (hc : c ∉ s.ncmd.chans) :
    (startFrame s).sh.get c = s.sh.get c := by
  obtain ⟨-, e⟩ | ⟨-, t, hl, e⟩ | ⟨-, t, hl, e⟩ := startFrame_cases s <;> rw [e]
  · rfl
  · obtain ⟨sh, tr, rfl, -, -, hout, -⟩ := loadBytes_ok hl
    exact hout c hc
  · exact loadBytes_error_sh hl c hc

/-- Accepting a command leaves the buffer latches of channels outside it. -/
theorem acceptCommand_buf_of_not_mem {n : ChanCount} {count : Nat} {bufs : PerChan Nat} {s : State}
    {c : Chan} (hc : c ∉ n.chans) : (acceptCommand n count bufs s).buf.get c = s.buf.get c :=
  (latchBuffers_get n.chans s.buf bufs c).trans (if_neg hc)

/-- Settles O22: a refusal writes REFUSED only; an accepted command writes the latches and counters
and then what starting a frame writes. -/
theorem transmitFrame : Obligations.TransmitFrame := by
  intro n count bufs s t h
  obtain ⟨r, rfl⟩ | ⟨m, -, rfl, rfl⟩ := execTransmit_next h
  · exact ⟨rfl, rfl, rfl, rfl, fun _ _ => ⟨rfl, rfl⟩, fun _ => rfl⟩
  · have outside : ∀ c : Chan, m.toNat ≤ c.val → c ∉ m.chans := fun c hc hmem =>
      absurd ((ChanCount.mem_chans m c).1 hmem) (Nat.not_lt.2 hc)
    refine ⟨?_, ?_, ?_, ?_, fun c hc => ⟨?_, ?_⟩, fun a => ?_⟩
    · rw [startFrame_cfg, acceptCommand_cfg]
    · exact startFrame_t _
    · exact startFrame_out _
    · exact startFrame_host _
    · exact startFrame_sh_of_not_mem (s := acceptCommand m count bufs s) (outside c hc)
    · rw [startFrame_buf, acceptCommand_buf_of_not_mem (outside c hc)]
    · rw [startFrame_mem]
      rfl

/-! Sole writers -/

/-- Settles O36: TRANSMIT and END keep every test bit, and no instruction but TRANSMIT writes a
latch. -/
theorem soleWritersOfTestBitsAndLatches : Obligations.SoleWritersOfTestBitsAndLatches := by
  intro i s t h
  cases i with
  | endPath =>
    obtain ⟨hsame, -⟩ := endFrame s t h
    rw [hsame]
    exact ⟨fun c hne => absurd rfl hne, by simp⟩
  | transmit n count bufs =>
    obtain ⟨-, ht, -⟩ := transmitFrame n count bufs s t h
    exact ⟨fun c hne => absurd (by rw [ht]) hne, fun _ => ⟨n, count, bufs, rfl⟩⟩
  | _ =>
    have hm := exec_micro_next rfl (by simp) h
    exact ⟨fun c hne => hm.rot_of_test_ne hne, by simp [hm.latches_eq]⟩

/-- Settles O32: the values of `State.powerOn`; its two three-fold tables hold no value anywhere. -/
theorem resetState : Obligations.ResetState :=
  ⟨rfl, rfl, rfl, fun c => ⟨PerChan.get_all none c, PerChan.get_all none c⟩,
    rfl, rfl, rfl, rfl, rfl, rfl, rfl⟩

end Sys2Proof.Machine

/-! SUPPORT. What an instruction or a step of the block does is the same at every time (10_state.md
R38; 44_frame_transmitter.md R187). -/
namespace Sys2Proof.Machine

theorem advance_later (s : State) (n pc d : Nat) :
    (s.later d).advance n pc = (s.advance n pc).later d := by
  simp [State.later, State.advance, Nat.add_right_comm]

theorem rotate_later (c : Chan) (x : Byte) (s : State) (d : Nat) :
    rotate c x (s.later d) = (rotate c x s).later d := by
  simp [State.later, rotate, State.advance, Nat.add_right_comm]

theorem acceptCommand_later (n : ChanCount) (count : Nat) (bufs : PerChan Nat) (s : State)
    (d : Nat) :
    acceptCommand n count bufs (s.later d) = (acceptCommand n count bufs s).later d := by
  simp [State.later, acceptCommand, State.maskInterrupts, State.emit, Event.shift,
    Nat.add_right_comm]

theorem holdDone_later (s : State) (d : Nat) : holdDone (s.later d) = (holdDone s).later d := by
  simp [State.later, holdDone, State.emit, Event.shift]

theorem loadBytes_ok_later {cs : List Chan} {s t : State} (d : Nat) (h : loadBytes cs s = .ok t) :
    loadBytes cs (s.later d) = .ok (t.later d) := by
  rw [loadBytes_later, h]

theorem loadBytes_error_later {cs : List Chan} {s t : State} (d : Nat)
    (h : loadBytes cs s = .error t) : loadBytes cs (s.later d) = .error (t.later d) := by
  rw [loadBytes_later, h]

/-! What going on at a byte boundary and starting a frame are, by what the loads come to. -/

theorem nextByte_of_end {s : State} (hk : s.k = s.count) : nextByte s = frameExit s := by
  rw [nextByte, if_pos hk]

theorem nextByte_of_ok {s t : State} (hk : s.k ≠ s.count)
    (hl : loadBytes s.ncmd.chans s = .ok t) : nextByte s = { t with pc := 0 } := by
  rw [nextByte, if_neg hk, hl]

theorem nextByte_of_error {s t : State} (hk : s.k ≠ s.count)
    (hl : loadBytes s.ncmd.chans s = .error t) : nextByte s = t := by
  rw [nextByte, if_neg hk, hl]

theorem startFrame_of_empty {s : State} (hk : s.count = 0) : startFrame s = frameExit s := by
  rw [startFrame, if_pos hk]

theorem startFrame_of_ok {s t : State} (hk : s.count ≠ 0)
    (hl : loadBytes s.ncmd.chans s = .ok t) : startFrame s = { t with phase := .run } := by
  rw [startFrame, if_neg hk, hl]

theorem startFrame_of_error {s t : State} (hk : s.count ≠ 0)
    (hl : loadBytes s.ncmd.chans s = .error t) : startFrame s = t := by
  rw [startFrame, if_neg hk, hl]

theorem nextByte_later (s : State) (d : Nat) : nextByte (s.later d) = (nextByte s).later d := by
  obtain ⟨hk, e⟩ | ⟨hk, t, hl, e⟩ | ⟨hk, t, hl, e⟩ := nextByte_cases s <;> rw [e]
  · exact (nextByte_of_end (s := s.later d) hk).trans (frameExit_later s d)
  · exact nextByte_of_ok (s := s.later d) hk (loadBytes_ok_later d hl)
  · exact nextByte_of_error (s := s.later d) hk (loadBytes_error_later d hl)

theorem startFrame_later (s : State) (d : Nat) :
    startFrame (s.later d) = (startFrame s).later d := by
  obtain ⟨hk, e⟩ | ⟨hk, t, hl, e⟩ | ⟨hk, t, hl, e⟩ := startFrame_cases s <;> rw [e]
  · exact (startFrame_of_empty (s := s.later d) hk).trans (frameExit_later s d)
  · exact startFrame_of_ok (s := s.later d) hk (loadBytes_ok_later d hl)
  · exact startFrame_of_error (s := s.later d) hk (loadBytes_error_later d hl)

/-- The channel check raises its fault at the later time, or goes on as the operation does. -/
theorem withChannel_later {c : Chan} {w : Word} {s t : State} {f : State → Result} {d : Nat}
    (h : withChannel c w s f = .next t) (hf : f s = .next t → f (s.later d) = .next (t.later d)) :
    withChannel c w (s.later d) f = .next (t.later d) := by
  obtain ⟨hc, h⟩ | ⟨hc, rfl⟩ := withChannel_next h
  · rw [withChannel_of_lt (s := s.later d) hc]
    exact hf h
  · rw [withChannel_of_ge (s := s.later d) hc, ← raise_later]
    rfl

/-- So does a read of a register that may hold no value. -/
theorem withValue_later {α : Type} {c : Chan} {r : Option α} {s t : State} {f g : α → Result}
    {d : Nat} (h : withValue c r s f = .next t)
    (hf : ∀ x, f x = .next t → g x = .next (t.later d)) :
    withValue c r (s.later d) g = .next (t.later d) := by
  obtain ⟨x, rfl, h⟩ | ⟨rfl, rfl⟩ := withValue_next h
  · exact hf x h
  · rw [← raise_later]
    rfl

theorem driveLine_later {c : Chan} {v : Bool} {s t : State} {d : Nat}
    (h : driveLine c v s = .next t) : driveLine c v (s.later d) = .next (t.later d) := by
  obtain ⟨x, h1, h2, rfl⟩ := driveLine_next h
  rw [driveLine_of_pin (s := s.later d) v h1 h2]
  simp [State.later, Event.shift, Nat.add_right_comm]

theorem execRot_later {c : Chan} {s t : State} {d : Nat} (h : execRot c s = .next t) :
    execRot c (s.later d) = .next (t.later d) := by
  refine withChannel_later h fun h => withValue_later h fun x h => ?_
  rw [rotate_later, next_inj h]

theorem execBt_later {c : Chan} {off : Nat} {s t : State} {d : Nat}
    (h : execBt c off s = .next t) : execBt c off (s.later d) = .next (t.later d) := by
  refine withChannel_later h fun h => withValue_later h fun x h => ?_
  rw [advance_later, ← next_inj h]
  rfl

theorem execEndPath_later {s t : State} {d : Nat} (h : execEndPath s = .next t) :
    execEndPath (s.later d) = .next (t.later d) := by
  rw [execEndPath_next] at h ⊢
  cases next_inj h
  show Host.Outcome.next (if lastBit s.biti then nextByte (s.closeByte.later d) else _) = _
  split
  · rw [nextByte_later]
  · rfl

theorem execTransmit_later {n count : Nat} {bufs : PerChan Nat} {s t : State} {d : Nat}
    (h : execTransmit n count bufs s = .next t) :
    execTransmit n count bufs (s.later d) = .next (t.later d) := by
  have phase_later : (s.later d).phase = s.phase := rfl
  obtain ⟨hp, e⟩ | ⟨hp, hn, e⟩ | ⟨m, hp, hn, hf, e⟩ | ⟨m, hp, hn, hf, e⟩ :=
      execTransmit_cases n count bufs s <;>
    cases next_inj (e.symm.trans h)
  · rw [execTransmit, phase_later, if_neg hp]
    rfl
  · rw [execTransmit, phase_later, if_pos hp, hn]
    rfl
  · rw [execTransmit, phase_later, if_pos hp, hn]
    simp only [hf]
    rfl
  · rw [execTransmit, phase_later, if_pos hp, hn]
    simp only [hf, if_true, acceptCommand_later, startFrame_later]

/-- Every instruction does the same thing `d` cycles later. -/
theorem exec_later {i : Instr} {s t : State} {d : Nat} (h : exec i s = .next t) :
    exec i (s.later d) = .next (t.later d) := by
  cases i with
  | nop n =>
    cases next_inj h
    exact congrArg _ (advance_later s n (s.pc + 1) d)
  | seth c => exact withChannel_later h driveLine_later
  | setl c => exact withChannel_later h driveLine_later
  | rot c => exact execRot_later h
  | bt c off => exact execBt_later h
  | endPath => exact execEndPath_later h
  | transmit n count bufs => exact execTransmit_later h

/-- A fetch reads no time. -/
theorem fetch_later (s : State) (d : Nat) : fetch (s.later d) = fetch s := rfl

theorem runStep_later {s t : State} {d : Nat} (h : runStep s = .next t) :
    runStep (s.later d) = .next (t.later d) := by
  unfold runStep at h ⊢
  rw [fetch_later]
  cases hf : fetch s with
  | outOfRange =>
    rw [hf] at h
    cases next_inj h
    exact congrArg _ (raise_later s _ d)
  | illegal w =>
    rw [hf] at h
    cases next_inj h
    exact congrArg _ (raise_later s _ d)
  | op i =>
    rw [hf] at h
    exact exec_later h

theorem blockStep_later {s t : State} {d : Nat} (h : blockStep s = .next t) :
    blockStep (s.later d) = .next (t.later d) := by
  unfold blockStep at h ⊢
  rw [show (s.later d).phase = s.phase from rfl]
  cases hp : s.phase <;> rw [hp] at h
  case idle => rw [next_inj h]
  case run => exact runStep_later h
  case hold =>
    cases next_inj h
    exact congrArg _ (holdDone_later s d)
  case fault => cases h

/-- Settles O38: every instruction and every step of the block commutes with `State.later`. -/
theorem noRuleReadsTheTime : Obligations.NoRuleReadsTheTime :=
  ⟨fun _ _ _ _ h => exec_later h, fun _ _ _ h => blockStep_later h⟩

end Sys2Proof.Machine

/-! SUPPORT. When lines are written, that the block writes no memory, and the reads of a whole
command (20_memory.md R59, R66, R67). -/
namespace Sys2Proof.Machine

/-! Line writes: a step makes one at most, and it takes effect at the next cycle (R67) -/

theorem lineTimes_append (a b : List Event) : lineTimes (a ++ b) = lineTimes a ++ lineTimes b :=
  List.filterMap_append

/-- Reads of bytes write no line. -/
theorem lineTimes_of_reads {tr : List Event} (h : ∀ e ∈ tr, e.isRead = true) :
    lineTimes tr = [] := by
  refine List.filterMap_eq_nil_iff.2 fun e he => ?_
  have hr := h e he
  cases e with
  | read => rfl
  | _ => cases hr

/-- No line write of an ordered trace takes effect later than now. -/
theorem timeOrdered.lineTimes_le {tr : List Event} {now x : Nat} (h : timeOrdered tr now)
    (hx : x ∈ lineTimes tr) : x ≤ now := by
  obtain ⟨e, he, hex⟩ := List.mem_filterMap.1 hx
  cases e with
  | line t c v =>
    cases hex
    exact h.2 _ he
  | _ => cases hex

/-- From `s` to `t` no line write was made, or one that takes effect at the cycle after `s`. -/
def AtMostOneWrite (s t : State) : Prop :=
  lineTimes t.trace = lineTimes s.trace ∨ lineTimes t.trace = lineTimes s.trace ++ [s.cyc + 1]

/-- What follows a trace in order by such a write still rises strictly. -/
theorem AtMostOneWrite.rises {s t : State} (h : AtMostOneWrite s t)
    (ho : timeOrdered s.trace s.cyc) (hs : (lineTimes s.trace).Pairwise (· < ·)) :
    (lineTimes t.trace).Pairwise (· < ·) := by
  obtain h | h := h
  · rwa [h]
  · rw [h, List.pairwise_append]
    refine ⟨hs, List.pairwise_singleton _ _, fun x hx y hy => ?_⟩
    rw [List.mem_singleton.1 hy]
    exact Nat.lt_succ_of_le (ho.lineTimes_le hx)

theorem lineTimes_raise (s : State) (f : FaultRec) :
    lineTimes (s.raise f).trace = lineTimes s.trace := by
  simp [lineTimes]

theorem lineTimes_frameExit (s : State) : lineTimes (frameExit s).trace = lineTimes s.trace := by
  simp [lineTimes]

theorem lineTimes_holdDone (s : State) : lineTimes (holdDone s).trace = lineTimes s.trace := by
  simp [lineTimes]

theorem lineTimes_loadBytes_ok {cs : List Chan} {s t : State} (h : loadBytes cs s = .ok t) :
    lineTimes t.trace = lineTimes s.trace := by
  obtain ⟨sh, tr, rfl, hread, -⟩ := loadBytes_ok h
  simp [lineTimes_append, lineTimes_of_reads fun e he => (hread e he).2]

theorem lineTimes_loadBytes_error {cs : List Chan} {s t : State} (h : loadBytes cs s = .error t) :
    lineTimes t.trace = lineTimes s.trace := by
  obtain ⟨sh, tr, a, rfl, hread⟩ := loadBytes_error h
  rw [lineTimes_raise]
  simp [lineTimes_append, lineTimes_of_reads fun e he => (hread e he).2]

theorem lineTimes_nextByte (s : State) : lineTimes (nextByte s).trace = lineTimes s.trace := by
  obtain ⟨-, e⟩ | ⟨-, t, hl, e⟩ | ⟨-, t, hl, e⟩ := nextByte_cases s <;> rw [e]
  · exact lineTimes_frameExit s
  · exact (lineTimes_loadBytes_ok hl :)
  · exact lineTimes_loadBytes_error hl

theorem lineTimes_startFrame (s : State) : lineTimes (startFrame s).trace = lineTimes s.trace := by
  obtain ⟨-, e⟩ | ⟨-, t, hl, e⟩ | ⟨-, t, hl, e⟩ := startFrame_cases s <;> rw [e]
  · exact lineTimes_frameExit s
  · exact (lineTimes_loadBytes_ok hl :)
  · exact lineTimes_loadBytes_error hl

/-- Accepting a command shows the flag only. -/
theorem lineTimes_acceptCommand (n : ChanCount) (count : Nat) (bufs : PerChan Nat) (s : State) :
    lineTimes (acceptCommand n count bufs s).trace = lineTimes s.trace := by
  simp [acceptCommand, lineTimes]

/-- SETH and SETL make the one line write, the other micro-ops none. -/
theorem MicroNext.atMostOneWrite {s t : State} {i : Instr} (h : MicroNext s i t) :
    AtMostOneWrite s t := by
  cases h with
  | seth | setl => exact .inr (lineTimes_append _ _)
  | nop | rot | bt => exact .inl rfl
  | illegal | noShift | noTest => exact .inl (lineTimes_raise _ _)

theorem lineTimes_execEndPath {s t : State} (h : execEndPath s = .next t) :
    lineTimes t.trace = lineTimes s.trace := by
  rw [execEndPath_next] at h
  cases next_inj h
  split
  · exact lineTimes_nextByte s.closeByte
  · rfl

theorem lineTimes_execTransmit {n count : Nat} {bufs : PerChan Nat} {s t : State}
    (h : execTransmit n count bufs s = .next t) : lineTimes t.trace = lineTimes s.trace := by
  obtain ⟨r, rfl⟩ | ⟨m, -, -, rfl⟩ := execTransmit_next h
  · rfl
  · rw [lineTimes_startFrame, lineTimes_acceptCommand]

theorem exec_atMostOneWrite {i : Instr} {s t : State} (h : exec i s = .next t) :
    AtMostOneWrite s t := by
  cases i with
  | endPath => exact .inl (lineTimes_execEndPath h)
  | transmit n count bufs => exact .inl (lineTimes_execTransmit h)
  | _ => exact (exec_micro_next rfl (by simp) h).atMostOneWrite

theorem blockStep_atMostOneWrite {s t : State} (h : blockStep s = .next t) :
    AtMostOneWrite s t := by
  unfold blockStep at h
  split at h
  · rw [next_inj h]
    exact .inl rfl
  · obtain ⟨f, -, rfl⟩ | ⟨w, i, -, -, -, h⟩ := runStep_next h
    · exact .inl (lineTimes_raise s f)
    · exact exec_atMostOneWrite h
  · rw [← next_inj h]
    exact .inl (lineTimes_holdDone s)
  · cases h

/-- A host action makes no line write; block reset empties the trace. -/
theorem hostStep_lineTimes {a : HostAction} {s t : State} (h : hostStep a s = .next t) :
    t.trace = [] ∨ lineTimes t.trace = lineTimes s.trace := by
  cases a with
  | transmit n count bufs | transmitAtOnce n count bufs => exact .inr (lineTimes_execTransmit h)
  | blockReset =>
    cases next_inj h
    exact .inl rfl
  | writeOut r v =>
    obtain ⟨-, rfl⟩ := hostWriteOut_next h
    exact .inr rfl
  | letRun | setIe | writeMem =>
    cases next_inj h
    exact .inr rfl

/-- Settles O41: a step of the block makes at most one line write, which takes effect at the cycle
after the present one, and no event of a coherent state is later than the present one. -/
theorem lineWritesNeverCoincide : Obligations.LineWritesNeverCoincide := by
  intro s t hc hs h
  obtain h | ⟨a, rest, -, -, h⟩ := step_next h
  · have hw : AtMostOneWrite s t := by
      simpa only [AtMostOneWrite, State.tick_trace, State.tick_cyc] using
        blockStep_atMostOneWrite h
    exact hw.rises hc.trace hs
  · obtain h | h := hostStep_lineTimes h
    · rw [h]
      exact List.Pairwise.nil
    · rwa [h]

/-! Memory (R59) -/

theorem exec_mem {i : Instr} {s t : State} (h : exec i s = .next t) : t.mem = s.mem := by
  cases i with
  | endPath =>
    obtain ⟨hsame, -⟩ := endFrame s t h
    rw [hsame]
  | transmit n count bufs =>
    obtain ⟨r, rfl⟩ | ⟨m, -, -, rfl⟩ := execTransmit_next h
    · rfl
    · exact startFrame_mem _
  | _ => exact (exec_micro_next rfl (by simp) h).mem_eq

/-- The block's own step writes no memory, in any phase. -/
theorem blockStep_mem {s t : State} (h : blockStep s = .next t) : t.mem = s.mem := by
  unfold blockStep at h
  split at h
  · rw [next_inj h]
  · obtain ⟨f, -, rfl⟩ | ⟨w, i, -, -, -, h⟩ := runStep_next h
    · rfl
    · exact exec_mem h
  · rw [← next_inj h, holdDone_mem]
  · cases h

/-- Settles O34: no instruction and no phase of the block writes the memory. -/
theorem theBlockWritesNoMemory : Obligations.TheBlockWritesNoMemory :=
  ⟨fun _ _ _ h => ⟨exec_mem h, fun a => congrArg (Memory.read · a) (exec_mem h)⟩,
    fun _ _ h => ⟨blockStep_mem h, fun a => congrArg (Memory.read · a) (blockStep_mem h)⟩⟩

/-! The reads of a whole command (R66) -/

/-- The state at Done is final, and its host has nothing left to do. -/
theorem CommandDone.final {s u : State} {n : ChanCount} {count : Nat} {bufs : PerChan Nat}
    {tt : Timing} (hl : Launch s n count bufs tt) (h : CommandDone s u n count bufs tt) :
    isFinal u ∧ u.host = [] := by
  rw [h.same]
  exact ⟨hl.idle, rfl⟩

/-- A launched command completes, in the state at its Done. -/
theorem Launch.completes {s : State} {n : ChanCount} {count : Nat} {bufs : PerChan Nat}
    {tt : Timing} (h : Launch s n count bufs tt) :
    ∃ u, Completes s u ∧ CommandDone s u n count bufs tt := by
  obtain ⟨k, u, hk, hu⟩ := command_run h
  exact ⟨u, ⟨⟨k, hk⟩, hu.final h⟩, hu⟩

theorem CommandDone.newEvents_eq {s u : State} {n : ChanCount} {count : Nat} {bufs : PerChan Nat}
    {tt : Timing} (h : CommandDone s u n count bufs tt) :
    newEvents s u = commandTrace s.cfg n s.mem bufs tt count s.cyc s.ie := by
  rw [newEvents, h.same]
  exact List.drop_left

/-- A command reads each slot of each color at the cycle the byte begins. -/
theorem CommandDone.readEvents_eq {s u : State} {n : ChanCount} {count : Nat} {bufs : PerChan Nat}
    {tt : Timing} (h : CommandDone s u n count bufs tt) : readEvents (newEvents s u) =
      frameReads s.cfg n bufs tt.tbit (s.cyc + s.cfg.tStart) count := by
  rw [h.newEvents_eq, readEvents_commandTrace, frameReads_eq]

theorem chans_length (n : ChanCount) : n.chans.length = n.toNat := by cases n <;> rfl

theorem frameReads_length (cfg : Config) (n : ChanCount) (bufs : PerChan Nat)
    (tbit p0 count : Nat) : (frameReads cfg n bufs tbit p0 count).length = 3 * n.toNat * count := by
  rw [← frameReads_eq, List.length_flatMap]
  simp only [readsAt, List.length_map, chans_length]
  rw [List.map_const', List.sum_replicate_nat, List.length_range, Nat.mul_right_comm]

/-- No component is sent in two slots when ORDER passes the build check. -/
theorem order_injective {order : PerChan (BitVec 2)} (h : orderOk order = true) {i j : Fin 3}
    (hij : (order.get i).toNat = (order.get j).toNat) : i = j := by
  obtain ⟨a, b, c⟩ := order
  simp only [orderOk, List.all_cons, List.all_nil, Bool.and_true, Bool.and_eq_true,
    decide_eq_true_eq, List.mem_cons, List.not_mem_nil, or_false] at h
  match i, j, hij with
  | 0, 0, _ | 1, 1, _ | 2, 2, _ => rfl
  | 0, 1, hij | 1, 0, hij | 0, 2, hij | 2, 0, hij | 1, 2, hij | 2, 1, hij =>
    simp only [PerChan.get] at hij
    omega

/-- Bytes of different numbers stand at different offsets: their colors differ, or their slots. -/
theorem sentOffset_injective {cfg : Config} (h : orderOk cfg.order = true) {p q : Nat}
    (hpq : sentOffset cfg p = sentOffset cfg q) : p = q := by
  have hp := order_lt h (slotOf p)
  have hq := order_lt h (slotOf q)
  unfold sentOffset at hpq
  have hcolor : p / 3 = q / 3 := by omega
  have hslot : slotOf p = slotOf q := order_injective h (by omega)
  have hmod : p % 3 = q % 3 := congrArg Fin.val hslot
  omega

/-- A channel's frame has each address once. -/
theorem frameAddrs_nodup {cfg : Config} (h : orderOk cfg.order = true) (base count : Nat) :
    (frameAddrs cfg base count).Nodup := by
  rw [frameAddrs_eq]
  have hne : ∀ p q, p ≠ q → base + sentOffset cfg p ≠ base + sentOffset cfg q :=
    fun p q hpq he => hpq (sentOffset_injective h (Nat.add_left_cancel he))
  exact List.Pairwise.map _ hne List.nodup_range

/-- Settles O56: the trace of a completed command is known, its reads are those of each slot of each
color, and the offsets of a frame's bytes are all different. -/
theorem whenReadsHappen : Obligations.WhenReadsHappen := by
  intro s n count bufs tt h
  obtain ⟨u, hu, hdone⟩ := h.completes
  refine ⟨⟨u, hu, hdone.readEvents_eq, ?_⟩, fun c _ => frameAddrs_nodup h.built.order _ _⟩
  rw [hdone.readEvents_eq, frameReads_length]

end Sys2Proof.Machine

/-! SUPPORT. The words of the micro-ops and the decoder's answers on them, for every word, and what
becomes of an illegal word (30_encoding.md R83 to R91, R94; 60_exceptions.md R197, R201). -/
namespace Sys2Proof

/-! Decoding what was encoded -/

theorem decode_formatWord {opc low : Nat} (ho : opc < 16) (hl : low < 4096) :
    decode (formatWord opc low) = decodeAt opc (formatWord opc low) :=
  decode_eq_decodeAt (field_opcode ho hl)

/-- A format C word of a channel decodes to the micro-op of that channel. -/
theorem decodeFormatC_formatWord {opc : Nat} (ho : opc < 16) (c : Chan) (mk : Chan → Instr) :
    decodeFormatC mk (formatWord opc c.val) = some (mk c) := by
  have hl : c.val < 4096 := by omega
  have hmid : field (formatWord opc c.val) 11 2 = 0 := by rw [field_middle ho hl]; omega
  have hchan : field (formatWord opc c.val) 1 0 = c.val := by rw [field_chan ho hl]; omega
  rw [decodeFormatC, if_pos hmid, decodeChan_some hchan, Option.map_some]

theorem decode_wordNop {n : Nat} (h : nopCountOk n = true) : decode (wordNop n) = some (.nop n) := by
  obtain ⟨h1, h2⟩ : 1 ≤ n ∧ n ≤ 4096 := by simpa [nopCountOk] using h
  rw [wordNop, decode_formatWord (by decide) (by omega), decodeAt,
    field_low (by decide) (by omega), Nat.sub_add_cancel h1]

theorem decode_wordSeth (c : Chan) : decode (wordSeth c) = some (.seth c) :=
  (decode_formatWord (by decide) (by omega)).trans (decodeFormatC_formatWord (by decide) c .seth)

theorem decode_wordSetl (c : Chan) : decode (wordSetl c) = some (.setl c) :=
  (decode_formatWord (by decide) (by omega)).trans (decodeFormatC_formatWord (by decide) c .setl)

theorem decode_wordRot (c : Chan) : decode (wordRot c) = some (.rot c) :=
  (decode_formatWord (by decide) (by omega)).trans (decodeFormatC_formatWord (by decide) c .rot)

theorem decode_wordBt {off : Nat} (c : Chan) (h : branchOffsetOk off = true) :
    decode (wordBt c off) = some (.bt c off) := by
  have hoff : off ≤ 1023 := of_decide_eq_true h
  have hlow : off * 2 ^ 2 + c.val < 4096 := by omega
  have hmid : field (wordBt c off) 11 2 = off := by
    rw [wordBt, field_middle (by decide) hlow]
    omega
  have hchan : decodeChan (wordBt c off) = some c :=
    decodeChan_formatWord c (by decide) (by omega)
  have hdec : decode (wordBt c off) = decodeAt 4 (wordBt c off) := decode_formatWord (by decide) hlow
  rw [hdec, decodeAt, hchan, hmid, Option.map_some]

theorem decode_wordEnd : decode wordEnd = some .endPath := by decide

/-- Settles O4: each micro-op has one word, and the decoder reads its fields back. -/
theorem decodingUndoesEncoding : Obligations.DecodingUndoesEncoding := by
  intro i hwf
  cases i with
  | nop n => exact ⟨fun _ => ⟨_, rfl, decode_wordNop hwf⟩, nofun⟩
  | seth c => exact ⟨fun _ => ⟨_, rfl, decode_wordSeth c⟩, nofun⟩
  | setl c => exact ⟨fun _ => ⟨_, rfl, decode_wordSetl c⟩, nofun⟩
  | rot c => exact ⟨fun _ => ⟨_, rfl, decode_wordRot c⟩, nofun⟩
  | bt c off => exact ⟨fun _ => ⟨_, rfl, decode_wordBt c hwf⟩, nofun⟩
  | endPath => exact ⟨fun _ => ⟨_, rfl, decode_wordEnd⟩, nofun⟩
  | transmit n count bufs => exact ⟨nofun, fun _ => rfl⟩

/-- Settles O2: the decoder evaluated on the twelve words. -/
theorem wordsDecodeAsTheSpecWritesThem : Obligations.WordsDecodeAsTheSpecWritesThem := by
  unfold Obligations.WordsDecodeAsTheSpecWritesThem
  decide

/-! The decoder by the slices of a word -/

theorem slice_middle_eq_zero {w : Word} : w.extractLsb' 2 10 = 0 ↔ field w 11 2 = 0 := by
  rw [← BitVec.toNat_inj, slice_middle]
  rfl

theorem slice_low_eq_zero {w : Word} : w.extractLsb' 0 12 = 0 ↔ field w 11 0 = 0 := by
  rw [← BitVec.toNat_inj, slice_low]
  rfl

theorem slice_chan_eq_three {w : Word} : w.extractLsb' 0 2 = 3 ↔ field w 1 0 = 3 := by
  rw [← BitVec.toNat_inj, slice_chan]
  rfl

theorem slice_opcode_eq_iff {w : Word} {k : BitVec 4} :
    w.extractLsb' 12 4 = k ↔ field w 15 12 = k.toNat := by
  rw [← BitVec.toNat_inj, slice_opcode]

theorem decode_of_slice {w : Word} {k : BitVec 4} (h : w.extractLsb' 12 4 = k) :
    decode w = decodeAt k.toNat w :=
  decode_eq_decodeAt (slice_opcode_eq_iff.1 h)

theorem decodeAt_of_ge {opc : Nat} (h : 6 ≤ opc) (w : Word) : decodeAt opc w = none := by
  match opc, h with
  | _ + 6, _ => rfl

/-- Format C with a channel field below 3. -/
theorem decodeFormatC_of_chan {w : Word} {c : Chan} (h : field w 1 0 = c.val) (mk : Chan → Instr) :
    decodeFormatC mk w = if w.extractLsb' 2 10 = 0 then some (mk c) else none := by
  rw [decodeFormatC, decodeChan_some h, Option.map_some]
  simp only [slice_middle_eq_zero]

theorem decodeChan_eq_none_iff {w : Word} : decodeChan w = none ↔ field w 1 0 = 3 := by
  refine ⟨fun h => ?_, decodeChan_none⟩
  unfold decodeChan at h
  have hlt := (field_lt w).2.2.2.1
  split at h
  · cases h
  · omega

theorem decodeFormatC_eq_none_iff {w : Word} {mk : Chan → Instr} :
    decodeFormatC mk w = none ↔ field w 1 0 = 3 ∨ field w 11 2 ≠ 0 := by
  unfold decodeFormatC
  split
  · next h => simp [decodeChan_eq_none_iff, h]
  · next h => simp [h]

/-- R88 in the fields of the word: the illegal words by the value of the opcode. -/
theorem decode_eq_none_iff (w : Word) : decode w = none ↔
    6 ≤ field w 15 12 ∨
    (1 ≤ field w 15 12 ∧ field w 15 12 ≤ 4 ∧ field w 1 0 = 3) ∨
    (1 ≤ field w 15 12 ∧ field w 15 12 ≤ 3 ∧ field w 11 2 ≠ 0) ∨
    (field w 15 12 = 5 ∧ field w 11 0 ≠ 0) := by
  rw [decode_eq_decodeAt rfl]
  match field w 15 12 with
  | 0 => simp [decodeAt]
  | 1 | 2 | 3 => simp [decodeAt, decodeFormatC_eq_none_iff]
  | 4 => simp [decodeAt, decodeChan_eq_none_iff]
  | 5 => simp [decodeAt]
  | k + 6 => simp [decodeAt_of_ge]

/-! The words of the encoder, and encoding what was decoded -/

/-- A branch's offset and channel, put together by shift and `|||` or by arithmetic. -/
theorem shift_or_eq_ofNat {off : Nat} (c : Chan) (h : off ≤ 1023) :
    BitVec.ofNat 16 off <<< 2 ||| BitVec.ofNat 16 c.val = BitVec.ofNat 16 (off * 2 ^ 2 + c.val) := by
  have hc : c.val < 2 ^ 2 := by omega
  refine BitVec.eq_of_toNat_eq ?_
  rw [BitVec.toNat_or, BitVec.toNat_shiftLeft, BitVec.toNat_ofNat, BitVec.toNat_ofNat,
    BitVec.toNat_ofNat, Nat.mod_eq_of_lt (by omega), Nat.mod_eq_of_lt (b := 2 ^ 16) (by omega),
    Nat.shiftLeft_eq, Nat.mod_eq_of_lt (by omega), Nat.mod_eq_of_lt (by omega), Nat.mul_comm]
  exact (Nat.two_pow_add_eq_or_of_lt hc off).symm

theorem encode_nop {n : Nat} (h : n ≤ 4096) :
    encode (.nop n) = [0x0000#16 ||| BitVec.ofNat 16 (n - 1)] :=
  congrArg ([·]) (or_eq_formatWord (opc := 0) (by decide) (by omega)).symm

/-- The words of the format C micro-ops and of BT. -/
theorem encode_chan (c : Chan) : encode (.seth c) = [0x1000#16 ||| BitVec.ofNat 16 c.val] ∧
    encode (.setl c) = [0x2000#16 ||| BitVec.ofNat 16 c.val] ∧
    encode (.rot c) = [0x3000#16 ||| BitVec.ofNat 16 c.val] ∧
    ∀ off, off ≤ 1023 →
      encode (.bt c off) = [0x4000#16 ||| BitVec.ofNat 16 off <<< 2 ||| BitVec.ofNat 16 c.val] := by
  have word : ∀ {opc : Nat}, opc < 16 → [formatWord opc c.val] =
      [BitVec.ofNat 16 (opc * 4096) ||| BitVec.ofNat 16 c.val] :=
    fun ho => congrArg ([·]) (or_eq_formatWord ho (by omega)).symm
  refine ⟨word (by decide), word (by decide), word (by decide), fun off hoff => ?_⟩
  rw [BitVec.or_assoc, shift_or_eq_ofNat c hoff]
  exact congrArg ([·]) (or_eq_formatWord (opc := 4) (by decide) (by omega)).symm

/-- A word of format C that decodes holds its channel and nothing else in its low bits. -/
theorem decodeFormatC_eq_some {w : Word} {mk : Chan → Instr} {i : Instr}
    (h : decodeFormatC mk w = some i) : ∃ c : Chan, i = mk c ∧ field w 11 0 = c.val := by
  unfold decodeFormatC at h
  split at h
  · next hmid =>
    obtain ⟨c, hc, rfl⟩ := Option.map_eq_some_iff.1 h
    obtain ⟨-, -, -, -, hlow⟩ := field_lt w
    exact ⟨c, rfl, by rw [hlow, hmid, decodeChan_val hc, Nat.zero_mul, Nat.zero_add]⟩
  · cases h

/-- A word with a given opcode and given low bits. -/
theorem formatWord_of_fields {w : Word} {opc low : Nat} (ho : field w 15 12 = opc)
    (hl : field w 11 0 = low) : formatWord opc low = w := by
  rw [← ho, ← hl, formatWord_fields]

/-- The encoder is the decoder's inverse on legal words. -/
theorem encode_of_decode {w : Word} {i : Instr} (h : decode w = some i) : encode i = [w] := by
  generalize ho : field w 15 12 = opc
  rw [decode_eq_decodeAt ho] at h
  match opc with
  | 0 =>
    cases h
    exact congrArg ([·]) (formatWord_of_fields ho rfl)
  | 1 | 2 | 3 =>
    obtain ⟨c, rfl, hlow⟩ := decodeFormatC_eq_some h
    exact congrArg ([·]) (formatWord_of_fields ho hlow)
  | 4 =>
    obtain ⟨c, hc, rfl⟩ := Option.map_eq_some_iff.1 h
    obtain ⟨-, -, -, -, hlow⟩ := field_lt w
    rw [decodeChan_val hc] at hlow
    exact congrArg ([·]) (formatWord_of_fields ho hlow)
  | 5 =>
    rw [decodeAt] at h
    split at h
    · next hlow =>
      cases h
      exact congrArg ([·]) (formatWord_of_fields ho hlow)
    · cases h
  | k + 6 => cases h

/-- Settles O3: the decoder at each value of the opcode, the encoder's words, and its inverse. -/
theorem decoderFollowsTheTable : Obligations.DecoderFollowsTheTable := by
  refine ⟨fun w => ⟨fun h => ?_, fun c hc => ?_, fun hc h1 h4 => ?_, fun h => ?_, fun h => ?_⟩,
    fun n _ hn => encode_nop hn, encode_chan, rfl, fun w i => encode_of_decode⟩
  · rw [decode_of_slice h, slice_low]
    rfl
  · rw [slice_chan] at hc
    refine ⟨fun h => ?_, fun h => ?_, fun h => ?_, fun h => ?_⟩ <;> rw [decode_of_slice h]
    · exact decodeFormatC_of_chan hc .seth
    · exact decodeFormatC_of_chan hc .setl
    · exact decodeFormatC_of_chan hc .rot
    · show (decodeChan w).map _ = _
      rw [decodeChan_some hc, slice_middle]
      rfl
  · rw [slice_opcode] at h1 h4
    exact (decode_eq_none_iff w).2 (.inr (.inl ⟨h1, h4, slice_chan_eq_three.1 hc⟩))
  · rw [decode_of_slice h]
    simp only [slice_low_eq_zero]
    rfl
  · rw [slice_opcode] at h
    exact (decode_eq_none_iff w).2 (.inl h)

end Sys2Proof

/-! SUPPORT. The waveform of each channel over a whole command, and the bits of a frame by their
number (30_encoding.md R76 to R82). -/
namespace Sys2Proof.Machine

/-! The waveform of a channel (R82) -/

/-- A waveform bit by bit: bit number `i` of it starts `i * tbit` after the first. -/
theorem bitWaveform_eq_flatMap (tt : Timing) (start : Nat) (bits : List Bool) (j : Nat) :
    bitWaveform tt (start + j * tt.tbit) bits = (bits.zipIdx j).flatMap fun (x, i) =>
      [(start + i * tt.tbit, true), (start + i * tt.tbit + highTime tt x, false)] := by
  induction bits generalizing j with
  | nil => rfl
  | cons x bits ih =>
    have hnext : start + j * tt.tbit + tt.tbit = start + (j + 1) * tt.tbit := by
      rw [Nat.succ_mul, Nat.add_assoc]
    rw [bitWaveform, hnext, ih, List.zipIdx_cons, List.flatMap_cons]
    rfl

/-- A schedule that passes WF has a phase for each channel of the command. -/
theorem phase?_of_wf {sched : List Word} {n : ChanCount} {tt : Timing}
    (hwf : scheduleWf sched n tt = true) {c : Chan} (hc : c ∈ n.chans) :
    ∃ φ, phase? sched c = some φ := by
  obtain ⟨φ, hφ, -⟩ := lineEvents_bitTrace hwf 0 (fun _ => false) hc
  exact ⟨φ, hφ⟩

/-- The line events of a channel of a completed command. -/
theorem CommandDone.lineEvents_eq {s u : State} {n : ChanCount} {count : Nat} {bufs : PerChan Nat}
    {tt : Timing} (h : CommandDone s u n count bufs tt)
    (hwf : scheduleWf (s.cfg.schedOf n) n tt = true) {c : Chan} (hc : c ∈ n.chans) {φ : Nat}
    (hφ : phase? (s.cfg.schedOf n) c = some φ) : lineEvents c (newEvents s u) =
      (frameBits s.cfg s.mem (bufs.get c) count).zipIdx.flatMap fun (x, i) =>
        [(s.cyc + s.cfg.tStart + i * tt.tbit + φ, true),
         (s.cyc + s.cfg.tStart + i * tt.tbit + φ + highTime tt x, false)] := by
  have hwave := bitWaveform_eq_flatMap tt (s.cyc + s.cfg.tStart + φ)
    (frameBits s.cfg s.mem (bufs.get c) count) 0
  rw [Nat.zero_mul, Nat.add_zero] at hwave
  rw [h.newEvents_eq, lineEvents_commandTrace hwf hc hφ, hwave]
  simp only [Nat.add_right_comm _ φ]

/-- Settles O54: the trace of a completed command is known, and the events of a line in it are the
waveform of its frame, or none for a channel outside the command. -/
theorem channelWaveform : Obligations.ChannelWaveform := by
  intro s n count bufs tt h
  obtain ⟨u, hu, hdone⟩ := h.completes
  have hwf := h.built.schedule_wf h.timing n
  refine ⟨u, hu, fun c hc => ?_, fun c hc => ?_⟩
  · obtain ⟨φ, hφ⟩ := phase?_of_wf hwf hc
    exact ⟨φ, hφ, hdone.lineEvents_eq hwf hc hφ, hdone.low c hc⟩
  · rw [hdone.newEvents_eq, lineEvents_commandTrace_quiet hwf hc]

/-! The bits of a frame by their number (R76 to R80) -/

theorem frameBits_length (cfg : Config) (mem : Memory) (base count : Nat) :
    (frameBits cfg mem base count).length = 24 * count := by
  rw [frameBits, frameAddrs_eq, List.length_flatMap]
  simp only [byteBits_length]
  rw [List.map_const', List.sum_replicate_nat, List.length_map, List.length_range]
  omega

/-- Bit `j` of the string of a byte is bit `7 - j` of the byte. -/
theorem byteBits_getD (b : Byte) {j : Nat} (h : j < 8) :
    (byteBits b).getD j false = b.getLsbD (7 - j) := by
  match j, h with
  | 0, _ | 1, _ | 2, _ | 3, _ | 4, _ | 5, _ | 6, _ | 7, _ => rfl

/-- Settles O51: bit `i` of a frame is bit `i mod 8` of its byte number `i div 8`. -/
theorem frameBitString : Obligations.FrameBitString := by
  intro cfg mem base count
  refine ⟨frameBits_length cfg mem base count, fun i hi => ?_⟩
  have hlt : i < (frameBits cfg mem base count).length := by rw [frameBits_length]; exact hi
  have hbit := frameBits_byte cfg mem base (count := count) (q := i / 8) (j := i % 8) (by omega)
    (Nat.mod_lt _ (by decide))
  rw [Nat.div_add_mod, List.getD_eq_getElem?_getD, List.getElem?_eq_getElem hlt, Option.getD_some,
    byteBits_getD _ (Nat.mod_lt _ (by decide)), sentOffset, Nat.div_div_eq_div_mul,
    ← Nat.add_assoc] at hbit
  rw [List.getElem?_eq_getElem hlt, hbit]
  rfl

end Sys2Proof.Machine

/-! SUPPORT. The pseudo-instructions, eight rotations of a byte, and the cycles each micro-op takes
(30_encoding.md R76, R89, R93; 42_bit_encoder.md R128; 44_frame_transmitter.md R177). -/
namespace Sys2Proof.Machine

/-! Pads (R93) -/

/-- A pad of at least one cycle: whole NOPs of 4096 cycles and one of the rest, which is 1 to 4096. -/
theorem pad_of_pos {n : Nat} (h : 1 ≤ n) : pad n =
    List.replicate ((n - 1) / 4096) (.nop 4096) ++ [.nop (n - 4096 * ((n - 1) / 4096))] := by
  rw [pad, if_neg (by omega)]

theorem pad_cost (n : Nat) : ((pad n).map cost).sum = n := by
  obtain rfl | h := Nat.eq_zero_or_pos n
  · rfl
  · rw [pad_of_pos h, List.map_append, List.map_replicate, List.sum_append,
      List.sum_replicate_nat]
    show (n - 1) / 4096 * 4096 + (n - 4096 * ((n - 1) / 4096) + 0) = n
    omega

theorem pad_wellFormed (n : Nat) : ∀ i ∈ pad n, i.wellFormed = true := by
  obtain rfl | h := Nat.eq_zero_or_pos n
  · exact nofun
  · intro i hi
    rw [pad_of_pos h, List.mem_append, List.mem_replicate, List.mem_singleton] at hi
    obtain ⟨-, rfl⟩ | rfl := hi
    · rfl
    · have hrest : 1 ≤ n - 4096 * ((n - 1) / 4096) ∧ n - 4096 * ((n - 1) / 4096) ≤ 4096 := by omega
      simpa [Instr.wellFormed, nopCountOk] using hrest

/-- Settles O6: the shape of a pad, its cost and its words, and the two channel lists written out. -/
theorem pseudoInstructionsExpand : Obligations.PseudoInstructionsExpand :=
  ⟨rfl, fun _ => pad_of_pos, fun n => ⟨pad_cost n, pad_wellFormed n⟩, rfl, rfl, rfl, rfl, rfl, rfl⟩

/-! Rotations (R76, R128) -/

/-- The state after `j` rotations of channel `c`, which held the byte `x`. -/
def rotations (c : Chan) (x : Byte) (s : State) : Nat → State
  | 0 => s
  | j + 1 => rotate c (x <<< j) (rotations c x s j)

theorem rotations_ncmd (c : Chan) (x : Byte) (s : State) (j : Nat) :
    (rotations c x s j).ncmd = s.ncmd := by
  induction j with
  | zero => rfl
  | succ j ih => exact ih

theorem rotations_sh {c : Chan} {x : Byte} {s : State} (hx : s.sh.get c = some x) (j : Nat) :
    (rotations c x s j).sh.get c = some (x <<< j) := by
  cases j with
  | zero => rw [BitVec.shiftLeft_zero]; exact hx
  | succ j => rw [rotations, rotate_sh, PerChan.get_set_same, shiftOut, BitVec.shiftLeft_add]

theorem exec_rotations {c : Chan} {x : Byte} {s : State} (hc : c.val < s.ncmd.toNat)
    (hx : s.sh.get c = some x) (j : Nat) :
    exec (.rot c) (rotations c x s j) = .next (rotations c x s (j + 1)) :=
  execRot_of_value (by rw [rotations_ncmd]; exact hc) (rotations_sh hx j)

/-- The bit that comes out of a byte shifted `j` times. -/
theorem testBit_shiftLeft (x : Byte) {j : Nat} (h : j < 8) :
    testBit (x <<< j) = x.getLsbD (7 - j) := by
  have hj : ¬ 7 < j := by omega
  rw [testBit, BitVec.getLsbD_shiftLeft]
  simp [hj]

/-- Settles O12: the shift register holds the byte shifted by the rotations made, whose bit 7 is the
next test bit. -/
theorem eightRotationsSendAByteMsbFirst : Obligations.EightRotationsSendAByteMsbFirst := by
  intro s c x hc hx
  refine ⟨rotations c x s, rfl, fun j hj => ⟨exec_rotations hc hx j, ?_⟩, ?_⟩
  · rw [rotations, rotate_t, PerChan.get_set_same, testBit_shiftLeft x hj]
  · rw [rotations_sh hx, BitVec.shiftLeft_eq_zero (Nat.le_refl 8)]
    rfl

/-! Cycle costs (R89, R177) -/

/-- The cycles of a micro-op other than END, unless it raises a fault. -/
theorem MicroNext.cyc_of_no_fault {s t : State} {i : Instr} (h : MicroNext s i t)
    (hchan : ∀ c, i.channel? = some c → c.val < s.ncmd.toNat)
    (hsh : ∀ c, i = .rot c → s.sh.get c ≠ none)
    (ht : ∀ c off, i = .bt c off → s.t.get c ≠ none) : t.cyc = s.cyc + cost i := by
  cases h with
  | nop | seth | setl | rot | bt => rfl
  | illegal i c w hi hc => exact absurd (hchan c hi) (Nat.not_lt.2 hc)
  | noShift c hc hx => exact absurd hx (hsh c rfl)
  | noTest c off hc hx => exact absurd hx (ht c off rfl)

/-- Going on at a byte boundary takes no time, or T_EXIT at the exit of the frame. -/
theorem nextByte_cyc (s : State) : (nextByte s).cyc = s.cyc ∨
    (nextByte s).phase = .hold ∧ (nextByte s).cyc = s.cyc + s.cfg.tExit := by
  obtain ⟨-, e⟩ | ⟨-, t, hl, e⟩ | ⟨-, t, hl, e⟩ := nextByte_cases s <;> rw [e]
  · exact .inr ⟨rfl, rfl⟩
  · exact .inl (loadBytes_ok_cyc hl :)
  · exact .inl (loadBytes_error_cyc hl)

theorem exec_end_cyc {s t : State} (h : exec .endPath s = .next t) :
    t.cyc = s.cyc ∨ t.phase = .hold ∧ t.cyc = s.cyc + s.cfg.tExit := by
  by_cases hb : s.biti = 7
  · cases next_inj ((exec_end_boundary hb).symm.trans h)
    exact nextByte_cyc s.closeByte
  · cases next_inj ((exec_end_inside hb).symm.trans h)
    exact .inl rfl

/-- Settles O19: each micro-op that raises no fault takes the cycles of `cost`, and END none but those
of the frame exit. -/
theorem cycleCosts : Obligations.CycleCosts := by
  intro s t
  refine ⟨fun n h => (exec_micro_next rfl (by simp) h).cyc_of_no_fault nofun nofun nofun,
    fun c hc => ?_, exec_end_cyc⟩
  have hchan : ∀ d, some c = some d → d.val < s.ncmd.toNat := by rintro d ⟨⟩; exact hc
  refine ⟨fun h => ?_, fun h => ?_, fun hx h => ?_, fun off hx h => ?_⟩
  · exact (exec_micro_next rfl (by simp) h).cyc_of_no_fault hchan nofun nofun
  · exact (exec_micro_next rfl (by simp) h).cyc_of_no_fault hchan nofun nofun
  · exact (exec_micro_next rfl (by simp) h).cyc_of_no_fault hchan (by rintro d ⟨⟩; exact hx) nofun
  · exact (exec_micro_next rfl (by simp) h).cyc_of_no_fault hchan nofun (by rintro d o ⟨⟩; exact hx)

end Sys2Proof.Machine

/-! SUPPORT. WF condition by condition, where paths end, and what becomes of an illegal word
(30_encoding.md R86, R88, R95, R97, R98; 60_exceptions.md R197, R201). -/
namespace Sys2Proof.Machine

/-! Occurrences of a micro-op on a path -/

theorem occurrences_eq_zero_iff {i : Instr} {ops : List PathOp} :
    occurrences i ops = 0 ↔ ∀ o ∈ ops, o.op ≠ i := by
  refine ⟨fun h o ho e => ?_, occurrences_eq_zero⟩
  have := occurrences_pos ⟨o, ho, e⟩
  omega

/-- A path is split at its first `i`. -/
theorem before_eq_of_split {i : Instr} {a b : List PathOp} {o : PathOp} (ha : ∀ x ∈ a, x.op ≠ i)
    (ho : o.op = i) : before i (a ++ o :: b) = a := by
  rw [before_append fun ⟨x, hx, e⟩ => ha x hx e, before_cons, if_pos ho, List.append_nil]

/-- A micro-op that stands once on a path splits it. -/
theorem occurrences_eq_one_iff {i : Instr} {ops : List PathOp} : occurrences i ops = 1 ↔
    ∃ a o b, ops = a ++ o :: b ∧ o.op = i ∧ ∀ x ∈ a ++ b, x.op ≠ i := by
  constructor
  · intro h
    have hmem : ∃ o ∈ ops, o.op = i := Classical.byContradiction fun hno => by
      rw [occurrences_eq_zero fun o ho e => hno ⟨o, ho, e⟩] at h
      cases h
    obtain ⟨o, ho, hi⟩ := hmem
    obtain ⟨a, b, rfl⟩ := List.append_of_mem ho
    rw [occurrences_append, occurrences_cons, if_pos hi] at h
    exact ⟨a, o, b, rfl, hi, List.forall_mem_append.2
      ⟨occurrences_eq_zero_iff.1 (by omega), occurrences_eq_zero_iff.1 (by omega)⟩⟩
  · rintro ⟨a, o, b, rfl, hi, hab⟩
    obtain ⟨ha, hb⟩ := List.forall_mem_append.1 hab
    rw [occurrences_append, occurrences_cons, if_pos hi, occurrences_eq_zero ha,
      occurrences_eq_zero hb]

theorem isBranchOn_eq_false_iff {c : Chan} {i : Instr} :
    isBranchOn c i = false ↔ ∀ off, i ≠ .bt c off := by
  cases i with
  | bt d off => simp [isBranchOn]
  | _ => simp [isBranchOn]

/-! W5: each channel's ROT, SETH and SETL -/

/-- The path has one ROT of channel c, and before it no branch on c. -/
def RotatedOnce (c : Chan) (ops : List PathOp) : Prop :=
  ∃ before o after, ops = before ++ o :: after ∧ o.op = .rot c ∧
    ∀ x ∈ before ++ after, x.op ≠ .rot c ∧ (x ∈ before → ∀ off, x.op ≠ .bt c off)

/-- The path has one SETH and one SETL of channel c, the SETH first. -/
def PulsedOnce (c : Chan) (ops : List PathOp) : Prop :=
  ∃ first h middle l last, ops = first ++ h :: middle ++ l :: last ∧ h.op = .seth c ∧
    l.op = .setl c ∧ ∀ x ∈ first ++ middle ++ last, x.op ≠ .seth c ∧ x.op ≠ .setl c

theorem rotatedOnce_iff {c : Chan} {ops : List PathOp} : RotatedOnce c ops ↔
    occurrences (.rot c) ops = 1 ∧ ∀ o ∈ before (.rot c) ops, isBranchOn c o.op = false := by
  simp only [occurrences_eq_one_iff, isBranchOn_eq_false_iff]
  constructor
  · rintro ⟨a, o, b, rfl, ho, hab⟩
    have hne : ∀ x ∈ a ++ b, x.op ≠ .rot c := fun x hx => (hab x hx).1
    refine ⟨⟨a, o, b, rfl, ho, hne⟩, fun x hx => ?_⟩
    rw [before_eq_of_split (List.forall_mem_append.1 hne).1 ho] at hx
    exact (hab x (List.mem_append_left b hx)).2 hx
  · rintro ⟨⟨a, o, b, rfl, ho, hne⟩, hbr⟩
    rw [before_eq_of_split (List.forall_mem_append.1 hne).1 ho] at hbr
    exact ⟨a, o, b, rfl, ho, fun x hx => ⟨hne x hx, hbr x⟩⟩

theorem pulsedOnce_iff {c : Chan} {ops : List PathOp} : PulsedOnce c ops ↔
    occurrences (.seth c) ops = 1 ∧ occurrences (.setl c) ops = 1 ∧
      ∃ o ∈ before (.setl c) ops, o.op = .seth c := by
  have hlow : ∀ {l : PathOp}, l.op = .setl c → l.op ≠ .seth c := fun hl => by simp [hl]
  constructor
  · rintro ⟨a, h, m, l, b, rfl, hh, hl, hall⟩
    obtain ⟨ham, hb⟩ := List.forall_mem_append.1 hall
    obtain ⟨ha, hm⟩ := List.forall_mem_append.1 ham
    have hseth : ∀ x ∈ a ++ (m ++ l :: b), x.op ≠ .seth c :=
      List.forall_mem_append.2 ⟨fun x hx => (ha x hx).1, List.forall_mem_append.2
        ⟨fun x hx => (hm x hx).1, List.forall_mem_cons.2 ⟨hlow hl, fun x hx => (hb x hx).1⟩⟩⟩
    have hsetl : ∀ x ∈ a ++ h :: m, x.op ≠ .setl c :=
      List.forall_mem_append.2 ⟨fun x hx => (ha x hx).2, List.forall_mem_cons.2
        ⟨fun e => hlow e hh, fun x hx => (hm x hx).2⟩⟩
    refine ⟨occurrences_eq_one_iff.2 ⟨a, h, m ++ l :: b, by simp, hh, hseth⟩,
      occurrences_eq_one_iff.2 ⟨a ++ h :: m, l, b, rfl, hl,
        List.forall_mem_append.2 ⟨hsetl, fun x hx => (hb x hx).2⟩⟩, h, ?_, hh⟩
    rw [before_eq_of_split hsetl hl]
    exact List.mem_append_right a (List.mem_cons_self ..)
  · rintro ⟨h1, h2, h, hmem, hh⟩
    obtain ⟨pre, l, b, rfl, hl, hne⟩ := occurrences_eq_one_iff.1 h2
    rw [before_eq_of_split (List.forall_mem_append.1 hne).1 hl] at hmem
    obtain ⟨a, m, rfl⟩ := List.append_of_mem hmem
    rw [occurrences_append, occurrences_append, occurrences_cons, occurrences_cons, if_pos hh,
      if_neg (hlow hl)] at h1
    have hseth : ∀ x ∈ a ++ m ++ b, x.op ≠ .seth c := by
      rw [← occurrences_eq_zero_iff, occurrences_append, occurrences_append]
      omega
    refine ⟨a, h, m, l, b, rfl, hh, hl, fun x hx => ⟨hseth x hx, hne x ?_⟩⟩
    simp only [List.mem_append, List.mem_cons] at hx ⊢
    exact hx.imp_left (Or.imp_right .inr)

theorem wf5Chan_iff {c : Chan} {ops : List PathOp} :
    wf5Chan c ops = true ↔ RotatedOnce c ops ∧ PulsedOnce c ops := by
  simp only [wf5Chan, Bool.and_eq_true, decide_eq_true_eq, List.all_eq_true, List.any_eq_true,
    Bool.not_eq_true', rotatedOnce_iff, pulsedOnce_iff, and_assoc]

/-! The conditions one by one -/

theorem wf1_iff {s : List Word} : wf1 s = true ↔ 1 ≤ s.length ∧ s.length ≤ 1024 := by
  rw [wf1, Bool.and_eq_true, decide_eq_true_eq, decide_eq_true_eq]
  rfl

theorem wordLegal_iff {n : ChanCount} {w : Word} : wordLegal n w = true ↔
    ∃ i, decode w = some i ∧ ∀ c, i.channel? = some c → c.val < n.toNat := by
  unfold wordLegal
  cases decode w with
  | none => simp
  | some i =>
    cases hc : i.channel? with
    | none => simp [hc]
    | some c => simp [hc]

theorem wf2_iff {s : List Word} {n : ChanCount} : wf2 s n = true ↔
    ∀ w ∈ s, ∃ i, decode w = some i ∧ ∀ c, i.channel? = some c → c.val < n.toNat := by
  simp only [wf2, List.all_eq_true, wordLegal_iff]

theorem branchInside_iff {len p : Nat} {w : Word} : branchInside len p w = true ↔
    ∀ c off, decode w = some (.bt c off) → p + 1 + off < len := by
  unfold branchInside
  split
  · next c off h => simp [h]
  · next h => exact ⟨fun _ c off e => absurd e (h c off), fun _ => rfl⟩

theorem wf3_iff {s : List Word} : wf3 s = true ↔
    ∀ (p : Nat) (w : Word) (c : Chan) (off : Nat), s[p]? = some w → decode w = some (.bt c off) →
      p + 1 + off < s.length := by
  simp only [wf3, List.all_eq_true, Prod.forall, List.mk_mem_zipIdx_iff_getElem?, branchInside_iff]
  exact ⟨fun h p w c off hw => h w p hw c off, fun h w p hw c off => h p w c off hw⟩

theorem wf4_iff {s : List Word} {n : ChanCount} :
    wf4 s n = true ↔ ∀ v ∈ vectors n, ∃ ops, path s v = some ops := by
  simp only [wf4, List.all_eq_true, Option.isSome_iff_exists]

theorem onPaths_iff {s : List Word} {n : ChanCount} {f : PerChan Bool → List PathOp → Bool} :
    onPaths s n f = true ↔ ∀ v ∈ vectors n, ∀ ops, path s v = some ops → f v ops = true := by
  refine ⟨fun h v hv ops hp => onPaths_path h hv hp, fun h => List.all_eq_true.2 fun v hv => ?_⟩
  split
  · rfl
  · next ops hp => exact h v hv ops hp

theorem wf7Chan_iff {tt : Timing} {v : PerChan Bool} {c : Chan} {ops : List PathOp} :
    wf7Chan tt v c ops = true ↔ ∃ r, rise c ops = some r ∧
      fall c ops = some (r + if v.get c then tt.t1h else tt.t0h) := by
  unfold wf7Chan
  cases rise c ops with
  | none => simp
  | some r =>
    cases fall c ops with
    | none => simp
    | some f =>
      rw [decide_eq_true_eq]
      simp [highTime]

theorem zeros_mem_vectors (n : ChanCount) : PerChan.all false ∈ vectors n := by
  cases n <;> decide

/-- When every vector has a path, W8 compares the rises of any two paths. -/
theorem wf8_iff {s : List Word} {n : ChanCount} (h4 : ∀ v ∈ vectors n, ∃ ops, path s v = some ops) :
    wf8 s n = true ↔ ∀ v ∈ vectors n, ∀ ops, path s v = some ops →
      ∀ v' ∈ vectors n, ∀ ops', path s v' = some ops' → ∀ c ∈ n.chans, rise c ops = rise c ops' := by
  simp only [wf8, onPaths_iff, List.all_eq_true, decide_eq_true_eq]
  constructor
  · intro h v hv ops hp v' hv' ops' hp' c hc
    rw [h v hv ops hp c hc, h v' hv' ops' hp' c hc]
  · intro h v hv ops hp c hc
    obtain ⟨zeros, hz⟩ := h4 _ (zeros_mem_vectors n)
    rw [phase?, hz]
    exact h v hv ops hp _ (zeros_mem_vectors n) zeros hz c hc

theorem scheduleWf_iff {s : List Word} {n : ChanCount} {tt : Timing} : scheduleWf s n tt = true ↔
    wf1 s = true ∧ wf2 s n = true ∧ wf3 s = true ∧ wf4 s n = true ∧ wf5 s n = true ∧
      wf6 s n tt = true ∧ wf7 s n tt = true ∧ wf8 s n = true := by
  simp [scheduleWf, wfConditions]

/-- Settles O44: W1 to W4 on the words and the existence of paths, and W5 to W8 on each path. -/
theorem wellFormednessOfASchedule : Obligations.WellFormednessOfASchedule := by
  intro s n tt
  rw [scheduleWf_iff, wf1_iff, wf2_iff, wf3_iff, wf4_iff]
  refine and_congr_right fun _ => and_congr_right fun _ => and_congr_right fun _ =>
    and_congr_right fun h4 => ?_
  rw [wf8_iff h4]
  simp only [wf5, wf6, wf7, onPaths_iff, List.all_eq_true, decide_eq_true_eq, wf5Chan_iff,
    wf7Chan_iff]
  constructor
  · rintro ⟨h5, h6, h7, h8⟩ v hv ops hp
    exact ⟨h5 v hv ops hp, h6 v hv ops hp, h7 v hv ops hp, h8 v hv ops hp⟩
  · intro h
    refine ⟨fun v hv ops hp => ?_, fun v hv ops hp => ?_, fun v hv ops hp => ?_,
      fun v hv ops hp => ?_⟩ <;> obtain ⟨h5, h6, h7, h8⟩ := h v hv ops hp
    · exact h5
    · exact h6
    · exact h7
    · exact h8

/-! Where paths end (R86, R95, R98) -/

/-- Branches go forward only. -/
theorem lt_pathNext (i : Instr) (p : Nat) (tb : PerChan Bool) : p < pathNext i p tb := by
  cases i with
  | bt c off =>
    rw [pathNext]
    split <;> omega
  | _ => exact Nat.lt_succ_self p

/-- A walk past the end of the schedule is no path. -/
theorem walk_of_length_le {s : List Word} {p : Nat} (h : s.length ≤ p) (v : PerChan Bool)
    (f t : Nat) (tb : PerChan Bool) : walk s v f p t tb = none := by
  cases f with
  | zero => rfl
  | succ f => rw [walk, List.getElem?_eq_none h]

/-- The micro-ops of a walk stand at rising indices from its start on. -/
theorem walk_indices {s : List Word} {v : PerChan Bool} {f p t : Nat} {tb : PerChan Bool}
    {ops : List PathOp} (h : walk s v f p t tb = some ops) :
    (ops.map PathOp.index).Pairwise (· < ·) ∧ ∀ o ∈ ops, p ≤ o.index := by
  induction f generalizing p t tb ops with
  | zero => cases h
  | succ f ih =>
    obtain ⟨w, i, -, -, ⟨-, rfl⟩ | ⟨-, rest, hrest, rfl⟩⟩ := walk_cases h
    · exact ⟨List.pairwise_singleton _ _, List.forall_mem_singleton.2 (Nat.le_refl p)⟩
    · obtain ⟨hrises, hrange⟩ := ih hrest
      have hafter : ∀ o ∈ rest, p < o.index := fun o ho =>
        Nat.lt_of_lt_of_le (lt_pathNext i p tb) (hrange o ho)
      exact ⟨List.pairwise_cons.2 ⟨List.forall_mem_map.2 hafter, hrises⟩,
        List.forall_mem_cons.2 ⟨Nat.le_refl p, fun o ho => Nat.le_of_lt (hafter o ho)⟩⟩

/-- A walk has at most as many micro-ops as there are words from its start on. -/
theorem walk_length_le {s : List Word} {v : PerChan Bool} {f p t : Nat} {tb : PerChan Bool}
    {ops : List PathOp} (h : walk s v f p t tb = some ops) : p + ops.length ≤ s.length := by
  induction f generalizing p t tb ops with
  | zero => cases h
  | succ f ih =>
    obtain ⟨w, i, hw, -, ⟨-, rfl⟩ | ⟨-, rest, hrest, rfl⟩⟩ := walk_cases h
    · exact (List.getElem?_eq_some_iff.1 hw).1
    · have hlen := ih hrest
      have hnext := lt_pathNext i p tb
      rw [List.length_cons]
      omega

theorem path_length_le {s : List Word} {v : PerChan Bool} {ops : List PathOp}
    (h : path s v = some ops) : ops.length ≤ s.length := by
  have := walk_length_le h
  omega

/-- Two walks that are both allowed as many steps as there are words ahead are the same. -/
theorem walk_fuel {s : List Word} {v : PerChan Bool} {f g p t : Nat} {tb : PerChan Bool}
    (hf : s.length ≤ f + p) (hg : s.length ≤ g + p) : walk s v f p t tb = walk s v g p t tb := by
  induction f generalizing g p t tb with
  | zero =>
    have hp : s.length ≤ p := by omega
    rw [walk_of_length_le hp, walk_of_length_le hp]
  | succ f ih =>
    cases g with
    | zero =>
      have hp : s.length ≤ p := by omega
      rw [walk_of_length_le hp, walk_of_length_le hp]
    | succ g =>
      have hrest : ∀ i, walk s v f (pathNext i p tb) (t + cost i) (pathTest i v tb) =
          walk s v g (pathNext i p tb) (t + cost i) (pathTest i v tb) := fun i => by
        have := lt_pathNext i p tb
        exact ih (by omega) (by omega)
      simp only [walk, hrest]

/-- Settles O45: each step of a walk goes forward in the schedule, and steps beyond its length change nothing. -/
theorem pathsEnd : Obligations.PathsEnd := by
  intro s v
  refine ⟨fun ops h => ⟨path_length_le h, (walk_indices h).1⟩, fun f hf => ?_⟩
  exact walk_fuel (by omega) (by omega)

/-! Illegal words (R88) -/

theorem scheduleWf_eq_false_of_illegal {s : List Word} {n : ChanCount} {tt : Timing} {w : Word}
    (hw : w ∈ s) (hd : decode w = none) : scheduleWf s n tt = false := by
  refine Bool.eq_false_iff.2 fun h => ?_
  obtain ⟨-, h2, -⟩ := scheduleWf_conditions h
  obtain ⟨i, hi, -⟩ := wf2_iff.1 h2 w hw
  rw [hd] at hi
  cases hi

theorem schedulesOk_iff {cfg : Config} {tt : Timing} :
    schedulesOk cfg tt = true ↔ ∀ n, scheduleWf (cfg.schedOf n) n tt = true := by
  simp only [schedulesOk, List.all_eq_true]
  exact ⟨fun h n => h n (by cases n <;> decide), fun h n _ => h n⟩

theorem schedulesOk_eq_false_of_illegal {cfg : Config} {n : ChanCount} {w : Word}
    (hw : w ∈ cfg.schedOf n) (hd : decode w = none) (tt : Timing) : schedulesOk cfg tt = false := by
  refine Bool.eq_false_iff.2 fun h => ?_
  have hn := schedulesOk_iff.1 h n
  rw [scheduleWf_eq_false_of_illegal hw hd] at hn
  cases hn

theorem buildRefusal_of_illegal {cfg : Config} {n : ChanCount} {w : Word}
    (hw : w ∈ cfg.schedOf n) (hd : decode w = none) : buildRefusal cfg ≠ none := by
  intro h
  obtain ⟨tt, -, -, -, -, -, hs⟩ := buildRefusal_none h
  rw [schedulesOk_eq_false_of_illegal hw hd] at hs
  cases hs

/-- The schedules are checked last. -/
theorem buildRefusal_buildSched {cfg : Config} {tt : Timing} (ht : selectedTiming cfg = some tt)
    (htab : tableOk cfg.table = true) (hpin : pinsOk cfg.nReg cfg.pin = true)
    (hord : orderOk cfg.order = true) (hhold : holdsOk cfg.hold tt.treset = true)
    (hs : schedulesOk cfg tt = false) : buildRefusal cfg = some .buildSched := by
  simp [buildRefusal, ht, htab, hpin, hord, hhold, hs]

/-- A step on an illegal word. -/
theorem step_illegal {s : State} {w : Word} (hp : s.phase = .run) (hh : hostWaits s = true)
    (hw : s.schedule[s.pc]? = some w) (hd : decode w = none) :
    step s = .next (s.tick.raise (.illegalOp s.pc w)) := by
  have hw' : s.tick.schedule[s.tick.pc]? = some w := by
    rw [State.schedule, State.tick_cfg, State.tick_ncmd, State.tick_pc]
    exact hw
  have hfetch : fetch s.tick = .illegal w := by simp only [fetch, hw', hd]
  rw [step_waits hh, blockStep, State.tick_phase, hp]
  simp only [runStep, hfetch, State.tick_pc]

/-- Settles O5: the decoder's refusals by the fields, W2, the order of the build checks, and the
fetch. -/
theorem illegalWords : Obligations.IllegalWords := by
  refine ⟨fun w => ?_, fun s n tt w => scheduleWf_eq_false_of_illegal,
    fun cfg n w hw hd => ⟨buildRefusal_of_illegal hw hd, fun tt ht htab hpin hord hhold => ?_⟩,
    fun s w => step_illegal⟩
  · rw [decode_eq_none_iff]
    simp only [slice_opcode, slice_chan_eq_three, ne_eq, slice_middle_eq_zero, slice_low_eq_zero,
      slice_opcode_eq_iff (k := 5)]
    rfl
  · exact buildRefusal_buildSched ht (List.all_eq_true.2 htab) hpin hord hhold
      (schedulesOk_eq_false_of_illegal hw hd tt)

end Sys2Proof.Machine

/-! SUPPORT. How long a command and its critical section last, and what a build says of its timing
table (40_timing_model.md R105, R106, R108, R113; 60_exceptions.md R197). -/
namespace Sys2Proof.Machine

/-! The duration of a command (R113) -/

/-- The critical section of a command accepted at `t0`, as the length it has. -/
theorem exitCycle_eq (cfg : Config) (tt : Timing) (count t0 : Nat) : exitCycle cfg tt count t0 =
    t0 + (cfg.tStart + 24 * count * tt.tbit + cfg.tExit) := by
  simp only [exitCycle, Nat.add_assoc]

/-- The interrupt flag of a completed command changes twice: at acceptance and at the exit. -/
theorem CommandDone.ieEvents_eq {s u : State} {n : ChanCount} {count : Nat} {bufs : PerChan Nat}
    {tt : Timing} (h : CommandDone s u n count bufs tt) : ieEvents (newEvents s u) =
      [(s.cyc, false), (exitCycle s.cfg tt count s.cyc, restoredIe s.cfg s.ie)] := by
  rw [h.newEvents_eq, ieEvents_commandTrace]

/-- A command is done when its hold, which begins at the exit, is over. -/
theorem CommandDone.cyc_eq {s u : State} {n : ChanCount} {count : Nat} {bufs : PerChan Nat}
    {tt : Timing} (h : CommandDone s u n count bufs tt) :
    u.cyc = exitCycle s.cfg tt count s.cyc + s.cfg.holdOf n := by
  rw [h.same]

/-- Settles O53: a launched command reaches its Done, where both flag events and the cycle are given
by the cycle of the exit, which is the length of the critical section after acceptance. -/
theorem commandDuration : Obligations.CommandDuration := by
  intro s n count bufs tt h
  obtain ⟨u, hu, hdone⟩ := h.completes
  rw [← exitCycle_eq]
  exact ⟨u, hu, hdone.ieEvents_eq, hdone.cyc_eq⟩

/-! The timing table of a build (R105, R106, R108) -/

theorem timingOk_iff {tt : Timing} : timingOk tt = true ↔
    1 ≤ tt.t0h ∧ tt.t0h < tt.t1h ∧ tt.t1h < tt.tbit ∧ 1 ≤ tt.treset := by
  simp only [timingOk, Bool.and_eq_true, decide_eq_true_eq, and_assoc]

theorem tableOk_iff {table : List TimingRow} :
    tableOk table = true ↔ ∀ row ∈ table, timingOk row.entry = true :=
  List.all_eq_true

/-- A frequency of no row has no entry. -/
theorem selectedTiming_eq_none {cfg : Config} (h : ∀ row ∈ cfg.table, row.freq ≠ cfg.fCpu) :
    selectedTiming cfg = none := by
  refine Option.eq_none_iff_forall_ne_some.2 fun tt htt => ?_
  obtain ⟨row, hrow, hfreq, -⟩ := lookupTiming_mem htt
  exact h row hrow hfreq

/-- The frequency is checked first. -/
theorem buildRefusal_buildFreq {cfg : Config} (h : selectedTiming cfg = none) :
    buildRefusal cfg = some .buildFreq := by
  rw [buildRefusal, h]

/-- The table is checked next. -/
theorem buildRefusal_buildTable {cfg : Config} {tt : Timing} (ht : selectedTiming cfg = some tt)
    (htab : tableOk cfg.table = false) : buildRefusal cfg = some .buildTable := by
  simp [buildRefusal, ht, htab]

/-- A build that is not refused has only good entries in its table. -/
theorem tableOk_of_buildRefusal_none {cfg : Config} (h : buildRefusal cfg = none) :
    tableOk cfg.table = true := by
  obtain ⟨tt, htt, -⟩ := buildRefusal_none h
  cases htab : tableOk cfg.table with
  | true => rfl
  | false =>
    rw [buildRefusal_buildTable htt htab] at h
    cases h

/-- A refused build has no instance. -/
theorem boot_of_refusal {cfg : Config} {r : RefusalCode} (h : buildRefusal cfg = some r)
    (out : List Byte) (ie : Bool) (mem : Memory) (host : List HostAction) :
    boot cfg out ie mem host = .error r := by
  rw [boot, h]

/-- An instance that exists has the configuration it was built with, which no check refuses. -/
theorem boot_eq_ok {cfg : Config} {out : List Byte} {ie : Bool} {mem : Memory}
    {host : List HostAction} {s : State} (h : boot cfg out ie mem host = .ok s) :
    s.cfg = cfg ∧ buildRefusal cfg = none := by
  cases hr : buildRefusal cfg with
  | none =>
    rw [boot, hr] at h
    cases h
    exact ⟨rfl, rfl⟩
  | some r =>
    rw [boot_of_refusal hr] at h
    cases h

/-- Settles O46: the frequency and the table are the first two checks of a build; an entry, the
selected one being one of them, is what R106 asks exactly when `timingOk` holds of it. -/
theorem buildNeedsATimingEntry : Obligations.BuildNeedsATimingEntry := by
  intro cfg out ie mem host
  simp only [← timingOk_iff]
  refine ⟨fun hfreq => ?_, fun tt htt hbad => ?_, fun s hs => ?_⟩
  · have hr := buildRefusal_buildFreq (selectedTiming_eq_none hfreq)
    exact ⟨hr, boot_of_refusal hr ..⟩
  · have htab : tableOk cfg.table = false := by
      refine Bool.eq_false_iff.2 fun hok => ?_
      rcases hbad with hsel | ⟨row, hrow, hentry⟩
      · exact hsel (tableOk_selected hok htt)
      · exact hentry (tableOk_iff.1 hok row hrow)
    have hr := buildRefusal_buildTable htt htab
    exact ⟨hr, boot_of_refusal hr ..⟩
  · obtain ⟨hcfg, hnone⟩ := boot_eq_ok hs
    rw [hcfg]
    exact tableOk_iff.1 (tableOk_of_buildRefusal_none hnone)

end Sys2Proof.Machine

/-! SUPPORT. The line driver: what a write of one output bit and SETH and SETL do, and that nothing
else writes an output register (41_line_driver.md R115 to R122; 44_frame_transmitter.md R178). -/
namespace Sys2Proof.Machine

/-! One output bit (R115) -/

theorem outWrite_of_getElem? {out : List Byte} {r b : Nat} {x : Byte} (v : Bool)
    (hx : out[r]? = some x) (hb : b < outWidth) :
    outWrite out r b v = some (out.set r (setBit x b v)) := by
  simp [outWrite, hx, hb]

/-- After a line write the channel's line has the level written, in every configuration. -/
theorem lineWrite_line?_self {s t : State} {c : Chan} {v : Bool} {n : Nat}
    (h : lineWrite s c v n = some t) : t.line? c = some v := by
  obtain ⟨x, hx, hb, rfl⟩ := lineWrite_some h
  exact (outBit_set v hx hb _ _).trans (if_pos ⟨rfl, rfl⟩)

/-- Settles O9: a write of an existing bit replaces one register by one with that bit set, and a
line write is such a write with its event appended. -/
theorem outputWriteSetsOneBit : Obligations.OutputWriteSetsOneBit := by
  refine ⟨fun out r b v hr hb => ?_, fun s c v t hr hb => ?_⟩
  · have hx := List.getElem?_eq_getElem hr
    exact ⟨_, outWrite_of_getElem? v hx hb, List.length_set, outBit_set v hx hb⟩
  · have hx := List.getElem?_eq_getElem hr
    have hw := lineWrite_of_pin v t hx hb
    exact ⟨_, hw, lineWrite_line?_self hw, outWrite_of_getElem? v hx hb, rfl⟩

/-! SETH and SETL (R116, R117, R119) -/

/-- Settles O8: the channel check passes, and the pin exists. -/
theorem lineMicroOpsComplete : Obligations.LineMicroOpsComplete := by
  intro s c x hc hx hb
  exact ⟨(withChannel_of_lt hc).trans (driveLine_of_pin true hx hb),
    (withChannel_of_lt hc).trans (driveLine_of_pin false hx hb)⟩

/-- A pin is its register with its bit position. -/
theorem pin_eq_iff {p q : Pin} : p = q ↔ (p.reg, p.bit) = (q.reg, q.bit) := by
  cases p
  cases q
  simp

/-- SETH and SETL of channel `a` leave the line of a channel whose pin is another. -/
theorem line?_of_seth_setl {s t : State} {i : Instr} {a b : Chan} (hi : i = .seth a ∨ i = .setl a)
    (hne : s.cfg.pin.get b ≠ s.cfg.pin.get a) (h : exec i s = .next t) :
    t.line? b = s.line? b := by
  have hm : MicroNext s i t := by obtain rfl | rfl := hi <;> exact exec_micro_next rfl (by simp) h
  rw [line?_eq_outBit, line?_eq_outBit, hm.cfg_eq]
  obtain ⟨f, rfl⟩ | ⟨-, hout⟩ := hm.seth_setl_frame hi
  · rfl
  · exact hout _ _ (mt pin_eq_iff.2 hne)

/-- Settles O10: a build that is not refused has passed the pin check, so two channels have two
pins, and SETH and SETL write the bit of their own channel's pin only. -/
theorem sharedRegistersAreUndisturbed : Obligations.SharedRegistersAreUndisturbed := by
  intro s a b hbuild hab
  obtain ⟨-, -, -, hpins, -⟩ := buildRefusal_none hbuild
  have hne : s.cfg.pin.get b ≠ s.cfg.pin.get a :=
    fun e => hab ((pinsOk_exist hpins).inj b a e).symm
  refine ⟨fun hreg hbit => ?_, fun t h => ?_⟩
  · exact hne (pin_eq_iff.2 (by rw [hreg, hbit]))
  · obtain h | h := h
    · exact line?_of_seth_setl (.inl rfl) hne h
    · exact line?_of_seth_setl (.inr rfl) hne h

/-! What writes an output bit (R121, R122, R178) -/

/-- The micro-ops that write an output bit are SETH and SETL of a channel of the command, and the
bit is that of the channel's pin. -/
theorem MicroNext.pin_of_outBit_ne {s t : State} {i : Instr} {r b : Nat} (h : MicroNext s i t)
    (hne : outBit t.out r b ≠ outBit s.out r b) :
    ∃ c : Chan, (i = .seth c ∨ i = .setl c) ∧ c.val < s.ncmd.toNat ∧
      (s.cfg.pin.get c).reg = r ∧ (s.cfg.pin.get c).bit = b := by
  cases h with
  | seth c x hc h1 h2 | setl c x hc h1 h2 =>
    have hplace : (r, b) = ((s.cfg.pin.get c).reg, (s.cfg.pin.get c).bit) :=
      Decidable.of_not_not fun hrb => hne (outBit_pin_write _ h1 h2 hrb)
    obtain ⟨hr, hb⟩ := Prod.mk.inj hplace
    exact ⟨c, by simp, hc, hr.symm, hb.symm⟩
  | nop | rot | bt | illegal | noShift | noTest => exact absurd rfl hne

/-- END writes no output register. -/
theorem exec_end_out {s t : State} (h : exec .endPath s = .next t) : t.out = s.out := by
  obtain ⟨hsame, -⟩ := endFrame s t h
  rw [hsame]

/-- TRANSMIT writes no output register. -/
theorem exec_transmit_out {n count : Nat} {bufs : PerChan Nat} {s t : State}
    (h : exec (.transmit n count bufs) s = .next t) : t.out = s.out := by
  obtain ⟨-, -, hout, -⟩ := transmitFrame n count bufs s t h
  exact hout

/-- Settles O37: of the instructions only SETH and SETL write an output register, and the hold
writes the time, the trace and the phase. -/
theorem onlyLinesOfTheCommandAreWritten : Obligations.OnlyLinesOfTheCommandAreWritten := by
  refine ⟨fun i s t r b h hne => ?_, fun s t hp h => ?_⟩
  · cases i with
    | endPath => exact absurd (by rw [exec_end_out h]) hne
    | transmit n count bufs => exact absurd (by rw [exec_transmit_out h]) hne
    | _ => exact (exec_micro_next rfl (by simp) h).pin_of_outBit_ne hne
  · rw [blockStep, hp] at h
    rw [← next_inj h, holdDone_out]

end Sys2Proof.Machine

/-! SUPPORT. The bit encoder: what a step in RUN fetches and runs or raises, NOP, ROT, BT and END, the
paths of EX20, and the encoder states (42_bit_encoder.md R126 to R140; 60_exceptions.md R200 to R203). -/
namespace Sys2Proof.Machine

/-! Fetch (R126, R200, R201, R203) -/

/-- A fetch reads none of the host's list. -/
@[simp] theorem fetch_tick (s : State) : fetch s.tick = fetch s := by
  rw [State.tick_same]
  rfl

theorem fetch_of_length_le {s : State} (h : s.schedule.length ≤ s.pc) : fetch s = .outOfRange := by
  rw [fetch, List.getElem?_eq_none h]

theorem fetch_of_decode {s : State} {w : Word} {i : Instr} (hw : s.schedule[s.pc]? = some w)
    (hi : decode w = some i) : fetch s = .op i := by
  simp only [fetch, hw, hi]

/-- In RUN, while the host waits, the step is that of the sequencer. -/
theorem step_run_waits {s : State} (hp : s.phase = .run) (hh : hostWaits s = true) :
    step s = runStep s.tick := by
  rw [step_waits hh, blockStep, State.tick_phase, hp]

/-- A step past the end of the schedule. -/
theorem step_outOfRange {s : State} (hp : s.phase = .run) (hh : hostWaits s = true)
    (hpc : s.schedule.length ≤ s.pc) : step s = .next (s.tick.raise (.pcRange s.pc)) := by
  rw [step_run_waits hp hh, runStep, fetch_tick, fetch_of_length_le hpc, State.tick_pc]

/-- A step on a word that decodes. -/
theorem step_decoded {s : State} {w : Word} {i : Instr} (hp : s.phase = .run)
    (hh : hostWaits s = true) (hw : s.schedule[s.pc]? = some w) (hi : decode w = some i) :
    step s = exec i s.tick := by
  rw [step_run_waits hp hh, runStep, fetch_tick, fetch_of_decode hw hi]

/-- A micro-op of a channel outside the command raises ILLEGAL_OP with its own word. -/
theorem exec_of_channel_ge {i : Instr} {w : Word} {c : Chan} {s : State} (hw : encode i = [w])
    (hi : i.channel? = some c) (hc : s.ncmd.toNat ≤ c.val) :
    exec i s = .next (s.raise (.illegalOp s.pc w)) := by
  cases i with
  | seth | setl | rot | bt =>
    cases hi
    cases hw
    simp only [exec, execSeth, execSetl, execRot, execBt, withChannel_of_ge hc]
  | nop | endPath | transmit => cases hi

/-- Settles O1: while the host waits the step is the sequencer's, which runs the decoded word. -/
theorem stepRunsTheDecodedInstruction : Obligations.StepRunsTheDecodedInstruction :=
  ⟨fun _ _ _ => step_decoded, fun _ _ _ _ _ => step_transmit, fun _ _ _ => State.tick_letRun,
    fun _ => State.tick_eq⟩

/-- Settles O15: the checks of a fetch in their order; a word that decodes is the word its micro-op
raises ILLEGAL_OP with, the encoder being the decoder's inverse; and the last clause is W2. -/
theorem fetchFaults : Obligations.FetchFaults := by
  refine ⟨fun s => step_outOfRange, fun s w hp hh hw hill => ?_, fun s n tt hwf => ?_⟩
  · obtain hd | ⟨i, c, hi, hchan, hc⟩ := hill
    · exact step_illegal hp hh hw hd
    · rw [step_decoded hp hh hw hi,
        exec_of_channel_ge (encode_of_decode hi) hchan (by rwa [State.tick_ncmd]), State.tick_pc]
  · obtain ⟨-, h2, -⟩ := scheduleWf_iff.1 hwf
    exact wf2_iff.1 h2

/-! NOP, ROT and BT (R127 to R129) -/

/-- Settles O7: the word is that of the encoder, which decodes to NOP n. -/
theorem nopCompletes : Obligations.NopCompletes := by
  refine ⟨fun n h1 h2 => ?_, fun _ _ => rfl⟩
  have hok : nopCountOk n = true := by simp [nopCountOk, h1, h2]
  have hword : wordNop n = BitVec.ofNat 16 (n - 1) := by simp [wordNop, formatWord]
  rw [← hword]
  exact decode_wordNop hok

/-- The shift by one as the spec writes it. -/
theorem shiftOut_eq_append (x : Byte) : shiftOut x = x.extractLsb' 0 7 ++ 0#1 := by
  refine BitVec.eq_of_getLsbD_eq fun i hi => ?_
  rw [shiftOut, BitVec.getLsbD_shiftLeft, BitVec.getLsbD_append, BitVec.getLsbD_extractLsb']
  cases i with
  | zero => simp
  | succ i =>
    have hi7 : i < 7 := by omega
    simp [hi, hi7]

/-- Settles O11: the channel check passes and the register holds a byte, so ROT is `rotate`. -/
theorem rotCompletes : Obligations.RotCompletes := by
  intro s c x hc hx
  refine ⟨rotate c x s, execRot_of_value hc hx, ?_, ?_, fun d hd => ⟨?_, ?_⟩, rfl⟩
  · rw [rotate_t, PerChan.get_set_same, testBit]
  · rw [rotate_sh, PerChan.get_set_same, shiftOut_eq_append]
  · rw [rotate_t, PerChan.get_set_of_ne _ _ hd]
  · rw [rotate_sh, PerChan.get_set_of_ne _ _ hd]

/-- Settles O13: the channel check passes and the test bit holds a value. -/
theorem btCompletes : Obligations.BtCompletes :=
  fun _ _ _ _ hc hb => execBt_of_value hc hb

/-! END (R131) -/

/-- Settles O16: BITI is not at its last value, so no byte is complete. -/
theorem endInsideAByteCompletes : Obligations.EndInsideAByteCompletes :=
  fun _ => exec_end_inside

/-- Going on before the end of the frame, every next byte being admitted: the loads complete, and the
next path starts. -/
theorem nextByte_of_admitted {s : State} (hk : s.k ≠ s.count)
    (hadm : ∀ c ∈ s.ncmd.chans, admitted s.mem (s.byteAddr c)) :
    ∃ sh, nextByte s = { s with
        sh := sh, pc := 0
        trace := s.trace ++ s.ncmd.chans.map fun c =>
          .read s.cyc (s.byteAddr c) (byteAt s.mem (s.byteAddr c)) } ∧
      (∀ c ∈ s.ncmd.chans, sh.get c = some (byteAt s.mem (s.byteAddr c))) ∧
      ∀ c, c ∉ s.ncmd.chans → sh.get c = s.sh.get c := by
  obtain ⟨sh, hload, hbytes, hout⟩ := loadBytes_readable (base := s.byteAddr) (off := 0)
    s.ncmd.chans s.ncmd.chans_nodup (fun _ _ => rfl) hadm
  exact ⟨sh, nextByte_of_ok hk hload, hbytes, hout⟩

/-- Settles O17: the counters move to the next byte, which is not past the last color and is admitted
for every channel. -/
theorem endAtAByteBoundaryLoads : Obligations.EndAtAByteBoundaryLoads := by
  intro s j k hb hnext hk hadm
  rw [exec_end_boundary hb, closeByte_eq hnext]
  obtain ⟨sh, hnb, hbytes, hout⟩ :=
    nextByte_of_admitted (s := { s with biti := 0, slot := j, k := k }) hk hadm
  exact ⟨sh, congrArg Host.Outcome.next hnb, hbytes, hout⟩

/-! The paths of EX20 (R140, R160, R162) -/

/-- The schedules of EX20 pass WF, EX20 being built. -/
theorem scheduleWf_ex20 (n : ChanCount) : scheduleWf (Config.ex20.schedOf n) n timingEx20 = true := by
  obtain ⟨-, hreset⟩ := resetMeetsTheInvariants
  obtain ⟨hbuild, -⟩ := hreset.built
  obtain ⟨tt, htt, -, -, -, -, hs⟩ := buildRefusal_none hbuild
  obtain rfl : timingEx20 = tt := Option.some.inj htt
  exact schedulesOk_iff.1 hs n

/-- At EX20 channel c rises at c + 1 on the path of zeros. -/
theorem phase?_ex20 (n : ChanCount) : ∀ c ∈ n.chans,
    phase? (Config.ex20.schedOf n) c = some (c.val + 1) := by
  cases n <;> decide

/-- W8: every path of a schedule that passes WF has the rises of the path of zeros. -/
theorem rise_eq_phase? {sched : List Word} {n : ChanCount} {tt : Timing} {v : PerChan Bool}
    {ops : List PathOp} {c : Chan} (hwf : scheduleWf sched n tt = true) (hv : v ∈ vectors n)
    (hp : path sched v = some ops) (hc : c ∈ n.chans) : rise c ops = phase? sched c := by
  obtain ⟨-, -, -, -, -, -, -, h8⟩ := scheduleWf_iff.1 hwf
  have hrises := List.all_eq_true.1 (onPaths_path h8 hv hp)
  exact of_decide_eq_true (hrises c hc)

/-- Settles O49: EX20 is built, so WF gives each path its cost and its high times, and its rises are
those of the path of zeros. -/
theorem pathAccountingAtEx20 : Obligations.PathAccountingAtEx20 := by
  intro n v hv
  have hwf := scheduleWf_ex20 n
  obtain ⟨-, -, -, hpaths, hgood⟩ := (wellFormednessOfASchedule _ n timingEx20).1 hwf
  obtain ⟨ops, hp⟩ := hpaths v hv
  obtain ⟨-, hcost, hhigh, -⟩ := hgood v hv ops hp
  refine ⟨ops, hp, hcost, fun c hc => ?_⟩
  obtain ⟨r, hr, hfall⟩ := hhigh c hc
  have hrise := (rise_eq_phase? hwf hv hp hc).trans (phase?_ex20 n c hc)
  obtain rfl := Option.some.inj (hrise.symm.trans hr)
  exact ⟨hrise, hfall⟩

/-! The encoder states (R137) -/

theorem encoderState_of_not_run {tt : Timing} {s : State} {c : Chan}
    (h : s.phase ≠ .run ∨ bitStart c s.trace = none) : encoderState tt s c = .idle := by
  unfold encoderState
  cases hp : s.phase with
  | idle | hold | fault => rfl
  | run =>
    obtain hne | hb := h
    · exact absurd hp hne
    · simp only [hb]

/-- In RUN the encoder state is that of the time since the last bit start. -/
theorem encoderState_of_start {tt : Timing} {s : State} {c : Chan} {start d : Nat}
    (hp : s.phase = .run) (hb : bitStart c s.trace = some start) (hd : s.cyc = start + d) :
    encoderState tt s c = bitStateAt tt d := by
  simp only [encoderState, hp, hb, hd, Nat.add_sub_cancel_left]

/-- The states of a bit over its time, in the order R137 gives them. -/
theorem bitStateAt_eq {tt : Timing} (ht : timingOk tt = true) (d : Nat) :
    (d < tt.t0h → bitStateAt tt d = .drivingHigh) ∧
    (d = tt.t0h → bitStateAt tt d = .maybeDropEarly) ∧
    (tt.t0h < d → d < tt.tbit → bitStateAt tt d = .drivingLowOrContinuing) ∧
    (d = tt.tbit → bitStateAt tt d = .periodEnd) := by
  obtain ⟨-, h01, h1b, -⟩ := timingOk_iff.1 ht
  unfold bitStateAt
  refine ⟨fun h => if_pos h, fun h => ?_, fun h0 hb => ?_, fun h => ?_⟩
  · rw [if_neg (by omega), if_pos h]
  · rw [if_neg (by omega), if_neg (by omega), if_pos hb]
  · rw [if_neg (by omega), if_neg (by omega), if_neg (by omega)]

/-- Settles O60: outside RUN and before the first bit start the state is idle, else that of the time
since the last bit start. -/
theorem encoderStatesFollowTheTime : Obligations.EncoderStatesFollowTheTime := by
  intro s c tt ht
  refine ⟨encoderState_of_not_run, fun start d hp hb hd => ?_⟩
  rw [encoderState_of_start hp hb hd]
  exact bitStateAt_eq ht d

end Sys2Proof.Machine

/-! SUPPORT. The interleaver: the reference schedules of EX20, the cycles every path takes, the trace
by the dispatch table, and no cross-talk between channels (30_encoding.md R99; 43_interleaver.md R148,
R151, R156). -/
namespace Sys2Proof.Machine

/-! The reference schedules at EX20 (R156, R159, R161) -/

/-- The generator gives the schedules that EX20 is configured with. -/
theorem refSchedule_ex20 (n : ChanCount) : refSchedule n timingEx20 = Config.ex20.schedOf n := by
  cases n <;> decide

/-- Settles O48: the three listings are the generator's words, and EX20 is the configuration of
reset, which is built. -/
theorem ex20IsBuiltWithTheReferenceSchedules :
    Obligations.Ex20IsBuiltWithTheReferenceSchedules := by
  obtain ⟨-, hreset⟩ := resetMeetsTheInvariants
  obtain ⟨hbuild, -⟩ := hreset.built
  exact ⟨refSchedule_ex20 .one, refSchedule_ex20 .two, refSchedule_ex20 .three, rfl, rfl, rfl,
    hbuild⟩

/-! Every path takes tbit cycles, and the trace by the dispatch table (R99, R148) -/

/-- A build that is not refused has passed WF for each of its schedules. -/
theorem scheduleWf_of_buildRefusal_none {cfg : Config} {tt : Timing} (hb : buildRefusal cfg = none)
    (ht : selectedTiming cfg = some tt) (n : ChanCount) : scheduleWf (cfg.schedOf n) n tt = true := by
  obtain ⟨tt', ht', -, -, -, -, hs⟩ := buildRefusal_none hb
  obtain rfl : tt = tt' := Option.some.inj (ht.symm.trans ht')
  exact schedulesOk_iff.1 hs n

/-- In RUN at `pc` 0, with no host action and a byte in every channel of the command, the block stands
at the start of a path that sends the bits of those bytes. -/
theorem atPath_of_bytes {s : State} {tt : Timing} (hp : s.phase = .run) (hh : s.host = [])
    (hpc : s.pc = 0) (hb : Built s) (ht : selectedTiming s.cfg = some tt)
    (hbytes : ∀ c ∈ s.ncmd.chans, s.sh.get c ≠ none) :
    AtPath s tt fun c => (s.sh.get c).getD 0 := by
  refine ⟨hp, hh, hpc, hb, ht, fun c hc => ?_⟩
  obtain ⟨x, hx⟩ := Option.ne_none_iff_exists'.1 (hbytes c hc)
  rw [hx, Option.getD_some]

/-- A path leaves the phase as it is. -/
theorem AtEnd.phase_eq {s u : State} {tt : Timing} {x : Chan → Byte} (h : AtEnd s u tt x) :
    u.phase = s.phase := by
  rw [h.same]

/-- A path ends `tbit` cycles after its start. -/
theorem AtEnd.cyc_eq {s u : State} {tt : Timing} {x : Chan → Byte} (h : AtEnd s u tt x) :
    u.cyc = s.cyc + tt.tbit := by
  rw [h.same]

/-- Settles O50: WF gives the cost of each path, a path runs from its start to its END in `tbit`
cycles, and the trace of a completed command is that of the table. -/
theorem everyPathTakesTbit : Obligations.EveryPathTakesTbit := by
  refine ⟨fun cfg tt n hb ht v hv => ?_, fun s tt hp hh hpc hb ht hbytes => ?_, fun s n => ?_,
    fun s n count bufs tt h => ?_⟩
  · obtain ⟨ops, hgood⟩ := goodPath_of_wf (scheduleWf_of_buildRefusal_none hb ht n) hv
    exact ⟨ops, hgood.path, hgood.cost⟩
  · obtain ⟨k, u, hrun, hend⟩ := bitPath_run (atPath_of_bytes hp hh hpc hb ht hbytes)
    obtain ⟨w, hw, hdecode⟩ := hend.atEnd
    exact ⟨k, u, w, hrun, hw, hdecode, hend.phase_eq.trans hp, hend.cyc_eq, hend.low⟩
  · exact ⟨dispatchTable_length s n, fun v hv => dispatchTable_get s hv⟩
  · obtain ⟨u, hu, hdone⟩ := h.completes
    refine ⟨u, exitCycle s.cfg tt count s.cyc, hu, exitCycle_eq .., ?_⟩
    rw [hdone.newEvents_eq, commandTrace, tableFrame_eq]

/-! No cross-talk (R151) -/

/-- Settles O58: the line events of a channel are a function of the acceptance cycle, the channel's
phase and the bits of its own frame. -/
theorem noCrossTalk : Obligations.NoCrossTalk := by
  intro s s' n count bufs bufs' tt c h h' hcfg hcyc hc hbits
  obtain ⟨u, hu, hdone⟩ := h.completes
  obtain ⟨u', hu', hdone'⟩ := h'.completes
  have hwf := h.built.schedule_wf h.timing n
  obtain ⟨φ, hφ⟩ := phase?_of_wf hwf hc
  refine ⟨u, u', hu, hu', ?_⟩
  rw [hdone.lineEvents_eq hwf hc hφ, hbits, hcfg, hcyc,
    hdone'.lineEvents_eq (hcfg ▸ hwf) hc (hcfg ▸ hφ)]

end Sys2Proof.Machine

/-! SUPPORT. Whole commands: the end of a run, the round trip through the reference decoder, the hold,
and repetition (30_encoding.md R79; 44_frame_transmitter.md R178, R186, R187, R188). -/
namespace Sys2Proof.Machine

/-! The end of a run (R188) -/

/-- The events of a command up to its exit, before the interrupt restore and Done. -/
theorem commandTrace_eq_append (cfg : Config) (n : ChanCount) (mem : Memory) (bufs : PerChan Nat)
    (tt : Timing) (count t0 : Nat) (ie : Bool) : commandTrace cfg n mem bufs tt count t0 ie =
      (.ie t0 false :: wholeFrame cfg n mem bufs.get tt.tbit count (t0 + cfg.tStart)) ++
        [.ie (exitCycle cfg tt count t0) (restoredIe cfg ie),
         .done (exitCycle cfg tt count t0 + cfg.holdOf n)] := rfl

/-- After a command the lines that are of it or were low before are low. -/
theorem CommandDone.line_low {s u : State} {n : ChanCount} {count : Nat} {bufs : PerChan Nat}
    {tt : Timing} (h : CommandDone s u n count bufs tt) {c : Chan}
    (hc : c ∈ n.chans ∨ s.line? c = some false) : u.line? c = some false := by
  by_cases hmem : c ∈ n.chans
  · exact h.low c hmem
  · rw [h.quiet c hmem]
    exact hc.resolve_left hmem

theorem CommandDone.ie_eq {s u : State} {n : ChanCount} {count : Nat} {bufs : PerChan Nat}
    {tt : Timing} (h : CommandDone s u n count bufs tt) : u.ie = restoredIe s.cfg s.ie := by
  rw [h.same]

/-- The last event of a command is its Done, at the cycle it ends. -/
theorem CommandDone.getLast?_newEvents {s u : State} {n : ChanCount} {count : Nat}
    {bufs : PerChan Nat} {tt : Timing} (h : CommandDone s u n count bufs tt) :
    (newEvents s u).getLast? = some (.done u.cyc) := by
  rw [h.newEvents_eq, commandTrace_eq_append, h.cyc_eq, List.getLast?_append]
  rfl

/-- A state with a fault or a refusal is not final. -/
theorem not_isFinal {s : State} (h : s.phase = .fault ∨ s.refused ≠ none) : ¬ isFinal s := by
  rintro ⟨hidle, -, hnone⟩
  obtain hfault | href := h
  · rw [hidle] at hfault
    cases hfault
  · exact href hnone

/-- Settles O52: the state at Done is final, and `CommandDone` gives its lines, flag, cycle and
trace. -/
theorem endOfRun : Obligations.EndOfRun := by
  refine ⟨fun s n count bufs tt h => ?_, fun s => not_isFinal⟩
  obtain ⟨u, hu, hdone⟩ := h.completes
  obtain ⟨-, ⟨hidle, hflt, href⟩, -⟩ := id hu
  exact ⟨u, hu, hidle, hflt, href, fun c => hdone.line_low, hdone.ie_eq, hdone.cyc_eq,
    hdone.getLast?_newEvents⟩

/-! The round trip (R186) -/

/-- The selected entry of a built instance satisfies R106. -/
theorem Launch.timingOk {s : State} {n : ChanCount} {count : Nat} {bufs : PerChan Nat} {tt : Timing}
    (h : Launch s n count bufs tt) : timingOk tt = true :=
  tableOk_selected (tableOk_of_buildRefusal_none h.built.1) h.timing

/-- Settles O55: a channel's line events are the waveform of its frame bits, which the decoder reads
back while no low phase inside the frame lasts `treset`. -/
theorem decodingReadsBackTheFrame : Obligations.DecodingReadsBackTheFrame := by
  intro s n count bufs tt h hreset
  obtain ⟨u, hu, hdone⟩ := h.completes
  refine ⟨u, hu, fun c hc => ?_⟩
  have hwf := h.built.schedule_wf h.timing n
  obtain ⟨φ, hφ⟩ := phase?_of_wf hwf hc
  obtain ⟨-, hhigh, -⟩ := timingOk_iff.1 h.timingOk
  rw [decodeTrace, hdone.newEvents_eq, lineEvents_commandTrace hwf hc hφ]
  exact decodeLevels_bitWaveform hhigh hreset _ _ none nofun

/-! The hold (R178, R79) -/

theorem treset_le_holdOf {cfg : Config} {treset : Nat} (h : holdsOk cfg.hold treset = true)
    (n : ChanCount) : treset ≤ cfg.holdOf n := by
  simp only [holdsOk, List.all_cons, List.all_nil, Bool.and_true, Bool.and_eq_true,
    decide_eq_true_eq] at h
  obtain ⟨h0, h1, h2⟩ := h
  cases n
  · exact h0
  · exact h1
  · exact h2

/-- The holds of a launched command's instance passed the build check. -/
theorem Launch.treset_le_hold {s : State} {n : ChanCount} {count : Nat} {bufs : PerChan Nat}
    {tt : Timing} (h : Launch s n count bufs tt) : tt.treset ≤ s.cfg.holdOf n := by
  obtain ⟨tt', ht', -, -, -, hhold, -⟩ := buildRefusal_none h.built.1
  obtain rfl : tt = tt' := Option.some.inj (h.timing.symm.trans ht')
  exact treset_le_holdOf hhold n

/-- No event of a command before its interrupt restore is later than that. -/
theorem time_le_exitCycle {cfg : Config} {n : ChanCount} {tt : Timing}
    (hwf : scheduleWf (cfg.schedOf n) n tt = true) {mem : Memory} {base : Chan → Nat}
    {count t0 : Nat} {e : Event}
    (he : e ∈ Event.ie t0 false :: wholeFrame cfg n mem base tt.tbit count (t0 + cfg.tStart)) :
    e.time ≤ exitCycle cfg tt count t0 := by
  unfold exitCycle
  obtain rfl | he := List.mem_cons.1 he
  · show t0 ≤ _
    omega
  · have := wholeFrame_time hwf he
    omega

/-- Settles O57: the trace of a command is its frame, the interrupt restore at the exit and Done a
hold later, which the build checked against `treset`. -/
theorem theHoldLastsTheResetTime : Obligations.TheHoldLastsTheResetTime := by
  intro s n count bufs tt h
  obtain ⟨u, hu, hdone⟩ := h.completes
  have hwf := h.built.schedule_wf h.timing n
  have htrace := hdone.newEvents_eq
  rw [commandTrace_eq_append, ← hdone.cyc_eq] at htrace
  refine ⟨u, _, _, hu, htrace, fun e => time_le_exitCycle hwf, ?_, hdone.low⟩
  rw [hdone.cyc_eq]
  exact Nat.add_le_add_left h.treset_le_hold _

/-! Repetition (R187) -/

theorem wholeFrame_shift (cfg : Config) (n : ChanCount) (mem : Memory) (base : Chan → Nat)
    (tbit count p d : Nat) : (wholeFrame cfg n mem base tbit count p).map (Event.shift d) =
      wholeFrame cfg n mem base tbit count (p + d) := by
  cases count with
  | zero => rfl
  | succ m => rw [wholeFrame, wholeFrame, List.map_append, loadTrace_shift, frameTrace_shift]

theorem exitCycle_shift (cfg : Config) (tt : Timing) (count t0 d : Nat) :
    exitCycle cfg tt count t0 + d = exitCycle cfg tt count (t0 + d) := by
  unfold exitCycle
  omega

/-- The events of a command accepted `d` cycles later are the same events `d` cycles later. -/
theorem commandTrace_shift (cfg : Config) (n : ChanCount) (mem : Memory) (bufs : PerChan Nat)
    (tt : Timing) (count t0 d : Nat) (ie : Bool) :
    (commandTrace cfg n mem bufs tt count t0 ie).map (Event.shift d) =
      commandTrace cfg n mem bufs tt count (t0 + d) ie := by
  simp only [commandTrace, List.map_cons, List.map_append, List.map_nil, wholeFrame_shift,
    Event.shift, ← exitCycle_shift, Nat.add_right_comm _ d]

/-- Settles O59: the trace of a command is a function of the configuration, the memory, the operands,
the flag and the acceptance cycle, and moves in time with the last. -/
theorem commandsRepeatExactly : Obligations.CommandsRepeatExactly := by
  intro s s' n count bufs tt h h' hcfg hmem hie hcyc
  obtain ⟨u, hu, hdone⟩ := h.completes
  obtain ⟨u', hu', hdone'⟩ := h'.completes
  refine ⟨u, u', hu, hu', ?_⟩
  rw [hdone.newEvents_eq, hdone'.newEvents_eq, commandTrace_shift, hcfg, hmem, hie,
    Nat.add_sub_cancel' hcyc]

end Sys2Proof.Machine

/-! SUPPORT. Acceptance and refusal of TRANSMIT, the exit of a frame and the empty frame
(44_frame_transmitter.md R167 to R171, R177, R180). -/
namespace Sys2Proof.Machine

/-! The frame exit (R177) -/

/-- Going on after the last byte is the exit of the frame. -/
theorem exec_end_last {s : State} {j : Fin 3} {k : BitVec 16} (hb : s.biti = 7)
    (hnext : s.slot.val + 1 = j.val ∧ k = s.k ∨ s.slot = 2 ∧ j = 0 ∧ k = s.k + 1)
    (hk : k = s.count) :
    exec .endPath s = .next (frameExit { s with biti := 0, slot := j, k := k }) := by
  rw [exec_end_boundary hb, closeByte_eq hnext, nextByte_of_end hk]

/-- A TRANSMIT with count 0 leaves the critical section at once. -/
theorem exec_transmit_empty {s : State} {n : ChanCount} {bufs : PerChan Nat}
    (hp : s.phase = .idle) (hbufs : ∀ c ∈ n.chans, bufs.get c < 2 ^ 16) :
    exec (.transmit n.toNat 0 bufs) s = .next (frameExit (acceptCommand n 0 bufs s)) := by
  rw [exec_transmit_accepted hp (by decide) hbufs, startFrame_of_empty rfl]

/-- The trace after an empty frame: the flag at acceptance and at the exit. -/
theorem trace_emptyFrame (n : ChanCount) (bufs : PerChan Nat) (s : State) :
    (frameExit (acceptCommand n 0 bufs s)).trace = s.trace ++ [.ie s.cyc false,
      .ie (s.cyc + s.cfg.tStart + s.cfg.tExit) (restoredIe s.cfg s.ie)] :=
  List.append_assoc ..

/-- Settles O18: at the last END the counters reach COUNT, and with count 0 the command is at its end
when it is accepted. (`frameExit` itself is the model's function.) -/
theorem frameExit_holds : Obligations.FrameExit := by
  refine ⟨fun s j k hb hnext hk => exec_end_last hb hnext hk, fun s n bufs hp hbufs => ?_⟩
  exact ⟨_, exec_transmit_empty hp hbufs, rfl, rfl, trace_emptyFrame n bufs s, rfl, rfl⟩

/-! The empty frame (R180) -/

/-- In IDLE the host's TRANSMIT with count 0 brings the block to the hold in one step. -/
theorem step_transmit_empty {s : State} {n : ChanCount} {bufs : PerChan Nat}
    {rest : List HostAction} (hp : s.phase = .idle)
    (hhost : s.host = .transmit n.toNat 0 bufs :: rest)
    (hbufs : ∀ c ∈ n.chans, bufs.get c < 2 ^ 16) :
    step s = .next (frameExit (acceptCommand n 0 bufs { s with host := rest })) :=
  (step_transmit hp hhost).trans (exec_transmit_empty (s := { s with host := rest }) hp hbufs)

/-- Settles O26: the TRANSMIT is one step, which ends in the hold, and the hold is the other. -/
theorem emptyFrame : Obligations.EmptyFrame := by
  intro s n bufs hp hhost hbufs
  have hsend := step_transmit_empty hp hhost hbufs
  have hhold : step (frameExit (acceptCommand n 0 bufs { s with host := [] })) = .next _ :=
    step_hold rfl rfl
  refine ⟨_, (Reaches.one hsend).trans (Reaches.one hhold), rfl, rfl, rfl, rfl, ?_⟩
  rw [holdDone_trace, trace_emptyFrame, List.append_assoc]
  rfl

/-! Refusals (R168) -/

theorem exec_transmit_busy {s : State} (hp : s.phase ≠ .idle) (n count : Nat) (bufs : PerChan Nat) :
    exec (.transmit n count bufs) s = .next (s.refuse .cmdBusy) :=
  if_neg hp

theorem ofNat?_eq_none {n : Nat} (h1 : n ≠ 1) (h2 : n ≠ 2) (h3 : n ≠ 3) :
    ChanCount.ofNat? n = none := by
  match n, h1, h2, h3 with
  | 0, _, _, _ | _ + 4, _, _, _ => rfl
  | 1, h, _, _ | 2, _, h, _ | 3, _, _, h => exact absurd rfl h

theorem exec_transmit_badCount {s : State} {n : Nat} (hp : s.phase = .idle)
    (hn : ChanCount.ofNat? n = none) (count : Nat) (bufs : PerChan Nat) :
    exec (.transmit n count bufs) s = .next (s.refuse .cmdN) := by
  show execTransmit n count bufs s = _
  rw [execTransmit, if_pos hp, hn]

theorem exec_transmit_badOperand {s : State} {n : ChanCount} {count : Nat} {bufs : PerChan Nat}
    (hp : s.phase = .idle) (hfit : operandsFit n count bufs = false) :
    exec (.transmit n.toNat count bufs) s = .next (s.refuse .cmdOperand) := by
  show execTransmit n.toNat count bufs s = _
  rw [execTransmit, if_pos hp, ChanCount.ofNat?_toNat]
  simp only [hfit, Bool.false_eq_true, if_false]

theorem operandsFit_eq_false {n : ChanCount} {count : Nat} {bufs : PerChan Nat}
    (h : 2 ^ 16 ≤ count ∨ ∃ c ∈ n.chans, 2 ^ 16 ≤ bufs.get c) :
    operandsFit n count bufs = false := by
  refine Bool.eq_false_iff.2 fun hfit => ?_
  obtain ⟨hcount, hbufs⟩ := operandsFit_iff.1 hfit
  obtain hbig | ⟨c, hc, hbig⟩ := h
  · omega
  · have := hbufs c hc
    omega

@[simp] theorem startFrame_refused (s : State) : (startFrame s).refused = s.refused := by
  rw [startFrame_same]

/-- Settles O24: the three refusals in their order; accepting a command and starting its frame leave
the mark. -/
theorem transmitRefusals : Obligations.TransmitRefusals := by
  intro s n count bufs
  refine ⟨fun hp => exec_transmit_busy hp n count bufs,
    fun hp h1 h2 h3 => exec_transmit_badCount hp (ofNat?_eq_none h1 h2 h3) count bufs,
    fun m hp hn => ?_⟩
  subst hn
  refine ⟨fun hbad => exec_transmit_badOperand hp (operandsFit_eq_false hbad),
    fun hcount hbufs => ⟨_, exec_transmit_accepted hp hcount hbufs, ?_⟩⟩
  rw [startFrame_refused]
  rfl

/-! Acceptance (R167, R169, R171) -/

/-- Starting a frame of at least one color, the first byte of each channel being admitted: the loads
complete, and phase RUN begins. -/
theorem startFrame_of_admitted {s : State} {base : Chan → Nat} {off : Nat} (hk : s.count ≠ 0)
    (haddr : ∀ c ∈ s.ncmd.chans, s.byteAddr c = base c + off)
    (hadm : ∀ c ∈ s.ncmd.chans, admitted s.mem (base c + off)) :
    ∃ sh, startFrame s = { s with
        sh := sh, phase := .run
        trace := s.trace ++ loadTrace s.mem base off s.cyc s.ncmd.chans } ∧
      (∀ c ∈ s.ncmd.chans, sh.get c = some (byteAt s.mem (base c + off))) ∧
      ∀ c, c ∉ s.ncmd.chans → sh.get c = s.sh.get c := by
  obtain ⟨sh, hload, hbytes, hout⟩ := loadBytes_readable s.ncmd.chans s.ncmd.chans_nodup haddr hadm
  exact ⟨sh, startFrame_of_ok hk hload, hbytes, hout⟩

/-- The buffer latch of a channel of an accepted command holds its operand. -/
theorem acceptCommand_buf_of_mem {n : ChanCount} {count : Nat} {bufs : PerChan Nat} {s : State}
    {c : Chan} (hc : c ∈ n.chans) (hlt : bufs.get c < 2 ^ 16) :
    ((acceptCommand n count bufs s).buf.get c).toNat = bufs.get c := by
  show ((latchBuffers s.buf bufs n.chans).get c).toNat = _
  rw [latchBuffers_get, if_pos hc, BitVec.toNat_ofNat, Nat.mod_eq_of_lt hlt]

theorem acceptCommand_count_ne_zero {count : Nat} (h0 : 0 < count) (hlt : count < 2 ^ 16)
    (n : ChanCount) (bufs : PerChan Nat) (s : State) :
    (acceptCommand n count bufs s).count ≠ 0 := by
  show BitVec.ofNat 16 count ≠ 0
  bv_omega

/-- Settles O23: the command is accepted, its count is not 0, and the loads at `P0` complete. -/
theorem transmitCompletes : Obligations.TransmitCompletes := by
  intro s n count bufs hp h0 hcount hbufs hadm
  obtain ⟨sh, hstart, hbytes, hout⟩ := startFrame_of_admitted (base := bufs.get)
    (acceptCommand_count_ne_zero h0 hcount n bufs s) (byteAddr_accept hbufs) hadm
  refine ⟨sh, (acceptCommand n count bufs s).buf, ?_, fun c hc => ⟨?_, hbytes c hc⟩,
    fun c hc => ⟨acceptCommand_buf_of_not_mem hc, hout c hc⟩⟩
  · rw [exec_transmit_accepted hp hcount hbufs, hstart]
    rfl
  · exact acceptCommand_buf_of_mem hc (hbufs c hc)

end Sys2Proof.Machine

/-! SUPPORT. The step by what the host does, every way out of the critical section, and that a built
block never stops (44_frame_transmitter.md R179, R181, R182, R184, R190; 70_reset_and_hazards.md R222,
R234). -/
namespace Sys2Proof.Machine

/-! The hold and the host's actions (R179, R181, R184) -/

/-- Settles O27: while the host waits the step in HOLD is the completion of the hold. -/
theorem holdCompletion : Obligations.HoldCompletion := by
  intro s hp hh
  rw [step_waits hh, blockStep, State.tick_phase, hp]
  simp only [holdDone, State.emit, State.tick_holdEnd, State.tick_trace]

/-- An action that the host can do now is done and leaves the list. -/
theorem step_hostAction {s : State} {a : HostAction} {rest : List HostAction}
    (h : s.host = a :: rest) (ha : a.mayStep s.phase = true) :
    step s = hostStep a { s with host := rest } := by
  simp [step, systemStep, h, ha]

/-- An action that the host cannot do now waits, and the step is the block's own. -/
theorem step_pending {s : State} {a : HostAction} {rest : List HostAction}
    (h : s.host = a :: rest) (ha : a.mayStep s.phase = false) : step s = blockStep s.tick :=
  step_waits (by simp [hostWaits, h, ha])

theorem hostWriteOut_of_lt {s : State} {r : Nat} (hr : r < s.out.length) (v : Byte) :
    hostWriteOut s r v = .next { s with out := s.out.set r v } :=
  if_pos hr

theorem Memory.read_write (m : Memory) (x y : Nat) (v : Byte) :
    (m.write x v).read y = if y = x then some v else m.read y := by
  split
  · next h => rw [h, Memory.read_write_same]
  · next h => exact Memory.read_write_of_ne m v h

/-- What a host that keeps its duties does to an idle block, other than block reset. -/
def HostAction.waitsForIdle : HostAction → Bool
  | .transmit _ _ _ | .setIe _ | .writeOut _ _ | .writeMem _ _ => true
  | .transmitAtOnce _ _ _ | .blockReset | .letRun _ => false

theorem HostAction.mayStep_of_waitsForIdle {a : HostAction} (ha : a.waitsForIdle = true)
    (p : Phase) : a.mayStep p = decide (p = .idle) := by
  cases a with
  | transmit | setIe | writeOut | writeMem => rfl
  | transmitAtOnce | blockReset | letRun => cases ha

/-- Outside IDLE such an action waits and counts nothing down. -/
theorem step_waitsForIdle {s : State} {a : HostAction} {rest : List HostAction}
    (h : s.host = a :: rest) (ha : a.waitsForIdle = true) (hp : s.phase ≠ .idle) :
    step s = blockStep s := by
  have hwait : a.mayStep s.phase = false := by
    rw [HostAction.mayStep_of_waitsForIdle ha]
    exact decide_eq_false hp
  have htick : s.tick = s := State.tick_eq fun n rest' e => by
    obtain ⟨rfl, -⟩ := List.cons.inj (h.symm.trans e)
    cases ha
  rw [step_pending h hwait, htick]

/-- Settles O28: an action that may be done is done, one that waits for IDLE leaves the block its own
step, and `letRun` counts down. -/
theorem hostActsBetweenCommands : Obligations.HostActsBetweenCommands := by
  refine ⟨fun s hp hh => ?_, fun s v rest hp hh => ?_, fun s r v rest hp hh hr => ?_,
    fun s a b rest hp hh => ?_, fun s a rest hp hh ha => ?_, fun s n rest hh => ⟨fun h => ?_, ?_⟩⟩
  · rw [step_no_host hh, blockStep, hp]
  · exact step_hostAction hh (decide_eq_true hp)
  · rw [step_hostAction hh (decide_eq_true hp)]
    exact hostWriteOut_of_lt (s := { s with host := rest }) hr v
  · exact ⟨_, step_hostAction hh (decide_eq_true hp), rfl, fun x => Memory.read_write ..⟩
  · have hidle : s.phase ≠ .idle := by obtain hp | hp := hp <;> simp [hp]
    refine step_waitsForIdle hh ?_ hidle
    obtain ⟨n, count, bufs, rfl⟩ | ⟨v, rfl⟩ | ⟨r, v, rfl⟩ | ⟨x, b, rfl⟩ := ha <;> rfl
  · refine step_hostAction hh ?_
    simpa [HostAction.mayStep, or_assoc] using h
  · rintro m rfl hp
    have hwait : (HostAction.letRun (m + 1)).mayStep s.phase = false := by
      obtain hp | hp := hp <;> simp [HostAction.mayStep, hp]
    rw [step_pending hh hwait, State.tick_letRun hh]

/-! Every way out of the critical section (R190) -/

/-- The critical section was left: IE is `v`, and the last event shows that at the present cycle. -/
def Released (s : State) (v : Bool) : Prop :=
  s.ie = v ∧ s.trace.getLast? = some (.ie s.cyc v)

theorem released_raise (s : State) (f : FaultRec) :
    Released (s.raise f) (restoredIe s.cfg s.ieSaved) :=
  ⟨rfl, List.getLast?_concat⟩

theorem released_frameExit (s : State) : Released (frameExit s) (restoredIe s.cfg s.ieSaved) :=
  ⟨rfl, List.getLast?_concat⟩

theorem released_of_loadBytes_error {cs : List Chan} {s t : State}
    (h : loadBytes cs s = .error t) : Released t (restoredIe s.cfg s.ieSaved) := by
  obtain ⟨sh, tr, a, rfl, -⟩ := loadBytes_error h
  exact released_raise _ _

/-- Going on at a byte boundary of phase RUN starts the next path or leaves the critical section. -/
theorem nextByte_run_or_released {s : State} (hp : s.phase = .run) :
    (nextByte s).phase = .run ∨ Released (nextByte s) (restoredIe s.cfg s.ieSaved) := by
  obtain ⟨-, e⟩ | ⟨-, t, hl, e⟩ | ⟨-, t, hl, e⟩ := nextByte_cases s <;> rw [e]
  · exact .inr (released_frameExit s)
  · obtain ⟨sh, tr, rfl, -⟩ := loadBytes_ok hl
    exact .inl hp
  · exact .inr (released_of_loadBytes_error hl)

/-- An accepted command reaches phase RUN or leaves the critical section. -/
theorem startFrame_run_or_released (s : State) :
    (startFrame s).phase = .run ∨ Released (startFrame s) (restoredIe s.cfg s.ieSaved) := by
  obtain ⟨-, e⟩ | ⟨-, t, hl, e⟩ | ⟨-, t, hl, e⟩ := startFrame_cases s <;> rw [e]
  · exact .inr (released_frameExit s)
  · exact .inl rfl
  · exact .inr (released_of_loadBytes_error hl)

/-- A micro-op other than END keeps the phase, or raises a fault. -/
theorem MicroNext.phase_or_raise {s t : State} {i : Instr} (h : MicroNext s i t) :
    t.phase = s.phase ∨ ∃ f, t = s.raise f := by
  cases h with
  | nop | seth | setl | rot | bt => exact .inl rfl
  | illegal | noShift | noTest => exact .inr ⟨_, rfl⟩

theorem exec_end_run_or_released {s t : State} (hp : s.phase = .run)
    (h : exec .endPath s = .next t) :
    t.phase = .run ∨ Released t (restoredIe s.cfg s.ieSaved) := by
  by_cases hb : s.biti = 7
  · cases next_inj ((exec_end_boundary hb).symm.trans h)
    exact nextByte_run_or_released (s := s.closeByte) hp
  · cases next_inj ((exec_end_inside hb).symm.trans h)
    exact .inl hp

/-- A step of phase RUN stays in it or leaves the critical section. -/
theorem runStep_run_or_released {s t : State} (hp : s.phase = .run) (h : runStep s = .next t) :
    t.phase = .run ∨ Released t (restoredIe s.cfg s.ieSaved) := by
  obtain ⟨f, -, rfl⟩ | ⟨w, i, -, -, hm, h⟩ := runStep_next h
  · exact .inr (released_raise s f)
  · by_cases he : i = .endPath
    · subst he
      exact exec_end_run_or_released hp h
    · obtain hphase | ⟨f, rfl⟩ := (exec_micro_next hm he h).phase_or_raise
      · exact .inl (hphase.trans hp)
      · exact .inr (released_raise s f)

/-- Settles O33: what leaves RUN is a frame exit or a fault, and so is what an accepted TRANSMIT comes
to when it does not reach RUN; a refused one stays in IDLE. -/
theorem exclusiveAttentionIsReleased : Obligations.ExclusiveAttentionIsReleased := by
  refine ⟨fun s t hp h hrun => ?_, fun n count bufs s t hp h hidle hrun => ?_⟩
  · rw [blockStep, hp] at h
    exact (runStep_run_or_released hp h).resolve_left hrun
  · obtain ⟨r, rfl⟩ | ⟨m, -, -, rfl⟩ := execTransmit_next h
    · exact absurd hp hidle
    · exact (startFrame_run_or_released _).resolve_left hrun

/-! A built block never stops (R182, R234) -/

theorem withChannel_steps {c : Chan} {w : Word} {s : State} {f : State → Result}
    (hf : ∃ t, f s = .next t) : ∃ t, withChannel c w s f = .next t := by
  unfold withChannel
  split
  · exact hf
  · exact ⟨_, rfl⟩

theorem withValue_steps {α : Type} {c : Chan} {r : Option α} {s : State} {f : α → Result}
    (hf : ∀ x, ∃ t, f x = .next t) : ∃ t, withValue c r s f = .next t := by
  unfold withValue
  split
  · exact ⟨_, rfl⟩
  · exact hf _

/-- A line whose pin exists can be driven. -/
theorem driveLine_steps {s : State} (hpins : PinsExist s.cfg s.out.length) (c : Chan) (v : Bool) :
    ∃ t, driveLine c v s = .next t := by
  obtain ⟨x, hx⟩ := hpins.out_some c
  exact ⟨_, driveLine_of_pin v hx (hpins.bit c)⟩

theorem execRot_steps (c : Chan) (s : State) : ∃ t, execRot c s = .next t := by
  unfold execRot
  exact withChannel_steps (withValue_steps fun x => ⟨_, rfl⟩)

theorem execBt_steps (c : Chan) (off : Nat) (s : State) : ∃ t, execBt c off s = .next t := by
  unfold execBt
  exact withChannel_steps (withValue_steps fun x => ⟨_, rfl⟩)

theorem execTransmit_steps (n count : Nat) (bufs : PerChan Nat) (s : State) :
    ∃ t, execTransmit n count bufs s = .next t := by
  obtain ⟨-, e⟩ | ⟨-, -, e⟩ | ⟨m, -, -, -, e⟩ | ⟨m, -, -, -, e⟩ :=
      execTransmit_cases n count bufs s <;>
    exact ⟨_, e⟩

/-- Every instruction answers a next state when the pins exist. -/
theorem exec_steps {s : State} (hpins : PinsExist s.cfg s.out.length) (i : Instr) :
    ∃ t, exec i s = .next t := by
  cases i with
  | nop n => exact ⟨_, rfl⟩
  | seth c => exact withChannel_steps (driveLine_steps hpins c true)
  | setl c => exact withChannel_steps (driveLine_steps hpins c false)
  | rot c => exact execRot_steps c s
  | bt c off => exact execBt_steps c off s
  | endPath => exact ⟨_, execEndPath_next s⟩
  | transmit n count bufs => exact execTransmit_steps n count bufs s

theorem runStep_steps {s : State} (hpins : PinsExist s.cfg s.out.length) :
    ∃ t, runStep s = .next t := by
  unfold runStep
  split
  · exact ⟨_, rfl⟩
  · exact ⟨_, rfl⟩
  · exact exec_steps hpins _

theorem blockStep_steps {s : State} (hpins : PinsExist s.cfg s.out.length)
    (hp : s.phase ≠ .fault) : ∃ t, blockStep s = .next t := by
  unfold blockStep
  split
  · exact ⟨_, rfl⟩
  · exact runStep_steps hpins
  · exact ⟨_, rfl⟩
  · next hf => exact absurd hf hp

/-- A host action is done when it writes no register that does not exist. -/
theorem hostStep_steps {a : HostAction} {s : State}
    (ha : ∀ r v, a = .writeOut r v → r < s.out.length) : ∃ t, hostStep a s = .next t := by
  cases a with
  | transmit n count bufs | transmitAtOnce n count bufs => exact execTransmit_steps n count bufs s
  | writeOut r v => exact ⟨_, hostWriteOut_of_lt (ha r v rfl) v⟩
  | blockReset | letRun | setIe | writeMem => exact ⟨_, rfl⟩

/-- Settles O43: of the model's stops, `halted` is that of phase FAULT and the others are those of
pins and registers that do not exist. -/
theorem aBuiltInstanceNeverStops : Obligations.ABuiltInstanceNeverStops := by
  intro s h hp hwrite
  cases hh : s.host with
  | nil =>
    rw [step_no_host hh]
    exact blockStep_steps h.built.pins hp
  | cons a rest =>
    cases hm : a.mayStep s.phase with
    | true =>
      rw [step_hostAction hh hm]
      exact hostStep_steps fun r v e => hwrite r v rest (by rw [hh, e])
    | false =>
      have hpins : PinsExist s.tick.cfg s.tick.out.length := by
        rw [State.tick_cfg, State.tick_out]
        exact h.built.pins
      rw [step_pending hh hm]
      exact blockStep_steps hpins (by rwa [State.tick_phase])

end Sys2Proof.Machine

/-! SUPPORT. Faults: what raising one writes, the reads that raise one, the order of the build checks,
and that a built instance stays on a path and raises no fault but OOB_READ (60_exceptions.md R196 to
R203, R208; 30_encoding.md R95, R97). -/
namespace Sys2Proof.Machine

/-! Raising a fault (R196, R199, R202) -/

theorem State.raise_eq (s : State) (f : FaultRec) : s.raise f = { s with
    flt := some f, phase := .fault, ie := restoredIe s.cfg s.ieSaved
    trace := s.trace ++ [.fault s.cyc f, .ie s.cyc (restoredIe s.cfg s.ieSaved)] } := by
  have htrace : (s.raise f).trace =
      s.trace ++ [.fault s.cyc f, .ie s.cyc (restoredIe s.cfg s.ieSaved)] :=
    List.append_assoc ..
  rw [← htrace]
  rfl

/-- Settles O29: the four fields that `State.raise` writes, and the numbers of the codes. -/
theorem raisingAFault : Obligations.RaisingAFault :=
  ⟨State.raise_eq, fun _ => rfl, fun _ _ => rfl, fun _ => rfl, fun _ _ => rfl⟩

/-- ROT of a channel of the command whose shift register holds no value. -/
theorem execRot_of_none {s : State} {c : Chan} (hc : c.val < s.ncmd.toNat)
    (hx : s.sh.get c = none) : execRot c s = .next (s.raise (.noValue s.pc c)) := by
  simp only [execRot, withChannel_of_lt hc, hx, withValue]

/-- BT of a channel of the command whose test bit holds no value. -/
theorem execBt_of_none {s : State} {c : Chan} {off : Nat} (hc : c.val < s.ncmd.toNat)
    (hb : s.t.get c = none) : execBt c off s = .next (s.raise (.noValue s.pc c)) := by
  simp only [execBt, withChannel_of_lt hc, hb, withValue]

/-- Settles O14: the channel check passes, and the register that is read holds no value. -/
theorem readsOfNoValueFault : Obligations.ReadsOfNoValueFault :=
  fun _ _ _ hc => ⟨execRot_of_none hc, execBt_of_none hc⟩

/-! The first byte that cannot be read (R198, R203) -/

/-- The loads of a command stop at its first channel whose byte is not admitted. -/
theorem loadBytes_chans_stops {s : State} {base : Chan → Nat} {off : Nat} {pre post : List Chan}
    {c : Chan} (hchans : s.ncmd.chans = pre ++ c :: post)
    (haddr : ∀ d ∈ s.ncmd.chans, s.byteAddr d = base d + off)
    (hpre : ∀ d ∈ pre, admitted s.mem (base d + off)) (hc : ¬ admitted s.mem (base c + off)) :
    ∃ sh, loadBytes s.ncmd.chans s = .error (State.raise
        { s with sh := sh, trace := s.trace ++ loadTrace s.mem base off s.cyc pre }
        (.oobRead (base c + off))) ∧
      (∀ d ∈ pre, sh.get d = some (byteAt s.mem (base d + off))) ∧
      ∀ d, d ∉ pre → sh.get d = s.sh.get d := by
  have hnd := s.ncmd.chans_nodup
  rw [hchans] at hnd haddr ⊢
  exact loadBytes_stops hnd haddr hpre hc

/-- Settles O25: the loads of a byte boundary, the counters moved, and those at `P0` of an accepted
command stop at the first channel whose byte is not admitted. -/
theorem firstUnreadableByteFaults : Obligations.FirstUnreadableByteFaults := by
  refine ⟨fun s j k pre post c hb hnext hk hchans hpre hc => ?_,
    fun s n count bufs pre post c hp h0 hcount hbufs hchans hpre hc => ?_⟩
  · obtain ⟨sh, hload, hbytes, hout⟩ := loadBytes_chans_stops
      (s := { s with biti := 0, slot := j, k := k })
      (base := fun d => (s.buf.get d).toNat + 3 * k.toNat) hchans (fun _ _ => rfl) hpre hc
    refine ⟨sh, ?_, hbytes, hout⟩
    rw [exec_end_boundary hb, closeByte_eq hnext, nextByte_of_error hk hload, State.raise_eq]
    rfl
  · obtain ⟨sh, hload, hbytes, hout⟩ := loadBytes_chans_stops
      (s := acceptCommand n count bufs s) hchans (byteAddr_accept hbufs) hpre hc
    refine ⟨_, exec_transmit_accepted hp hcount hbufs, ?_⟩
    rw [startFrame_of_error (acceptCommand_count_ne_zero h0 hcount n bufs s) hload]
    exact ⟨rfl, rfl, rfl, List.append_assoc .., hbytes, hout⟩

/-! Phase FAULT (R196, R208) -/

theorem blockStep_fault {s : State} (hp : s.phase = .fault) : blockStep s = .fault .halted := by
  rw [blockStep, hp]

/-- What the host can do in FAULT: a TRANSMIT, which is refused, the end of its own waiting, or block
reset. -/
theorem hostStep_fault {a : HostAction} {s t : State} (hp : s.phase = .fault)
    (ha : a.mayStep s.phase = true) (h : hostStep a s = .next t) :
    t = { s with refused := t.refused } ∨ a = .blockReset ∧ t = blockReset s := by
  cases a with
  | transmitAtOnce n count bufs =>
    obtain rfl := next_inj ((exec_transmit_busy (by simp [hp]) n count bufs).symm.trans h)
    exact .inl rfl
  | blockReset => exact .inr ⟨rfl, (next_inj h).symm⟩
  | letRun n =>
    cases next_inj h
    exact .inl rfl
  | transmit | setIe | writeOut | writeMem =>
    rw [HostAction.mayStep_of_waitsForIdle rfl, hp] at ha
    cases ha

/-- Settles O30: the block takes no step of its own, and of what the host can do only block reset
writes more than the mark of a refusal. -/
theorem faultIsAbsorbing : Obligations.FaultIsAbsorbing := by
  have hblock : ∀ {s : State}, s.phase = .fault → blockStep s.tick = .fault .halted :=
    fun hp => blockStep_fault (by rwa [State.tick_phase])
  refine ⟨fun s hp hh => (step_waits hh).trans (hblock hp), fun s t hp h => ?_⟩
  obtain h | ⟨a, rest, hhost, ha, h⟩ := step_next h
  · rw [hblock hp] at h
    cases h
  · obtain ht | ⟨rfl, ht⟩ := hostStep_fault (s := { s with host := rest }) hp ha h
    · refine .inl ⟨?_, ?_⟩ <;> rw [ht]
      exact hp
    · exact .inr ⟨rest, hhost, ht⟩

/-! The build checks (R197) -/

/-- Pins in range that are pairwise distinct pass. -/
theorem pinsOk_iff {cfg : Config} : pinsOk cfg.nReg cfg.pin = true ↔
    (∀ c, (cfg.pin.get c).reg < cfg.nReg ∧ (cfg.pin.get c).bit < 8) ∧
      ∀ c d, c ≠ d → cfg.pin.get c ≠ cfg.pin.get d := by
  refine ⟨fun h => ?_, fun ⟨hrange, hne⟩ => ?_⟩
  · have hex := pinsOk_exist h
    exact ⟨fun c => ⟨hex.reg c, hex.bit c⟩, fun c d hcd e => hcd (hex.inj c d e)⟩
  · unfold pinsOk outWidth
    simp only [List.all_cons, List.all_nil, Bool.and_true, Bool.and_eq_true, decide_eq_true_eq]
    exact ⟨⟨⟨⟨hrange 0, hrange 1, hrange 2⟩, hne 0 1 (by decide)⟩, hne 0 2 (by decide)⟩,
      hne 1 2 (by decide)⟩

/-- An ORDER in which each component stands passes. -/
theorem orderOk_iff {order : PerChan (BitVec 2)} :
    orderOk order = true ↔ ∀ i, i < 3 → ∃ j, (order.get j).toNat = i := by
  have hmem : ∀ i, (∃ j, (order.get j).toNat = i) ↔
      i ∈ [order.c0.toNat, order.c1.toNat, order.c2.toNat] := by
    simp [Fin.exists_fin_succ, PerChan.get, eq_comm]
  simp only [hmem, orderOk, List.all_eq_true, decide_eq_true_eq]
  refine ⟨fun h i hi => h i ?_, fun h i hi => h i ?_⟩
  · match i, hi with
    | 0, _ | 1, _ | 2, _ => decide
  · exact (by decide : ∀ i ∈ [0, 1, 2], i < 3) i hi

/-- Holds of at least `treset` pass. -/
theorem holdsOk_iff {cfg : Config} {treset : Nat} :
    holdsOk cfg.hold treset = true ↔ ∀ n, treset ≤ cfg.holdOf n := by
  refine ⟨treset_le_holdOf, fun h => ?_⟩
  have h1 : treset ≤ cfg.hold.c0 := h .one
  have h2 : treset ≤ cfg.hold.c1 := h .two
  have h3 : treset ≤ cfg.hold.c2 := h .three
  simp [holdsOk, h1, h2, h3]

section BuildChecks

variable {cfg : Config} {tt : Timing} (ht : selectedTiming cfg = some tt)
  (htab : tableOk cfg.table = true)

include ht htab

/-- The pins are checked after the table. -/
theorem buildRefusal_buildPin (hpin : pinsOk cfg.nReg cfg.pin = false) :
    buildRefusal cfg = some .buildPin := by
  simp [buildRefusal, ht, htab, hpin]

/-- The order is checked after the pins. -/
theorem buildRefusal_buildOrder (hpin : pinsOk cfg.nReg cfg.pin = true)
    (hord : orderOk cfg.order = false) : buildRefusal cfg = some .buildOrder := by
  simp [buildRefusal, ht, htab, hpin, hord]

/-- The holds are checked after the order. -/
theorem buildRefusal_buildHold (hpin : pinsOk cfg.nReg cfg.pin = true)
    (hord : orderOk cfg.order = true) (hhold : holdsOk cfg.hold tt.treset = false) :
    buildRefusal cfg = some .buildHold := by
  simp [buildRefusal, ht, htab, hpin, hord, hhold]

/-- A build that passes every check is not refused. -/
theorem buildRefusal_eq_none (hpin : pinsOk cfg.nReg cfg.pin = true)
    (hord : orderOk cfg.order = true) (hhold : holdsOk cfg.hold tt.treset = true)
    (hs : schedulesOk cfg tt = true) : buildRefusal cfg = none := by
  simp [buildRefusal, ht, htab, hpin, hord, hhold, hs]

end BuildChecks

/-- A build that is not refused gives the reset state. -/
theorem boot_of_none {cfg : Config} (h : buildRefusal cfg = none) (out : List Byte) (ie : Bool)
    (mem : Memory) (host : List HostAction) :
    boot cfg out ie mem host = .ok (State.powerOn cfg out ie mem host) := by
  rw [boot, h]

/-- Settles O47: each premise says that a check passes or fails, and the checks come in this order. -/
theorem buildChecksInOrder : Obligations.BuildChecksInOrder := by
  intro cfg tt ht hrows
  have htab := tableOk_iff.2 hrows
  refine ⟨fun hbad => buildRefusal_buildPin ht htab (Bool.eq_false_iff.2 (mt pinsOk_iff.1 hbad)),
    fun hrange hne => ?_⟩
  have hpin := pinsOk_iff.2 ⟨hrange, hne⟩
  refine ⟨fun ⟨i, hi, hmiss⟩ => ?_, fun hall => ?_⟩
  · refine buildRefusal_buildOrder ht htab hpin (Bool.eq_false_iff.2 fun hok => ?_)
    obtain ⟨j, hj⟩ := orderOk_iff.1 hok i hi
    exact hmiss j hj
  have hord := orderOk_iff.2 hall
  refine ⟨fun ⟨n, hlt⟩ => ?_, fun hle => ?_⟩
  · refine buildRefusal_buildHold ht htab hpin hord (Bool.eq_false_iff.2 fun hok => ?_)
    exact Nat.not_lt.2 (holdsOk_iff.1 hok n) hlt
  have hhold := holdsOk_iff.2 hle
  refine ⟨fun ⟨n, hbad⟩ => ?_, fun hwf => ?_⟩
  · refine buildRefusal_buildSched ht htab hpin hord hhold (Bool.eq_false_iff.2 fun hok => ?_)
    rw [schedulesOk_iff.1 hok n] at hbad
    cases hbad
  · have hnone := buildRefusal_eq_none ht htab hpin hord hhold (schedulesOk_iff.2 hwf)
    exact ⟨hnone, boot_of_none hnone⟩

/-! A built instance stays built (R197; 10_state.md R40) -/

theorem MicroNext.out_length {s t : State} {i : Instr} (h : MicroNext s i t) :
    t.out.length = s.out.length := by
  cases h with
  | seth | setl => exact List.length_set ..
  | nop | rot | bt | illegal | noShift | noTest => rfl

theorem exec_out_length {i : Instr} {s t : State} (h : exec i s = .next t) :
    t.out.length = s.out.length := by
  cases i with
  | endPath => rw [exec_end_out h]
  | transmit n count bufs => rw [exec_transmit_out h]
  | _ => exact (exec_micro_next rfl (by simp) h).out_length

theorem blockStep_out_length {s t : State} (h : blockStep s = .next t) :
    t.out.length = s.out.length := by
  unfold blockStep at h
  split at h
  · rw [next_inj h]
  · obtain ⟨f, -, rfl⟩ | ⟨w, i, -, -, -, h⟩ := runStep_next h
    · rw [State.raise_out]
    · exact exec_out_length h
  · rw [← next_inj h, holdDone_out]
  · cases h

theorem hostStep_out_length {a : HostAction} {s t : State} (h : hostStep a s = .next t) :
    t.out.length = s.out.length := by
  cases a with
  | transmit n count bufs | transmitAtOnce n count bufs =>
    exact exec_out_length (i := .transmit n count bufs) h
  | writeOut r v =>
    obtain ⟨-, rfl⟩ := hostWriteOut_next h
    exact List.length_set ..
  | blockReset | letRun | setIe | writeMem => cases next_inj h; rfl

theorem step_out_length {s t : State} (h : step s = .next t) : t.out.length = s.out.length := by
  obtain h | ⟨a, rest, -, -, h⟩ := step_next h
  · rw [blockStep_out_length h, State.tick_out]
  · exact (hostStep_out_length h :)

/-- No step changes a parameter or the number of output registers. -/
theorem Built.step {s t : State} (hb : Built s) (h : step s = .next t) : Built t := by
  obtain ⟨hnone, hlen⟩ := hb
  have hcfg := parametersAreFixed s t h
  exact ⟨by rw [hcfg]; exact hnone, by rw [hcfg, step_out_length h]; exact hlen⟩

/-! On a path (R199 to R201; 30_encoding.md R95) -/

/-- In phase RUN the sequencer is at index 0, where every path starts, or on a path, and no fault but
OOB_READ was raised. -/
structure Tracked (s : State) : Prop where
  run : s.phase = .run → s.pc = 0 ∨ OnPath s
  fault : ∀ f, s.flt = some f → ∃ a, f = .oobRead a

theorem Certified.tracked {s : State} (h : Certified s) : Tracked s :=
  ⟨fun hp => .inr (h.path hp), h.fault⟩

/-- At index 0 of a built instance, every channel of the command holding a byte, a path starts. -/
theorem Tracked.certified {s : State} (h : Tracked s) (hc : Coherent s) (hb : Built s) :
    Certified s :=
  ⟨hc, hb, fun hp => (h.run hp).elim (fun hpc => onPath_start hb hpc (hc.bytes hp)) id, h.fault⟩

/-- A certificate does not speak of what the host does next. -/
theorem Certified.of_host {s : State} (h : Certified s) (host : List HostAction) :
    Certified { s with host := host } :=
  ⟨h.coherent.of_unread _ _ _ _ _ _ _, h.built, h.path, h.fault⟩

theorem Certified.tick {s : State} (h : Certified s) : Certified s.tick := by
  rw [State.tick_same]
  exact h.of_host _

/-- After a micro-op other than END the sequencer is at the next micro-op of its path, if `pc` is there
and the micro-op wrote no shift register or test bit but, as a ROT, those of its channel. -/
theorem PathStep.onPath_next {s t : State} {v : PerChan Bool} {done rest : List PathOp} {o : PathOp}
    (h : PathStep s v done o rest) (hcfg : t.cfg = s.cfg) (hn : t.ncmd = s.ncmd)
    (hpc : rest.head?.map PathOp.index = some t.pc)
    (hrot : ∀ c, o.op = .rot c → t.t.get c = some (v.get c))
    (hkeep : ∀ c, o.op ≠ .rot c → t.sh.get c = s.sh.get c ∧ t.t.get c = s.t.get c) : OnPath t := by
  refine ⟨v, by rw [hn]; exact h.mem, done ++ [o], rest, ?_, hpc, fun c hc => ?_⟩
  · rw [State.schedule, hcfg, hn, List.append_assoc]
    exact h.path
  · by_cases ho : o.op = .rot c
    · rw [if_pos ⟨o, by simp, ho⟩]
      exact hrot c ho
    · obtain ⟨hsh, ht⟩ := hkeep c ho
      have hdone : (∃ x ∈ done ++ [o], x.op = .rot c) ↔ ∃ x ∈ done, x.op = .rot c := by
        simp [or_and_right, exists_or, ho]
      simp only [hdone, hsh, ht]
      exact h.bits c (by rwa [hn] at hc)

/-- The bit of a channel that is about to be rotated is still at bit 7. -/
theorem PathStep.bit_of_rot {s : State} {v : PerChan Bool} {done rest : List PathOp} {o : PathOp}
    {c : Chan} (h : PathStep s v done o rest) (ho : o.op = .rot c) :
    ∃ x, s.sh.get c = some x ∧ testBit x = v.get c := by
  have hc := h.chan c (by rw [ho]; rfl)
  have hbits := h.bits c hc
  rwa [if_neg (h.rot c hc ho)] at hbits

/-- The test bit of a channel that is about to be tested is that of the path. -/
theorem PathStep.test_of_bt {s : State} {v : PerChan Bool} {done rest : List PathOp} {o : PathOp}
    {c : Chan} {off : Nat} (h : PathStep s v done o rest) (ho : o.op = .bt c off) :
    s.t.get c = some (v.get c) := by
  have hc := h.chan c (by rw [ho]; rfl)
  have hbits := h.bits c hc
  rwa [if_pos (h.bt c hc off ho)] at hbits

/-- A micro-op of a path other than END raises no fault and leaves the sequencer on the path. -/
theorem PathStep.onPath_of_micro {s t : State} {v : PerChan Bool} {done rest : List PathOp}
    {o : PathOp} (h : PathStep s v done o rest) (he : o.op ≠ .endPath) (hm : MicroNext s o.op t) :
    OnPath t ∧ t.flt = s.flt := by
  have hnext := h.next he
  generalize ho : o.op = i at hm hnext
  cases hm with
  | nop | seth | setl =>
    exact ⟨h.onPath_next rfl rfl hnext (by simp [ho]) fun _ _ => ⟨rfl, rfl⟩, rfl⟩
  | rot c x hc hx =>
    obtain ⟨y, hy, hbit⟩ := h.bit_of_rot ho
    obtain rfl : x = y := Option.some.inj (hx.symm.trans hy)
    refine ⟨h.onPath_next rfl rfl hnext (fun d hd => ?_) (fun d hd => ?_), rfl⟩
    · obtain rfl : c = d := by simpa [ho] using hd
      rw [rotate_t, PerChan.get_set_same, hbit]
    · have hdc : d ≠ c := fun e => hd (by rw [ho, e])
      exact ⟨PerChan.get_set_of_ne _ _ hdc, PerChan.get_set_of_ne _ _ hdc⟩
  | bt c off b hc hb =>
    obtain rfl : b = v.get c := Option.some.inj (hb.symm.trans (h.test_of_bt ho))
    exact ⟨h.onPath_next rfl rfl hnext (by simp [ho]) fun _ _ => ⟨rfl, rfl⟩, rfl⟩
  | illegal _ c w hi hc =>
    have hlt := (s.ncmd.mem_chans c).1 (h.chan c (by rw [ho]; exact hi))
    exact absurd hlt (Nat.not_lt.2 hc)
  | noShift c hc hx =>
    obtain ⟨y, hy, -⟩ := h.bit_of_rot ho
    rw [hx] at hy
    cases hy
  | noTest c off hc hx =>
    have hb := h.test_of_bt ho
    rw [hx] at hb
    cases hb

/-! END and TRANSMIT -/

/-- Loads that stop raise OOB_READ. -/
theorem tracked_of_loadBytes_error {cs : List Chan} {s t : State} (h : loadBytes cs s = .error t) :
    Tracked t := by
  obtain ⟨sh, tr, a, rfl, -⟩ := loadBytes_error h
  exact ⟨by simp, fun f hf => ⟨a, (Option.some.inj hf).symm⟩⟩

theorem tracked_frameExit {s : State} (h : s.flt = none) : Tracked (frameExit s) :=
  ⟨by simp, by simp [h]⟩

/-- Going on at a byte boundary leaves RUN or starts a path. -/
theorem tracked_nextByte {s : State} (h : s.flt = none) : Tracked (nextByte s) := by
  obtain ⟨-, e⟩ | ⟨-, t, hl, e⟩ | ⟨-, t, hl, e⟩ := nextByte_cases s <;> rw [e]
  · exact tracked_frameExit h
  · obtain ⟨sh, tr, rfl, -⟩ := loadBytes_ok hl
    exact ⟨fun _ => .inl rfl, by simp [h]⟩
  · exact tracked_of_loadBytes_error hl

/-- Starting a frame at index 0 enters RUN there or leaves the critical section. -/
theorem tracked_startFrame {s : State} (hpc : s.pc = 0) (h : s.flt = none) :
    Tracked (startFrame s) := by
  obtain ⟨-, e⟩ | ⟨-, t, hl, e⟩ | ⟨-, t, hl, e⟩ := startFrame_cases s <;> rw [e]
  · exact tracked_frameExit h
  · obtain ⟨sh, tr, rfl, -⟩ := loadBytes_ok hl
    exact ⟨fun _ => .inl hpc, by simp [h]⟩
  · exact tracked_of_loadBytes_error hl

theorem tracked_of_exec_end {s t : State} (h : s.flt = none) (he : exec .endPath s = .next t) :
    Tracked t := by
  by_cases hb : s.biti = 7
  · obtain rfl := next_inj ((exec_end_boundary hb).symm.trans he)
    exact tracked_nextByte (s := s.closeByte) h
  · obtain rfl := next_inj ((exec_end_inside hb).symm.trans he)
    exact ⟨fun _ => .inl rfl, by simp [h]⟩

theorem Certified.tracked_of_execTransmit {s t : State} {n count : Nat} {bufs : PerChan Nat}
    (h : Certified s) (he : execTransmit n count bufs s = .next t) : Tracked t := by
  obtain ⟨r, rfl⟩ | ⟨m, hp, -, rfl⟩ := execTransmit_next he
  · exact ⟨h.tracked.run, h.tracked.fault⟩
  · exact tracked_startFrame rfl (h.coherent.flt_none (by simp [hp]))

/-! The steps -/

/-- A step of phase RUN finds the micro-op of its path at `pc`. -/
theorem Certified.tracked_of_runStep {s t : State} (h : Certified s) (hp : s.phase = .run)
    (he : runStep s = .next t) : Tracked t := by
  obtain ⟨v, done, o, rest, hstep⟩ := onPath_step h.built (h.path hp)
  obtain ⟨w, hw, hd⟩ := hstep.word
  simp only [runStep, fetch_of_decode hw hd] at he
  by_cases hend : o.op = .endPath
  · rw [hend] at he
    exact tracked_of_exec_end (h.coherent.flt_none (by simp [hp])) he
  · obtain ⟨hpath, hflt⟩ :=
      hstep.onPath_of_micro hend (exec_micro_next (decode_isMicroOp hd) hend he)
    exact ⟨fun _ => .inr hpath, by rw [hflt]; exact h.fault⟩

theorem Certified.tracked_of_blockStep {s t : State} (h : Certified s)
    (he : blockStep s = .next t) : Tracked t := by
  unfold blockStep at he
  split at he
  · cases next_inj he
    exact h.tracked
  · next hp => exact h.tracked_of_runStep hp he
  · cases next_inj he
    exact ⟨by simp, h.fault⟩
  · cases he

/-- A host action other than TRANSMIT and block reset writes nothing that a path or FLT rests on. -/
theorem Certified.tracked_of_hostStep {a : HostAction} {s t : State} (h : Certified s)
    (he : hostStep a s = .next t) : Tracked t := by
  obtain ⟨hrun, hfault⟩ := h.tracked
  cases a with
  | transmit n count bufs | transmitAtOnce n count bufs => exact h.tracked_of_execTransmit he
  | blockReset =>
    cases next_inj he
    exact ⟨by simp, by simp⟩
  | writeOut r v =>
    obtain ⟨-, rfl⟩ := hostWriteOut_next he
    exact ⟨hrun, hfault⟩
  | letRun | setIe | writeMem =>
    cases next_inj he
    exact ⟨hrun, hfault⟩

/-- Settles O42: every step keeps coherence and the build, and its next state is at the start of a
path, on one, or out of RUN, with no fault but OOB_READ. -/
theorem everyStepKeepsTheCertificate : Obligations.EveryStepKeepsTheCertificate := by
  intro s t h he
  obtain ⟨hc, -⟩ := everyStepKeepsCoherence s t h.coherent he
  have ht : Tracked t := by
    obtain he | ⟨a, rest, -, -, he⟩ := step_next he
    · exact h.tick.tracked_of_blockStep he
    · exact (h.of_host rest).tracked_of_hostStep he
  exact ht.certified hc (h.built.step he)

end Sys2Proof.Machine

/-! SUPPORT. Block reset as a step (70_reset_and_hazards.md R220, R221). -/
namespace Sys2Proof.Machine

/-- Block reset waits for no phase: it is the next step whenever it is the host's next action. -/
theorem step_blockReset {s : State} {rest : List HostAction} (h : s.host = .blockReset :: rest) :
    step s = .next (blockReset { s with host := rest }) :=
  step_hostAction h rfl

/-- Settles O31: in every phase the step is block reset, field by field what the `blockReset_`
lemmas say. -/
theorem blockResetFromEveryPhase : Obligations.BlockResetFromEveryPhase := by
  intro s rest h
  refine ⟨blockReset { s with host := rest }, step_blockReset h, ?_⟩
  simp

end Sys2Proof.Machine
